-- ==== Sys2Proof/Word.lean ====
section
/-! DEFINITION. The word types of the block (00_scope R9, R12): bus words, bytes and symbols.
All are unsigned; no quantity of the block is signed. -/

namespace Sys2Proof

/-- A bus data word or bus address (32 bits, 00_scope R9). -/
abbrev Word := BitVec 32

/-- A byte of the output stream, an error code, a code length (8 bits, 00_scope R9). -/
abbrev Byte := BitVec 8

/-- A symbol: an unsigned 8-bit value in natural numeric order (00_scope R9, R15). -/
abbrev Sym := BitVec 8

end Sys2Proof
end

