-- ==== Sys2Proof/Config.lean ====
section
/-! DEFINITION. What an implementation fixes (00_scope R8, 20_memory R62, 60_exceptions R219) and the
free values the spec writes `ANY` (00_scope R13, 93 S1, S3, S6). -/

namespace Sys2Proof

/-- The parameters of one block. The spec takes them as arguments (00_scope R8); the model holds one
record of them in the state, which no step changes (DESIGN CHOICE, log 1). -/
structure Params where
  /-- `MAX_INPUT`: capacity of the input buffer in symbols, 1 … 2^20. -/
  maxInput : Nat
  /-- `OUT_CAP`: capacity of the output buffer in bytes, 1 … 2^21. -/
  outCap : Nat
  /-- `MAX_CODE_LEN`: longest code length the block accepts, 1 … 255. -/
  maxCodeLen : Nat
  /-- `HUF_BASE`: where a platform places the 16 MiB block (20_memory R62). -/
  hufBase : Word
  /-- `HUF_IRQ_LINE`: the platform line `irq` is routed to (60_exceptions R219). -/
  hufIrqLine : Nat
deriving DecidableEq, Repr

/-- The legal ranges of the three size parameters (00_scope R8). -/
def Params.legal (p : Params) : Bool :=
  decide (1 ≤ p.maxInput ∧ p.maxInput ≤ 2 ^ 20) &&
  decide (1 ≤ p.outCap ∧ p.outCap ≤ 2 ^ 21) &&
  decide (1 ≤ p.maxCodeLen ∧ p.maxCodeLen ≤ 255)

/-- The reference configuration `REF` (00_scope R8). The two platform parameters have no reference
value in the spec: 0 is the model's (DESIGN CHOICE, log 13). -/
def Params.ref : Params where
  maxInput := 65536
  outCap := 2 ^ 21
  maxCodeLen := 255
  hufBase := 0
  hufIrqLine := 0

/-- The n-th free value of a whole-word read that returns `ANY` (00_scope R13; log 5). -/
opaque Config.anyWord : Nat → BitVec 32

/-- The n-th free value of STATUS.TREE_VALID read as `ANY` (20_memory R71; log 5). -/
opaque Config.anyBit : Nat → Bool

end Sys2Proof
end

