-- ==== Sys2Proof/Syntax.lean ====
section
/-! DEFINITION. The command set HUF-CMD version 1 (30_encoding R91): one constructor per row of
`spec/opcode_table.json`. No command has an operand field (30_encoding R94). -/

namespace Sys2Proof

/-- The seven commands (30_encoding R91). -/
inductive Instr where
  /-- CLEAR, OP 0x01 (41 R121). -/
  | clear
  /-- COUNT, OP 0x02 (41 R122). -/
  | count
  /-- BUILD, OP 0x03 (42 R140). -/
  | build
  /-- EXTRACT, OP 0x04 (42 R144). -/
  | extract
  /-- ASSIGN, OP 0x05 (43 R170). -/
  | assign
  /-- ENCODE, OP 0x06 (44 R190). -/
  | encode
  /-- RUN, OP 0x07 (41 R123). -/
  | run
deriving DecidableEq, Repr

end Sys2Proof
end

