-- ==== Sys2Proof/WellFormed.lean ====
section
/-! DEFINITION. Which terms are well-formed. An instruction has no operand (30_encoding R94), so every
term of `Instr` is; the checks are on command words (30_encoding R92). The check of the parameters is
`Params.legal` (Config) and that of a host access is `Machine.HostOp.wellFormed`. -/

namespace Sys2Proof

/-- Every command is well-formed: none has an operand (30_encoding R94). -/
def Instr.wellFormed : Instr → Bool
  | .clear => true
  | .count => true
  | .build => true
  | .extract => true
  | .assign => true
  | .encode => true
  | .run => true

/-- The command word format CMDW (30_encoding R90): `OP` in bits 7:0, `RSV` in bits 31:8. -/
structure CommandWord where
  op : BitVec 8
  rsv : BitVec 24
deriving DecidableEq, Repr

/-- A command word is legal exactly when RSV = 0 and OP ∈ 0x01 … 0x07 (30_encoding R92). -/
def CommandWord.wellFormed (c : CommandWord) : Bool :=
  decide (c.rsv = 0) && decide (1 ≤ c.op.toNat ∧ c.op.toNat ≤ 7)

end Sys2Proof
end

