-- ==== Sys2Proof/Decode.lean ====
section
/-! DEFINITION. The decoder of command words, total on every 32-bit word, rejecting by name
(30_encoding R92, R93), and after it the encoder (30_encoding R91). -/

namespace Sys2Proof

/-- Why a word is no legal command (30_encoding R93). -/
inductive DecodeReject where
  /-- A nonzero RSV field, bits 31:8. -/
  | reservedBits (rsv : BitVec 24)
  /-- OP = 0x00 or OP = 0x08 … 0xFF. -/
  | illegalOpcode (op : BitVec 8)
deriving DecidableEq, Repr

/-- The fields of a word written to CMD (30_encoding R90). -/
def CommandWord.ofWord (v : Word) : CommandWord where
  op := v.extractLsb' 0 8
  rsv := v.extractLsb' 8 24

/-- The opcode map (30_encoding R91). -/
def decodeOp (op : BitVec 8) : Except DecodeReject Instr :=
  match op.toNat with
  | 1 => .ok .clear
  | 2 => .ok .count
  | 3 => .ok .build
  | 4 => .ok .extract
  | 5 => .ok .assign
  | 6 => .ok .encode
  | 7 => .ok .run
  | _ => .error (.illegalOpcode op)

/-- Decoding a word written to CMD (30_encoding R92): bits 31:8 must be 0, then OP selects. -/
def decode (v : Word) : Except DecodeReject Instr :=
  let c := CommandWord.ofWord v
  if c.rsv = 0 then decodeOp c.op else .error (.reservedBits c.rsv)

/-- The decoder on a row of the opcode table: every command is one 32-bit word (30_encoding R90), so
nothing longer is one. -/
def decodeTableWord (nbits w : Nat) : Option Instr :=
  if nbits ≤ 32 ∧ w < 2 ^ 32 then
    match decode (BitVec.ofNat 32 w) with
    | .ok i => some i
    | .error _ => none
  else none

/-- The OP field of each command (30_encoding R91). -/
def Instr.opcode : Instr → BitVec 8
  | .clear => 0x01
  | .count => 0x02
  | .build => 0x03
  | .extract => 0x04
  | .assign => 0x05
  | .encode => 0x06
  | .run => 0x07

/-- The command word of each command: RSV = 0 above OP (30_encoding R90, R91). -/
def encode (i : Instr) : Word :=
  (0 : BitVec 24) ++ i.opcode

end Sys2Proof
end

