-- ==== Sys2Proof/Machine/HostOp.lean ====
section
/-! DEFINITION. The host's side of the interface: bus transactions (30_encoding R100), the
pseudo-operations (R101), and the turns that make up an interleaving (00_scope R11, 20_memory R75). -/

namespace Sys2Proof.Machine

/-- One host operation (30_encoding R100). `width` is the access width in bytes; only 4 exists
(20_memory R63), any other is refused by name. -/
inductive HostOp where
  /-- `RD addr`: `MemRead(addr, width)`. -/
  | read (addr : Word) (width : Nat)
  /-- `WR addr, value`: `MemWrite(addr, width, value)`. -/
  | write (addr : Word) (width : Nat) (value : Word)
  /-- `POLL addr, mask, value`: repeat `RD addr -> t` until `(t AND mask) = value`. -/
  | poll (addr : Word) (mask value : Word)
deriving DecidableEq, Repr

/-- The access width of a host operation, in bytes. -/
def HostOp.width : HostOp → Nat
  | .read _ w => w
  | .write _ w _ => w
  | .poll _ _ _ => 4

/-- Every access is a whole 32-bit word (20_memory R63). -/
def HostOp.wellFormed (op : HostOp) : Bool :=
  decide (op.width = 4)

/-- What moves next in an interleaving (00_scope R11, 20_memory R75, 70 R240). -/
inductive Turn where
  /-- HOST issues its next access. -/
  | host
  /-- ENGINE is scheduled. -/
  | engine
  /-- The input `rst` is asserted. -/
  | assertRst
  /-- The input `rst` is released. -/
  | releaseRst
deriving DecidableEq, Repr

/-- `WR addr, value` (30_encoding R100). -/
def HostOp.wr (addr value : Word) : HostOp := .write addr 4 value

/-- `RD addr` (30_encoding R100). -/
def HostOp.rd (addr : Word) : HostOp := .read addr 4

/-- `CMD name` = `WR 0x018, OP(name)` (30_encoding R101). -/
def HostOp.cmd (i : Instr) : HostOp := HostOp.wr 0x018 (encode i)

/-- `WAIT` = `POLL 0x014, 0x1, 0x0` (30_encoding R101). -/
def HostOp.wait : HostOp := .poll 0x014 0x1 0x0

/-- `ACK` = `WR 0x014, 0x1A` (30_encoding R101). -/
def HostOp.ack : HostOp := HostOp.wr 0x014 0x1A

/-- The IN writes of `LOADIN`, from entry `i` on. -/
def HostOp.loadFrom (i : Nat) (syms : List Sym) : List HostOp :=
  match syms with
  | [] => []
  | c :: rest =>
    HostOp.wr (BitVec.ofNat 32 (0x00400000 + 4 * i)) (c.setWidth 32) :: HostOp.loadFrom (i + 1) rest

/-- `LOADIN "c0 … cn−1"`: write IN[0 … n − 1], then IN_LEN = n (30_encoding R101). -/
def HostOp.loadIn (syms : List Sym) : List HostOp :=
  HostOp.loadFrom 0 syms ++ [HostOp.wr 0x020 (BitVec.ofNat 32 syms.length)]

/-- `SETFREQ s, c` = `WR 0x400 + 4·s, c` (30_encoding R101). -/
def HostOp.setFreq (s : Sym) (c : Word) : HostOp :=
  HostOp.wr (BitVec.ofNat 32 (0x400 + 4 * s.toNat)) c

/-- `SETLEN s, L` = `WR 0x800 + 4·s, L` (30_encoding R101). -/
def HostOp.setLen (s : Sym) (l : Byte) : HostOp :=
  HostOp.wr (BitVec.ofNat 32 (0x800 + 4 * s.toNat)) (l.setWidth 32)

end Sys2Proof.Machine
end

