-- ==== Sys2Proof/Machine/Memory.lean ====
section
/-! DEFINITION. The byte buffers IN and OUT (10_state R33, R39) as lists of (entry index, byte) pairs in one
canonical form: indices strictly rising. An unlisted entry has NO VALUE: for IN it is the spec's mark ⊥,
for OUT it is contents the spec leaves unspecified (log 9). Multi-byte quantities never occur in them
(20_memory R72), so there is no byte order to decide here. -/

namespace Sys2Proof.Machine

/-- A byte buffer keyed by entry index (log 20). -/
abbrev Memory := List Host.Cell

/-- What an unlisted entry reads as: no value (10_state R33: the mark ⊥). -/
def Memory.unlisted : Option Byte := none

/-- Entry `i`, or no value. -/
def Memory.read (m : Memory) (i : Nat) : Option Byte :=
  match m with
  | [] => Memory.unlisted
  | (k, b) :: rest => if k = i then some b else Memory.read rest i

/-- Entry `i` becomes `b`; the list stays sorted. -/
def Memory.write (m : Memory) (i : Nat) (b : Byte) : Memory :=
  match m with
  | [] => [(i, b)]
  | (k, c) :: rest =>
    if i < k then (i, b) :: (k, c) :: rest
    else if i = k then (i, b) :: rest
    else (k, c) :: Memory.write rest i b

/-- Entries `i, i + 1, …` become the given bytes. -/
def Memory.writeFrom (m : Memory) (i : Nat) (bytes : List Byte) : Memory :=
  match bytes with
  | [] => m
  | b :: rest => Memory.writeFrom (m.write i b) (i + 1) rest

/-- The canonical form: indices strictly rising. (No listed entry can equal "no value".) -/
abbrev Memory.wf (m : Memory) : Prop :=
  m.Pairwise fun x y => x.1 < y.1

/-- Every listed index lies below `n`. -/
abbrev Memory.within (m : Memory) (n : Nat) : Prop :=
  ∀ c ∈ m, c.1 < n

end Sys2Proof.Machine
end

