-- ==== Sys2Proof/Machine/Table.lean ====
section
/-! DEFINITION. The 256-entry tables indexed by a symbol (FREQ, LEN, CLEN, CODE: 10_state R34, R37, R38):
plain data, one entry for each symbol 0 … 255. -/

namespace Sys2Proof.Machine

/-- A table with one entry for each symbol. -/
abbrev Table (α : Type) := Vector α 256

/-- `T[s]` (00_scope R13). -/
def Table.get {α : Type} (t : Table α) (s : Sym) : α :=
  t[s.toNat]'s.isLt

/-- `T[s] <- v` (00_scope R13). -/
def Table.set {α : Type} (t : Table α) (s : Sym) (v : α) : Table α :=
  Vector.set t s.toNat v s.isLt

/-- The table whose every entry is `v`. -/
def Table.fill {α : Type} (v : α) : Table α :=
  Vector.replicate 256 v

/-- The table whose entries are those of `t` under `f`. -/
def Table.mapEntries {α β : Type} (f : α → β) (t : Table α) : Table β :=
  ⟨(t.toList.map f).toArray, by simp⟩

/-- The symbols 0 … 255 in ascending order (00_scope R15). -/
def allSyms : List Sym :=
  (List.range 256).map (BitVec.ofNat 8)

/-- The symbols whose entry meets `p`, in ascending order (one pass over the table). -/
def Table.symsWith {α : Type} (p : α → Bool) (t : Table α) : List Sym :=
  ((allSyms.zip t.toList).filter fun e => p e.2).map Prod.fst

end Sys2Proof.Machine
end

