-- ==== Sys2Proof/Machine/State.lean ====
section
/-! DEFINITION. The state of the block (10_state R20 – R43) with its environment, the faults and the
refusals, and the state after reset (10_state R42). -/

namespace Sys2Proof.Machine

/-- KIND of a tree node (10_state R35): 0 = Leaf, 1 = Internal. -/
inductive NodeKind where
  | leaf
  | internal
deriving DecidableEq, Repr

/-- One entry of the tree arena (10_state R35). -/
structure Node where
  kind : NodeKind
  /-- For a Leaf its symbol; for an Internal node the smallest symbol below it. -/
  minSym : Sym
  /-- For a Leaf its frequency; for an Internal node the sum of its children's. -/
  nfreq : BitVec 40
  /-- Index of the left child (the node removed first); 0 for a Leaf. -/
  left : BitVec 9
  /-- Index of the right child; 0 for a Leaf. -/
  right : BitVec 9
deriving DecidableEq, Repr

/-- Why the machine stops with a fault. -/
inductive Fault where
  /-- Raised by COUNT and ENCODE (and RUN through them): an entry IN[i] with i < IN_LEN has not been
  written since reset (60_exceptions R228). Safe: the model stops where hardware reads some symbol. -/
  | unwrittenInput
  /-- Raised by EXTRACT only: the arena is one that BUILD cannot have made, and the spec's Walk (42 R145)
  does not terminate on it or reads an entry that has no value. No run reaches it. Safe (log 10). -/
  | malformedTree
deriving DecidableEq, Repr

/-- Why the model gives a step no meaning. -/
inductive Refusal where
  /-- Raised by `exec` for an instruction that has no meaning yet. Safe. -/
  | notModelled (mnemonic : String)
  /-- Raised at the host-program boundary: a host access of a width other than 4 bytes
  (60_exceptions R229, 20_memory R63). Safe: the spec itself refuses such a program. -/
  | subWordAccess
deriving DecidableEq, Repr

/-- The block and its environment. Plain data; the order follows 10_state R43. -/
structure State where
  /-- The parameters of this block (00_scope R8). No step changes them (log 1). -/
  params : Params
  /-- CTRL.IRQ_EN (10_state R23). -/
  irqEn : Bool
  /-- STATUS.BUSY (10_state R24). -/
  busy : Bool
  /-- STATUS.DONE (10_state R24). -/
  done : Bool
  /-- STATUS.OVR (10_state R24). -/
  ovr : Bool
  /-- STATUS.AERR (10_state R24). -/
  aerr : Bool
  /-- ERR.CODE (10_state R26). -/
  errCode : BitVec 8
  /-- ERR.STAGE (10_state R26). -/
  errStage : BitVec 8
  /-- PENDING (10_state R27): the accepted command, meaningful only while `busy`. -/
  pending : Instr
  /-- IN_LEN (10_state R28). -/
  inLen : BitVec 32
  /-- IN (10_state R33); an unlisted entry is ⊥. -/
  inBuf : Memory
  /-- FREQ (10_state R34). -/
  freq : Table (BitVec 32)
  /-- NODE_COUNT (10_state R31). -/
  nodeCount : BitVec 10
  /-- ROOT (10_state R32). -/
  root : BitVec 9
  /-- NODE, the arena (10_state R35): the entries written since reset, from index 0 on (log 8). -/
  node : List Node
  /-- LEN (10_state R37). -/
  len : Table (BitVec 8)
  /-- CLEN (10_state R38). -/
  clen : Table (BitVec 8)
  /-- CODE (10_state R38, 00_scope R9). -/
  code : Table (BitVec 256)
  /-- BITCOUNT (10_state R29). -/
  bitCount : BitVec 32
  /-- OUT_LEN (10_state R30). -/
  outLen : BitVec 32
  /-- OUT (10_state R39); an unlisted entry is unspecified (log 9). -/
  outBuf : Memory
  /-- Environment: the level of the input `rst` (70 R240). -/
  rst : Bool
  /-- Environment: the host operations not yet finished, next one first (log 4). -/
  hostOps : List HostOp
  /-- Environment: the interleaving still to come (20_memory R75; log 3). -/
  turns : List Turn
  /-- Environment: the words that reads have returned, newest first (log 12). -/
  responses : List Word
  /-- Environment: how many `ANY` values have been drawn (log 5). -/
  draws : Nat
deriving DecidableEq, Repr

/-- The block after reset (10_state R42), with `rst` released, in the reference configuration (log 1), with
an environment that has nothing to do (log 3, 4). PENDING is unspecified there: CLEAR is the model's
(DESIGN CHOICE, log 7). -/
def State.reset : State where
  params := Params.ref
  irqEn := false
  busy := false
  done := false
  ovr := false
  aerr := false
  errCode := 0
  errStage := 0
  pending := .clear
  inLen := 0
  inBuf := []
  freq := Table.fill 0
  nodeCount := 0
  root := 0
  node := []
  len := Table.fill 0
  clen := Table.fill 0
  code := Table.fill 0
  bitCount := 0
  outLen := 0
  outBuf := []
  rst := false
  hostOps := []
  turns := []
  responses := []
  draws := 0

end Sys2Proof.Machine
end

