-- ==== Sys2Proof/Machine/AddressMap.lean ====
section
/-! DEFINITION. The address map (20_memory R61), the addresses of registers and window entries, and the write
sets of the commands as addresses (30_encoding R96). -/

namespace Sys2Proof.Machine

/-- The thirteen registers of the control page (20_memory R61). -/
inductive Reg where
  | id
  | ctrl
  | status
  | cmd
  | err
  | inLen
  | bitCount
  | outLen
  | nodeCount
  | root
  | paramMaxInput
  | paramOutCap
  | paramMaxCodeLen
deriving DecidableEq, Repr

/-- What a mapped word address names (20_memory R61). -/
inductive Target where
  | reg (r : Reg)
  | freq (s : Sym)
  | len (s : Sym)
  /-- Node slot i (0 … 511), word w (0 … 3). -/
  | tree (i w : Nat)
  /-- Symbol slot s, word w (0 … 15). -/
  | code (s : Sym) (w : Nat)
  | inBuf (i : Nat)
  | outBuf (b : Nat)
deriving DecidableEq, Repr

/-- The offset of each register (10_state R21 – R32). -/
def Reg.offset : Reg → Nat
  | .id => 0x000
  | .ctrl => 0x010
  | .status => 0x014
  | .cmd => 0x018
  | .err => 0x01C
  | .inLen => 0x020
  | .bitCount => 0x024
  | .outLen => 0x028
  | .nodeCount => 0x02C
  | .root => 0x030
  | .paramMaxInput => 0x040
  | .paramOutCap => 0x044
  | .paramMaxCodeLen => 0x048

/-- The register at an offset of the control page; the offsets not named are unmapped (20_memory R61). -/
def regAt (offset : Nat) : Option Reg :=
  match offset with
  | 0x000 => some .id
  | 0x010 => some .ctrl
  | 0x014 => some .status
  | 0x018 => some .cmd
  | 0x01C => some .err
  | 0x020 => some .inLen
  | 0x024 => some .bitCount
  | 0x028 => some .outLen
  | 0x02C => some .nodeCount
  | 0x030 => some .root
  | 0x040 => some .paramMaxInput
  | 0x044 => some .paramOutCap
  | 0x048 => some .paramMaxCodeLen
  | _ => none

/-- What an address names; none when it is misaligned or unmapped (20_memory R61, R64). -/
def decodeAddr (p : Params) (addr : Word) : Option Target :=
  let a := addr.toNat
  if a % 4 ≠ 0 then none
  else if a < 0x400 then (regAt a).map Target.reg
  else if a < 0x800 then some (.freq (BitVec.ofNat 8 ((a - 0x400) / 4)))
  else if a < 0xC00 then some (.len (BitVec.ofNat 8 ((a - 0x800) / 4)))
  else if a < 0x2000 then none
  else if a < 0x4000 then some (.tree ((a - 0x2000) / 16) (a / 4 % 4))
  else if a < 0x8000 then some (.code (BitVec.ofNat 8 ((a - 0x4000) / 64)) (a / 4 % 16))
  else if a < 0x00400000 then none
  else if a < 0x00400000 + 4 * p.maxInput then some (.inBuf ((a - 0x00400000) / 4))
  else if a < 0x00800000 then none
  else if a < 0x00800000 + 4 * p.outCap then some (.outBuf ((a - 0x00800000) / 4))
  else none

/-- The entry address of a register or window entry (20_memory R61). -/
def Target.addr : Target → Nat
  | .reg r => r.offset
  | .freq s => 0x400 + 4 * s.toNat
  | .len s => 0x800 + 4 * s.toNat
  | .tree i w => 0x2000 + 16 * i + 4 * w
  | .code s w => 0x4000 + 64 * s.toNat + 4 * w
  | .inBuf i => 0x00400000 + 4 * i
  | .outBuf b => 0x00800000 + 4 * b

/-- The block-relative address of a system address: every address of the spec is relative to HUF_BASE
(20_memory R62). -/
def blockAddr (p : Params) (sysAddr : Word) : Word :=
  sysAddr - p.hufBase

/-- The system address of a block-relative address (20_memory R62). -/
def sysAddr (p : Params) (addr : Word) : Word :=
  p.hufBase + addr

/-- The host-visible addresses the write set of a command covers (30_encoding R96). STATUS.TREE_VALID is
covered exactly when NODE_COUNT is (20_memory R71). -/
def writeSetCovers (i : Instr) (t : Target) : Bool :=
  match i with
  | .clear =>
    match t with
    | .freq _ => true
    | .len _ => true
    | .code _ _ => true
    | .tree _ _ => true
    | .outBuf _ => true
    | .reg r => decide (r = .nodeCount ∨ r = .root ∨ r = .bitCount ∨ r = .outLen)
    | .inBuf _ => false
  | .count =>
    match t with
    | .freq _ => true
    | _ => false
  | .build =>
    match t with
    | .tree _ _ => true
    | .reg r => decide (r = .nodeCount ∨ r = .root)
    | _ => false
  | .extract =>
    match t with
    | .len _ => true
    | .tree _ _ => true
    | .reg r => decide (r = .nodeCount ∨ r = .root)
    | _ => false
  | .assign =>
    match t with
    | .code _ _ => true
    | _ => false
  | .encode =>
    match t with
    | .outBuf _ => true
    | .reg r => decide (r = .bitCount ∨ r = .outLen)
    | _ => false
  | .run =>
    match t with
    | .freq _ => true
    | .len _ => true
    | .code _ _ => true
    | .tree _ _ => true
    | .outBuf _ => true
    | .reg r => decide (r = .nodeCount ∨ r = .root ∨ r = .bitCount ∨ r = .outLen)
    | .inBuf _ => false

end Sys2Proof.Machine
end

