-- ==== Sys2Proof/Machine/Flags.lean ====
section
/-! DEFINITION. The views and flag computations: STATUS.ERR, STATUS.TREE_VALID, the `irq` output and the
STATUS and ERR words (10_state R24, R26, R41; 20_memory R66). -/

namespace Sys2Proof.Machine

/-- STATUS.ERR reads 1 exactly when ERR.CODE ≠ 0 (10_state R24). -/
def State.errView (s : State) : Bool :=
  decide (s.errCode ≠ 0)

/-- STATUS.TREE_VALID reads 1 exactly when NODE_COUNT ≠ 0 (10_state R24). -/
def State.treeValid (s : State) : Bool :=
  decide (s.nodeCount ≠ 0)

/-- The level output `irq = CTRL.IRQ_EN ∧ STATUS.DONE` (10_state R41, 60_exceptions R219). -/
def State.irq (s : State) : Bool :=
  s.irqEn && s.done

/-- The platform line `irq` drives: HUF_IRQ_LINE and no other (60_exceptions R219). -/
def State.irqLine (s : State) (line : Nat) : Bool :=
  decide (line = s.params.hufIrqLine) && s.irq

/-- One bit as a number, at bit position `n`. -/
def bitAt (n : Nat) (b : Bool) : Nat :=
  if b then 2 ^ n else 0

/-- The STATUS word with `tv` as its TREE_VALID bit: bit 5 TREE_VALID, 4 AERR, 3 OVR, 2 ERR, 1 DONE,
0 BUSY, the rest 0 (10_state R24, 20_memory R66). -/
def State.statusWord (s : State) (tv : Bool) : Word :=
  BitVec.ofNat 32
    (bitAt 5 tv + bitAt 4 s.aerr + bitAt 3 s.ovr + bitAt 2 s.errView + bitAt 1 s.done + bitAt 0 s.busy)

/-- The ERR word: STAGE in bits 15:8, CODE in bits 7:0 (10_state R26, 20_memory R66). -/
def State.errWord (s : State) : Word :=
  (s.errStage ++ s.errCode).setWidth 32

end Sys2Proof.Machine
end

