-- ==== Sys2Proof/Machine/Ops.lean ====
section
/-! DEFINITION. The shared operations: the error codes, how a stage ends, how ENGINE completes a command
(the block's only "exception entry": 60_exceptions R210, R217), how a command word is accepted or rejected
(the only "return": 60_exceptions R218), reset, and the draw of an `ANY` value. -/

namespace Sys2Proof.Machine

/-- The error names (60_exceptions R211). -/
inductive ErrCode where
  | emptyAlphabet
  | noTree
  | lenOverflow
  | oversubscribed
  | noCode
  | outOverflow
  | badCmd
deriving DecidableEq, Repr

/-- The ERR.CODE value of an error (60_exceptions R211). -/
def ErrCode.bits : ErrCode → BitVec 8
  | .emptyAlphabet => 1
  | .noTree => 2
  | .lenOverflow => 3
  | .oversubscribed => 4
  | .noCode => 5
  | .outOverflow => 6
  | .badCmd => 7

/-- How the pseudocode of a command ends (00_scope R13, R14). -/
inductive StageResult where
  /-- Every output is committed in `s`. -/
  | committed (s : State)
  /-- `raise Error(code, stage)`: `s` holds what earlier stages committed, nothing of the failing one. -/
  | error (s : State) (code : ErrCode) (stage : BitVec 8)
  /-- `FAULT(reason)`. -/
  | fault (f : Fault)
deriving DecidableEq, Repr

/-- The end of an ENGINE step: ERR is written, BUSY ← 0, DONE ← 1 (41 R120, 60_exceptions R217).
`irq` follows, being a view. -/
def State.completed (s : State) (code stage : BitVec 8) : State :=
  { s with errCode := code, errStage := stage, busy := false, done := true }

/-- The ENGINE step's outcome from its command's (41 R120). -/
def StageResult.complete (r : StageResult) : Host.Outcome State Fault Refusal :=
  match r with
  | .committed s => .next (s.completed 0 0)
  | .error s code stage => .next (s.completed code.bits stage)
  | .fault f => .fault f

/-- Run the next stage on what the earlier ones committed; stop at the first error or fault (41 R123). -/
def StageResult.andThen (r : StageResult) (next : State → StageResult) : StageResult :=
  match r with
  | .committed s => next s
  | .error s code stage => .error s code stage
  | .fault f => .fault f

/-- Acceptance of a legal command (20_memory R70): PENDING, ERR ← 0, DONE ← 0, BUSY ← 1. -/
def State.accept (s : State) (i : Instr) : State :=
  { s with pending := i, errCode := 0, errStage := 0, done := false, busy := true }

/-- Rejection of an illegal command word (20_memory R70, 60_exceptions R216): ERR.CODE = BAD_CMD,
ERR.STAGE = v[7:0], DONE ← 1; BUSY stays as it is. -/
def State.rejectCommand (s : State) (v : Word) : State :=
  { s with errCode := ErrCode.badCmd.bits, errStage := v.extractLsb' 0 8, done := true }

/-- `SubmitCommand(v)`, a write of v to CMD while idle (20_memory R70). -/
def State.submitCommand (s : State) (v : Word) : State :=
  match decode v with
  | .ok i => s.accept i
  | .error _ => s.rejectCommand v

/-- Every piece of the block's state takes its reset value (10_state R42, 70 R240); the parameters and
the environment are not the block's state. -/
def State.resetBlock (s : State) : State :=
  { State.reset with
    params := s.params
    rst := s.rst
    hostOps := s.hostOps
    turns := s.turns
    responses := s.responses
    draws := s.draws }

/-- While `rst` is asserted every piece of state holds its reset value (70 R240). -/
def State.heldInReset (s : State) : State :=
  if s.rst then s.resetBlock else s

/-- Draw one `ANY` word (00_scope R13; log 5). -/
def State.drawAny (s : State) : Word × State :=
  (Config.anyWord s.draws, { s with draws := s.draws + 1 })

end Sys2Proof.Machine
end

