-- ==== Sys2Proof/Machine/Bus.lean ====
section
/-! DEFINITION. Host accesses: the word formats of the windows (30_encoding R97 – R99), `MemRead` (20_memory
R64, R66, R71) and `MemWrite` (20_memory R64, R65, R67 – R70), and accesses under reset (70 R240). -/

namespace Sys2Proof.Machine

/-- The KIND bit (10_state R35), bit 0 of TREE word 0 (30_encoding R97). -/
def NodeKind.bit : NodeKind → Nat
  | .leaf => 0
  | .internal => 1

/-- `TreeWord(n, w)` (30_encoding R97; NFREQ least significant word first, 20_memory R72).
DESIGN CHOICE (log 21): the spec conflicts with itself on where MIN_SYM stands in word 0, and 90_conflicts rules
nothing. 20_memory R72 and 92 D9 say bits 7:0; the table of R97 and the vector TB-13 say bits 15:8, with KIND in
bit 0; no word shows both (`treeWord_kind_excludes_low_symbol`). The model follows R97, which 20_memory R66 names
as what a read of the window returns. -/
def Node.word (n : Node) (w : Nat) : Word :=
  match w with
  | 0 => BitVec.ofNat 32 (n.kind.bit + 256 * n.minSym.toNat)
  | 1 => n.nfreq.extractLsb' 0 32
  | 2 => (n.nfreq.extractLsb' 32 8).setWidth 32
  | 3 => BitVec.ofNat 32 (n.left.toNat + 65536 * n.right.toNat)
  | _ => 0

/-- `CodeWord(s, w)` from CLEN[s] and CODE[s] (30_encoding R98). -/
def codeWord (clen : BitVec 8) (code : BitVec 256) (w : Nat) : Word :=
  if w = 0 then clen.setWidth 32
  else if w ≤ 8 then code.extractLsb' (32 * (w - 1)) 32
  else 0

/-- ID = "HUF", version 1 (10_state R21). -/
def idWord : Word := 0x48554601

/-- The value of a register (20_memory R66). -/
def State.regValue (s : State) (r : Reg) : Word :=
  match r with
  | .id => idWord
  | .ctrl => BitVec.ofNat 32 (bitAt 0 s.irqEn)
  | .status => s.statusWord s.treeValid
  | .cmd => 0
  | .err => s.errWord
  | .inLen => s.inLen
  | .bitCount => s.bitCount
  | .outLen => s.outLen
  | .nodeCount => s.nodeCount.setWidth 32
  | .root => s.root.setWidth 32
  | .paramMaxInput => BitVec.ofNat 32 s.params.maxInput
  | .paramOutCap => BitVec.ofNat 32 s.params.outCap
  | .paramMaxCodeLen => BitVec.ofNat 32 s.params.maxCodeLen

/-- The value a mapped address holds (20_memory R66); none where it is `ANY`: an IN entry that is ⊥, or
(in no run) a live node or valid output byte whose contents the spec leaves unspecified (log 8, 9). -/
def State.valueAt (s : State) (t : Target) : Option Word :=
  match t with
  | .reg r => some (s.regValue r)
  | .freq x => some (s.freq.get x)
  | .len x => some ((s.len.get x).setWidth 32)
  | .tree i w => if i < s.nodeCount.toNat then s.node[i]?.map (fun n => n.word w) else some 0
  | .code x w => some (codeWord (s.clen.get x) (s.code.get x) w)
  | .inBuf i => (s.inBuf.read i).map (fun b => b.setWidth 32)
  | .outBuf b => if b < s.outLen.toNat then (s.outBuf.read b).map (fun x => x.setWidth 32) else some 0

/-- A read of a mapped address (20_memory R66, R71): `ANY` for the write set of the pending command while
BUSY; STATUS then has an `ANY` TREE_VALID bit if NODE_COUNT is in that set. -/
def State.readMapped (s : State) (t : Target) : Word × State :=
  if s.busy && writeSetCovers s.pending t then s.drawAny
  else if t = .reg .status ∧ s.busy = true ∧ writeSetCovers s.pending (.reg .nodeCount) = true then
    (s.statusWord (Config.anyBit s.draws), { s with draws := s.draws + 1 })
  else
    match s.valueAt t with
    | some w => (w, s)
    | none => s.drawAny

/-- `MemRead(addr, 4)`: the word returned and the state after it (20_memory R64, R66). -/
def State.memRead (s : State) (addr : Word) : Word × State :=
  match decodeAddr s.params addr with
  | none => (0, { s with aerr := true })
  | some t => s.readMapped t

/-- CTRL and STATUS accept writes even while BUSY (20_memory R65, R67). -/
def Target.writableWhileBusy (t : Target) : Bool :=
  decide (t = .reg .ctrl ∨ t = .reg .status)

/-- A write to STATUS (10_state R24): W1C of DONE (bit 1), OVR (bit 3) and AERR (bit 4). -/
def State.writeStatus (s : State) (v : Word) : State :=
  { s with
    done := s.done && !v.getLsbD 1
    ovr := s.ovr && !v.getLsbD 3
    aerr := s.aerr && !v.getLsbD 4 }

/-- A write to IN_LEN (10_state R28): a value above MAX_INPUT is dropped. -/
def State.writeInLen (s : State) (v : Word) : State :=
  if v.toNat ≤ s.params.maxInput then { s with inLen := v } else s

/-- A write to a register while it is accepted (20_memory R65); the read-only ones ignore it (R69). -/
def State.writeReg (s : State) (r : Reg) (v : Word) : State :=
  match r with
  | .ctrl => { s with irqEn := v.getLsbD 0 }
  | .status => s.writeStatus v
  | .cmd => s.submitCommand v
  | .inLen => s.writeInLen v
  | .id => s
  | .err => s
  | .bitCount => s
  | .outLen => s
  | .nodeCount => s
  | .root => s
  | .paramMaxInput => s
  | .paramOutCap => s
  | .paramMaxCodeLen => s

/-- The effect of an accepted write to a mapped address (20_memory R65, R68, R69). -/
def State.writeMapped (s : State) (t : Target) (v : Word) : State :=
  match t with
  | .reg r => s.writeReg r v
  | .freq x => { s with freq := s.freq.set x v }
  | .len x => { s with len := s.len.set x (v.extractLsb' 0 8) }
  | .inBuf i => { s with inBuf := s.inBuf.write i (v.extractLsb' 0 8) }
  | .tree _ _ => s
  | .code _ _ => s
  | .outBuf _ => s

/-- `MemWrite(addr, 4, v)` (20_memory R64, R65, R67). -/
def State.memWrite (s : State) (addr v : Word) : State :=
  match decodeAddr s.params addr with
  | none => { s with aerr := true }
  | some t =>
    if s.busy && !t.writableWhileBusy then { s with ovr := true } else s.writeMapped t v

/-- A read as the port sees it: while `rst` is asserted it returns `ANY` (70 R240). -/
def State.busRead (s : State) (addr : Word) : Word × State :=
  if s.rst then s.drawAny else s.memRead addr

/-- A write as the port sees it: while `rst` is asserted it is dropped (70 R240). -/
def State.busWrite (s : State) (addr v : Word) : State :=
  if s.rst then s else s.memWrite addr v

end Sys2Proof.Machine
end

