-- ==== Sys2Proof/Machine/Operands.lean ====
section
/-! DEFINITION. The operands of the commands: no command word carries any (30_encoding R94), each command
reads fixed registers and tables (30_encoding R95). -/

namespace Sys2Proof.Machine

/-- IN[i … i + n − 1], or nothing if one of them is ⊥. -/
def Memory.readFrom (m : Memory) (i n : Nat) : Option (List Byte) :=
  match n with
  | 0 => some []
  | n + 1 =>
    match m.read i, Memory.readFrom m (i + 1) n with
    | some b, some rest => some (b :: rest)
    | _, _ => none

/-- The input sequence IN[0 … IN_LEN − 1]; none when an entry of it was never written (10_state R33). -/
def State.input (s : State) : Option (List Sym) :=
  s.inBuf.readFrom 0 s.inLen.toNat

/-- The symbols with a nonzero FREQ entry, ascending (42 R141). -/
def countedSyms (freq : Table (BitVec 32)) : List Sym :=
  freq.symsWith fun c => decide (c ≠ 0)

/-- The live part of the arena, NODE[0 … NODE_COUNT − 1] (10_state R35). -/
def State.liveNodes (s : State) : List Node :=
  s.node.take s.nodeCount.toNat

/-- The symbols with a nonzero LEN entry, ascending. -/
def lengthSyms (len : Table (BitVec 8)) : List Sym :=
  len.symsWith fun l => decide (l ≠ 0)

/-- The sort key order of 43 R171: by `(LEN[s], s)` ascending. -/
abbrev lengthLe (len : Table (BitVec 8)) (a b : Sym) : Prop :=
  len.get a < len.get b ∨ (len.get a = len.get b ∧ a ≤ b)

/-- `SortedSymbols(LEN)` (43 R171): every s with LEN[s] ≠ 0, sorted by `(LEN[s], s)`. -/
def sortedSymbols (len : Table (BitVec 8)) : List Sym :=
  (lengthSyms len).insertionSort (lengthLe len)

/-- The codeword of s: the CLEN[s]-bit string CODE[s][CLEN[s] − 1] … CODE[s][0], most significant bit first
(43 R174, 44 R191). -/
def codeword (clen : Table (BitVec 8)) (code : Table (BitVec 256)) (s : Sym) : List Bool :=
  (List.range (clen.get s).toNat).map fun j => (code.get s).getLsbD ((clen.get s).toNat - 1 - j)

end Sys2Proof.Machine
end

