-- ==== Sys2Proof/Machine/BitstreamPacker.lean ====
section
/-! DEFINITION. bitstream_packer: ENCODE (44 R190 – R195). -/

namespace Sys2Proof.Machine

/-- B (44 R191): the codewords of the input symbols, in input order. -/
def bitstream (clen : Table (BitVec 8)) (code : Table (BitVec 256)) (syms : List Sym) : List Bool :=
  syms.flatMap (codeword clen code)

/-- ⌈t / 8⌉ (44 R190). -/
def byteCount (t : Nat) : Nat :=
  (t + 7) / 8

/-- P (44 R193): B followed by zero bits up to a multiple of 8. -/
def padded (bits : List Bool) : List Bool :=
  bits ++ List.replicate (8 * byteCount bits.length - bits.length) false

/-- `Pack(P, b) = Σ_{j=0..7} P[8b + j] · 2^(7 − j)` (44 R192). -/
def packByte (bits : List Bool) (b : Nat) : Byte :=
  BitVec.ofNat 8 ((List.range 8).map fun j => if bits.getD (8 * b + j) false then 2 ^ (7 - j) else 0).sum

/-- OUT[0 … nbytes − 1] for the stream B. -/
def packedBytes (bits : List Bool) : List Byte :=
  (List.range (byteCount bits.length)).map (packByte (padded bits))

/-- The pseudocode of ENCODE (44 R190): the fault before any error, NO_CODE before OUT_OVERFLOW
(60_exceptions R214). OUT above the packed bytes keeps its contents. -/
def encodeStage (s : State) : StageResult :=
  match s.input with
  | none => .fault .unwrittenInput
  | some syms =>
    if syms.any fun x => decide (s.clen.get x = 0) then .error s .noCode 0x06
    else
      let bits := bitstream s.clen s.code syms
      if s.params.outCap < byteCount bits.length then .error s .outOverflow 0x06
      else
        .committed
          { s with
            outBuf := s.outBuf.writeFrom 0 (packedBytes bits)
            bitCount := BitVec.ofNat 32 bits.length
            outLen := BitVec.ofNat 32 (byteCount bits.length) }

/-- ENCODE as one ENGINE step (41 R120, 44 R190). -/
def execEncode (s : State) : Host.Outcome State Fault Refusal :=
  (encodeStage s).complete

end Sys2Proof.Machine
end

