-- ==== Sys2Proof/Machine/CodeAssigner.lean ====
section
/-! DEFINITION. canonical_code_assigner: ASSIGN (43 R170 – R174). -/

namespace Sys2Proof.Machine

/-- `code` and `cur` of 43 R172 after the shift for a symbol of length `l`. -/
def shiftedCode (code cur l : Nat) : Nat :=
  if cur < l then code <<< (l - cur) else code

/-- The loop of 43 R172 over the sorted symbols: the tables CL' and C', or nothing where the source's
"L-bit binary representation of code" does not exist (OVERSUBSCRIBED, 43 R173). -/
def assignLoop (len : Table (BitVec 8)) (syms : List Sym) (code cur : Nat)
    (clen : Table (BitVec 8)) (codes : Table (BitVec 256)) :
    Option (Table (BitVec 8) × Table (BitVec 256)) :=
  match syms with
  | [] => some (clen, codes)
  | s :: rest =>
    let l := (len.get s).toNat
    let c := shiftedCode code cur l
    if 2 ^ l ≤ c then none
    else
      assignLoop len rest (c + 1) (max cur l) (clen.set s (len.get s)) (codes.set s (BitVec.ofNat 256 c))

/-- `CanonicalAssign(LEN, S)` (43 R172): code starts at 0, cur at the first symbol's length. -/
def canonicalAssign (len : Table (BitVec 8)) (syms : List Sym) :
    Option (Table (BitVec 8) × Table (BitVec 256)) :=
  match syms with
  | [] => some (Table.fill 0, Table.fill 0)
  | s :: rest => assignLoop len (s :: rest) 0 (len.get s).toNat (Table.fill 0) (Table.fill 0)

/-- The pseudocode of ASSIGN (43 R170), its checks in the order of 60_exceptions R214. -/
def assignStage (s : State) : StageResult :=
  if sortedSymbols s.len = [] then .error s .emptyAlphabet 0x05
  else if (sortedSymbols s.len).any fun x => decide (s.params.maxCodeLen < (s.len.get x).toNat) then
    .error s .lenOverflow 0x05
  else
    match canonicalAssign s.len (sortedSymbols s.len) with
    | none => .error s .oversubscribed 0x05
    | some (clen, code) => .committed { s with clen := clen, code := code }

/-- ASSIGN as one ENGINE step (41 R120, 43 R170). -/
def execAssign (s : State) : Host.Outcome State Fault Refusal :=
  (assignStage s).complete

end Sys2Proof.Machine
end

