-- ==== Sys2Proof/Machine/TreeBuilder.lean ====
section
/-! DEFINITION. huffman_tree_builder: BUILD (42 R140, R141) and EXTRACT (42 R144 – R146). -/

namespace Sys2Proof.Machine

/-- The key order (00_scope R15): by NFREQ, then by MIN_SYM. -/
abbrev Node.keyLt (x y : Node) : Prop :=
  x.nfreq < y.nfreq ∨ (x.nfreq = y.nfreq ∧ x.minSym < y.minSym)

/-- An element of the min-priority collection Q: an arena index with the node it names. -/
abbrev QEntry := Nat × Node

/-- Remove the least-keyed element: it, and the rest. Nothing from an empty collection. -/
def popLeast (q : List QEntry) : Option (QEntry × List QEntry) :=
  match q with
  | [] => none
  | x :: rest =>
    match popLeast rest with
    | none => some (x, [])
    | some (m, others) =>
      if m.2.keyLt x.2 then some (m, x :: others) else some (x, rest)

/-- A Leaf (42 R141 step 1). -/
def Node.leafOf (freq : Table (BitVec 32)) (s : Sym) : Node where
  kind := .leaf
  minSym := s
  nfreq := (freq.get s).setWidth 40
  left := 0
  right := 0

/-- The Internal node over a (removed first, to the left) and b (42 R141 step 3). -/
def Node.join (a b : QEntry) : Node where
  kind := .internal
  minSym := if a.2.minSym ≤ b.2.minSym then a.2.minSym else b.2.minSym
  nfreq := a.2.nfreq + b.2.nfreq
  left := BitVec.ofNat 9 a.1
  right := BitVec.ofNat 9 b.1

/-- The loop of 42 R141 step 3, at most `turns` times: the arena so far and Q. -/
def buildLoop (turns : Nat) (nodes : List Node) (q : List QEntry) : List Node × List QEntry :=
  match turns with
  | 0 => (nodes, q)
  | turns + 1 =>
    match popLeast q with
    | none => (nodes, q)
    | some (a, q1) =>
      match popLeast q1 with
      | none => (nodes, q)
      | some (b, q2) =>
        buildLoop turns (nodes ++ [Node.join a b]) (q2 ++ [(nodes.length, Node.join a b)])

/-- The arena index of each node of a list that starts at index `i`. -/
def withIndex (i : Nat) (nodes : List Node) : List QEntry :=
  match nodes with
  | [] => []
  | n :: rest => (i, n) :: withIndex (i + 1) rest

/-- `BuildTree(FREQ)` (42 R141): the arena (leaves in ascending symbol order, then Internal nodes in order of
creation) and what is left in Q, which is the root. Each turn takes one element off Q. -/
def buildTree (freq : Table (BitVec 32)) : List Node × List QEntry :=
  let leaves := (countedSyms freq).map (Node.leafOf freq)
  buildLoop leaves.length leaves (withIndex 0 leaves)

/-- The arena BuildTree makes: `N'[0 … n − 1]`. -/
def treeNodes (freq : Table (BitVec 32)) : List Node :=
  (buildTree freq).1

/-- The root index BuildTree returns: the only element of Q. -/
def treeRoot (freq : Table (BitVec 32)) : Nat :=
  match (buildTree freq).2 with
  | [] => 0
  | r :: _ => r.1

/-- The pseudocode of BUILD (42 R140). Arena entries at or above n keep their contents. -/
def buildStage (s : State) : StageResult :=
  if countedSyms s.freq = [] then .error s .emptyAlphabet 0x03
  else
    .committed
      { s with
        node := treeNodes s.freq ++ s.node.drop (treeNodes s.freq).length
        nodeCount := BitVec.ofNat 10 (treeNodes s.freq).length
        root := BitVec.ofNat 9 (treeRoot s.freq) }

/-- BUILD as one ENGINE step (41 R120, 42 R140). -/
def execBuild (s : State) : Host.Outcome State Fault Refusal :=
  (buildStage s).complete

/-- `Walk(i, d)` (42 R145): the leaves below node i with their depths, left to right. Nothing when the walk
runs deeper than `fuel` or leaves the live arena: neither happens in a tree that BUILD made. -/
def walk (nodes : List Node) (fuel i d : Nat) : Option (List (Sym × Nat)) :=
  match fuel with
  | 0 => none
  | fuel + 1 =>
    match nodes[i]? with
    | none => none
    | some n =>
      match n.kind with
      | .leaf => some [(n.minSym, d)]
      | .internal =>
        match walk nodes fuel n.left.toNat (d + 1), walk nodes fuel n.right.toNat (d + 1) with
        | some l, some r => some (l ++ r)
        | _, _ => none

/-- The leaves of the tree with their code lengths: the single-leaf rule, or Walk from the root
(42 R145). -/
def leafDepths (nodes : List Node) (root : Nat) : Option (List (Sym × Nat)) :=
  match nodes[root]? with
  | none => none
  | some n =>
    match n.kind with
    | .leaf => some [(n.minSym, 1)]
    | .internal => walk nodes nodes.length root 0

/-- L' of 42 R145: 0, then one write for each leaf. -/
def depthTable (leaves : List (Sym × Nat)) : Table Nat :=
  leaves.foldl (fun t x => t.set x.1 x.2) (Table.fill 0)

/-- The pseudocode of EXTRACT (42 R144, R146). Depths are checked before they are narrowed to 8 bits. -/
def extractStage (s : State) : StageResult :=
  if s.nodeCount = 0 then .error s .noTree 0x04
  else
    match leafDepths s.liveNodes s.root.toNat with
    | none => .fault .malformedTree
    | some leaves =>
      if (depthTable leaves).toList.any fun d => decide (s.params.maxCodeLen < d) then
        .error s .lenOverflow 0x04
      else
        .committed
          { s with
            len := (depthTable leaves).mapEntries (BitVec.ofNat 8)
            nodeCount := 0
            root := 0 }

/-- EXTRACT as one ENGINE step (41 R120, 42 R144). -/
def execExtract (s : State) : Host.Outcome State Fault Refusal :=
  (extractStage s).complete

end Sys2Proof.Machine
end

