-- ==== Sys2Proof/Machine/TopLevel.lean ====
section
/-! DEFINITION. The top level of huffman_encoder: CLEAR (41 R121), COUNT (41 R122) and RUN (41 R123). -/

namespace Sys2Proof.Machine

/-- The pseudocode of CLEAR (41 R121): tables and result registers to their reset values. -/
def clearStage (s : State) : StageResult :=
  .committed
    { s with
      freq := Table.fill 0
      len := Table.fill 0
      clen := Table.fill 0
      code := Table.fill 0
      nodeCount := 0
      root := 0
      bitCount := 0
      outLen := 0 }

/-- CLEAR as one ENGINE step (41 R120, R121). -/
def execClear (s : State) : Host.Outcome State Fault Refusal :=
  (clearStage s).complete

/-- F' of 41 R122: every entry 0, then one increment for each input symbol. -/
def frequencies (syms : List Sym) : Table (BitVec 32) :=
  syms.foldl (fun t x => t.set x (t.get x + 1)) (Table.fill 0)

/-- The pseudocode of COUNT (41 R122). -/
def countStage (s : State) : StageResult :=
  if s.inLen = 0 then .error s .emptyAlphabet 0x02
  else
    match s.input with
    | none => .fault .unwrittenInput
    | some syms => .committed { s with freq := frequencies syms }

/-- COUNT as one ENGINE step (41 R120, R122). -/
def execCount (s : State) : Host.Outcome State Fault Refusal :=
  (countStage s).complete

/-- The pseudocode of RUN (41 R123): the five stages in order, each on what the earlier ones committed. -/
def runStage (s : State) : StageResult :=
  ((((countStage s).andThen buildStage).andThen extractStage).andThen assignStage).andThen encodeStage

/-- RUN as one ENGINE step (41 R120, R123). -/
def execRun (s : State) : Host.Outcome State Fault Refusal :=
  (runStage s).complete

end Sys2Proof.Machine
end

