-- ==== Sys2Proof/Machine/Dispatch.lean ====
section
/-! DEFINITION. One arm per command: what ENGINE does with it (41 R120). -/

namespace Sys2Proof.Machine

def exec (i : Instr) (s : State) : Host.Outcome State Fault Refusal :=
  match i with
  | .clear => Sys2Proof.Machine.execClear s
  | .count => Sys2Proof.Machine.execCount s
  | .build => Sys2Proof.Machine.execBuild s
  | .extract => Sys2Proof.Machine.execExtract s
  | .assign => Sys2Proof.Machine.execAssign s
  | .encode => Sys2Proof.Machine.execEncode s
  | .run => Sys2Proof.Machine.execRun s

end Sys2Proof.Machine
end

