-- ==== Sys2Proof/Machine/Schedule.lean ====
section
/-! DEFINITION. One step of the whole machine: whose turn it is, and what HOST, ENGINE and the reset input do
with it (00_scope R11, 20_memory R75, 41 R120, 60_exceptions R215, 70 R240, R241); and how a command is put
where the next step runs it. -/

namespace Sys2Proof.Machine

/-- A host read has returned `w`: record the response and go on with `ops`. -/
def State.respond (s : State) (w : Word) (ops : List HostOp) : State :=
  { s with responses := w :: s.responses, hostOps := ops }

/-- One access of a well-formed host operation `op`, the first of `op :: rest` (30_encoding R100). POLL is
one read for each step and stays until its condition holds. -/
def State.performOp (s : State) (op : HostOp) (rest : List HostOp) : State :=
  match op with
  | .read addr _ => (s.busRead addr).2.respond (s.busRead addr).1 rest
  | .write addr _ v => { s.busWrite addr v with hostOps := rest }
  | .poll addr mask value =>
    (s.busRead addr).2.respond (s.busRead addr).1
      (if (s.busRead addr).1 &&& mask = value then rest else op :: rest)

/-- HOST moves: its next access, refused by name if it is not a whole word (20_memory R63). With nothing to
issue it does nothing (log 14). -/
def hostTurn (s : State) : Host.Outcome State Fault Refusal :=
  match s.hostOps with
  | [] => .next s
  | op :: rest =>
    if op.wellFormed then .next (s.performOp op rest) else .refused .subWordAccess

/-- ENGINE is scheduled: it performs the pending command if it is enabled (41 R120), and else nothing
(log 14). -/
def engineTurn (s : State) : Host.Outcome State Fault Refusal :=
  if s.busy then exec s.pending s else .next s

/-- The environment asserts `rst`: every piece of state takes its reset value (70 R240, R241). -/
def State.assertRst (s : State) : State :=
  { s with rst := true }.resetBlock

/-- The environment releases `rst` (70 R240). -/
def State.releaseRst (s : State) : State :=
  { s with rst := false }

/-- One turn. When no interleaving is given any more, ENGINE goes first whenever it is enabled: weak
fairness (00_scope R11; log 3). -/
def State.takeTurn (s : State) : Host.Outcome State Fault Refusal :=
  match s.turns with
  | [] => if s.busy then engineTurn s else hostTurn s
  | .host :: later => hostTurn { s with turns := later }
  | .engine :: later => engineTurn { s with turns := later }
  | .assertRst :: later => .next { s with turns := later }.assertRst
  | .releaseRst :: later => .next { s with turns := later }.releaseRst

/-- One step: an asserted `rst` holds the block at its reset values before anything else (70 R241). -/
def State.scheduled (s : State) : Host.Outcome State Fault Refusal :=
  s.heldInReset.takeTurn

/-- A word written to CMD of the idle block, so that the very next step runs it (log 4): a legal word is
accepted (20_memory R70) and ENGINE is next; an illegal one is the host's next access. -/
def State.placeCommand (s : State) (v : Word) : State :=
  match decode v with
  | .ok i => { s.accept i with rst := false, turns := .engine :: s.turns }
  | .error _ =>
    { s with
      busy := false
      rst := false
      hostOps := HostOp.wr 0x018 v :: s.hostOps
      turns := .host :: s.turns }

end Sys2Proof.Machine
end

