-- ==== Sys2Proof/Machine/Step.lean ====
section
/-! DEFINITION. The step of the machine, and the placing of a command word where the step takes its next
instruction from. Both only call `Machine/Schedule.lean`. -/

namespace Sys2Proof.Machine

/-- One step of the machine (00_scope R11, 20_memory R75). -/
def step (s : State) : Host.Outcome State Fault Refusal :=
  s.scheduled

/-- `s` with the command word `w` placed so that the next step runs it. The block fetches no program
(10_state R20): an accepted CMD write takes the place of the fetch (log 4). -/
def State.withFetchWord (s : State) (_nbits w : Nat) : State :=
  s.placeCommand (BitVec.ofNat 32 w)

end Sys2Proof.Machine
end

