-- ==== Sys2Proof/Safety.lean ====
section
/-! DEFINITION. The terms claims use: the end of a run, the invariants of the machine, Kraft's sum, and the
decoder that is a test oracle only (00_scope R7; the block has none). -/

namespace Sys2Proof.Machine

/-- A host program's run is over (70 R249): the host has issued its last access and BUSY = 0. (No fault is
recorded: a run that faults has no state, log 2.) -/
abbrev State.final (s : State) : Prop :=
  s.hostOps = [] ∧ s.busy = false

/-- HOST is the agent that moves in this step, and `later` is the interleaving after it: its turn is next, or no
turn is given and ENGINE is not enabled, being idle or held in reset (00_scope R11; the model's, log 3). -/
def HostMoves (s : State) (later : List Turn) : Prop :=
  s.turns = .host :: later ∨ (s.turns = [] ∧ later = [] ∧ (s.busy = false ∨ s.rst = true))

/-- The values of 10_state R42, field by field. PENDING, NODE and OUT are unspecified there and not named. -/
structure ResetValues (s : State) : Prop where
  irqEn : s.irqEn = false
  busy : s.busy = false
  done : s.done = false
  ovr : s.ovr = false
  aerr : s.aerr = false
  errCode : s.errCode = 0
  errStage : s.errStage = 0
  inLen : s.inLen = 0
  input_unwritten : ∀ i, s.inBuf.read i = none
  freq : ∀ x, s.freq.get x = 0
  len : ∀ x, s.len.get x = 0
  clen : ∀ x, s.clen.get x = 0
  code : ∀ x, s.code.get x = 0
  nodeCount : s.nodeCount = 0
  root : s.root = 0
  bitCount : s.bitCount = 0
  outLen : s.outLen = 0
  irq : s.irq = false

/-- The registers and window entries that exist (20_memory R61). -/
def Target.inRange (p : Params) : Target → Prop
  | .reg _ => True
  | .freq _ => True
  | .len _ => True
  | .tree i w => i < 512 ∧ w < 4
  | .code _ w => w < 16
  | .inBuf i => i < p.maxInput
  | .outBuf b => b < p.outCap

/-- A read-only register or window (20_memory R69). -/
def Target.readOnly : Target → Bool
  | .reg r => decide (r ≠ .ctrl ∧ r ≠ .status ∧ r ≠ .cmd ∧ r ≠ .inLen)
  | .freq _ => false
  | .len _ => false
  | .tree _ _ => true
  | .code _ _ => true
  | .inBuf _ => false
  | .outBuf _ => true

/-- The busy protocol (20_memory R70, 10_state R26): while BUSY, DONE and ERR read 0. ERR.CODE is one of the
codes 0 … 7 (60_exceptions R211), and STAGE is 0 when CODE is. -/
structure ProtocolInv (s : State) : Prop where
  busy_quiet : s.busy = true → s.done = false ∧ s.errCode = 0
  code_listed : s.errCode.toNat ≤ 7
  stage_zero : s.errCode = 0 → s.errStage = 0

/-- IN_LEN is legal at all times (10_state R28). -/
structure InLenInv (s : State) : Prop where
  in_range : s.inLen.toNat ≤ s.params.maxInput

/-- IN and OUT keep their canonical form and their capacities (10_state R33, R39). -/
structure BufferInv (s : State) : Prop where
  in_wf : s.inBuf.wf
  in_within : s.inBuf.within s.params.maxInput
  out_wf : s.outBuf.wf
  out_within : s.outBuf.within s.params.outCap

/-- The code table (10_state R38, R43): code[s] < 2^clen[s] and clen[s] ≤ MAX_CODE_LEN. -/
structure CodeInv (s : State) : Prop where
  code_lt : ∀ x, (s.code.get x).toNat < 2 ^ (s.clen.get x).toNat
  clen_le : ∀ x, (s.clen.get x).toNat ≤ s.params.maxCodeLen

/-- The output registers (10_state R29, R30, R43): OUT_LEN = ⌈BITCOUNT / 8⌉ ≤ OUT_CAP, and every valid byte
of OUT has a value. -/
structure OutputInv (s : State) : Prop where
  legal : s.params.legal = true
  len_eq : s.outLen.toNat = byteCount s.bitCount.toNat
  len_le : s.outLen.toNat ≤ s.params.outCap
  written : ∀ b, b < s.outLen.toNat → ∃ v, s.outBuf.read b = some v

/-- One arena entry is as BUILD makes it (10_state R36 items 1 to 3, R35): a Leaf has no children; an Internal
node has two, at smaller indices, with the smaller MIN_SYM and the sum of their frequencies. -/
def NodeOk (nodes : List Node) (i : Nat) (n : Node) : Prop :=
  match n.kind with
  | .leaf => n.left = 0 ∧ n.right = 0
  | .internal =>
    n.left.toNat < i ∧ n.right.toNat < i ∧
    ∃ l r, nodes[n.left.toNat]? = some l ∧ nodes[n.right.toNat]? = some r ∧
      n.minSym = (if l.minSym ≤ r.minSym then l.minSym else r.minSym) ∧
      n.nfreq = l.nfreq + r.nfreq

/-- The tree (10_state R31, R32, R35: only BUILD writes the arena): while NODE_COUNT ≠ 0 the live nodes and ROOT
are those BuildTree made of some frequency table (FREQ may have changed since); ROOT is 0 without a tree. -/
structure TreeInv (s : State) : Prop where
  arena_le : s.node.length ≤ 511
  built : s.nodeCount ≠ 0 → ∃ freq, countedSyms freq ≠ [] ∧ s.liveNodes = treeNodes freq ∧
    s.nodeCount.toNat = (treeNodes freq).length ∧ s.root.toNat = treeRoot freq
  no_tree : s.nodeCount = 0 → s.root = 0

/-- All invariants of the machine together. -/
structure Inv (s : State) : Prop where
  protocol : ProtocolInv s
  inLen : InLenInv s
  buffer : BufferInv s
  code : CodeInv s
  output : OutputInv s
  tree : TreeInv s

/-- Node i stands d levels below the root (42 R145). -/
inductive AtDepth (nodes : List Node) (root : Nat) : Nat → Nat → Prop where
  | root : AtDepth nodes root root 0
  | left {p d : Nat} {n : Node} : AtDepth nodes root p d → nodes[p]? = some n → n.kind = .internal →
      AtDepth nodes root n.left.toNat (d + 1)
  | right {p d : Nat} {n : Node} : AtDepth nodes root p d → nodes[p]? = some n → n.kind = .internal →
      AtDepth nodes root n.right.toNat (d + 1)

/-- Node i is a child of the Internal node p (10_state R36). -/
def IsChild (nodes : List Node) (p i : Nat) : Prop :=
  ∃ n, nodes[p]? = some n ∧ n.kind = .internal ∧ (n.left.toNat = i ∨ n.right.toNat = i)

/-- Node i stands in Q when the node at index m is made: it exists and is no node's child yet (42 R141). -/
def Available (nodes : List Node) (m i : Nat) : Prop :=
  i < m ∧ ∀ p, p < m → ¬IsChild nodes p i

/-- The key of node i is below that of node j (00_scope R15). -/
def KeyBelow (nodes : List Node) (i j : Nat) : Prop :=
  ∃ x y, nodes[i]? = some x ∧ nodes[j]? = some y ∧ x.keyLt y

/-- The Internal node n at index m joins what step 3 of 42 R141 says: LEFT is the least-keyed element of Q,
RIGHT the least of the others. -/
structure MergesLeast (nodes : List Node) (m : Nat) (n : Node) : Prop where
  left_available : Available nodes m n.left.toNat
  right_available : Available nodes m n.right.toNat
  distinct : n.left.toNat ≠ n.right.toNat
  left_least : ∀ j, Available nodes m j → j ≠ n.left.toNat → KeyBelow nodes n.left.toNat j
  right_least : ∀ j, Available nodes m j → j ≠ n.left.toNat → j ≠ n.right.toNat →
    KeyBelow nodes n.right.toNat j

/-- The sum of Kraft's inequality, `Σ 2^(−LEN[s])` over the symbols with LEN[s] ≠ 0 (00_scope R16). -/
def kraftSum (len : Table (BitVec 8)) : ℚ :=
  ((lengthSyms len).map fun x => (1 / 2 : ℚ) ^ (len.get x).toNat).sum

/-- No codeword is a prefix of another symbol's (00_scope R16, 43 R177 (a)). -/
def PrefixFree (clen : Table (BitVec 8)) (code : Table (BitVec 256)) : Prop :=
  ∀ x y, x ≠ y → clen.get x ≠ 0 → clen.get y ≠ 0 → ¬codeword clen code x <+: codeword clen code y

/-- `t` is what COUNT, BUILD, EXTRACT and ASSIGN leave of `s` when each is accepted, performed, and ends without
an error, and `s1` is what COUNT alone leaves: the successful run in sequence of 00_scope R18. -/
def CodeSequence (s s1 t : State) : Prop :=
  ∃ s2 s3, (exec .count s = .next s1 ∧ s1.errCode = 0) ∧
    (exec .build (s1.accept .build) = .next s2 ∧ s2.errCode = 0) ∧
    (exec .extract (s2.accept .extract) = .next s3 ∧ s3.errCode = 0) ∧
    (exec .assign (s3.accept .assign) = .next t ∧ t.errCode = 0)

/-- The properties of 00_scope R18 that are about one frequency table and the code table made from it (43 R177).
Determinism and round-trip decodability are about two runs and about the stream. -/
structure CodecProperties (freq : Table (BitVec 32)) (clen : Table (BitVec 8)) (code : Table (BitVec 256)) :
    Prop where
  /-- Exactly the counted symbols have a code (42 R147 item 1). -/
  coded : ∀ x, clen.get x ≠ 0 ↔ freq.get x ≠ 0
  /-- Prefix-freedom. -/
  prefix_free : PrefixFree clen code
  /-- Kraft equality, for k ≥ 2 counted symbols. -/
  kraft : (∃ x y, x ≠ y ∧ freq.get x ≠ 0 ∧ freq.get y ≠ 0) → kraftSum clen = 1
  /-- The single-symbol case: length 1 and code "0". -/
  single : ∀ x, (∀ y, freq.get y ≠ 0 ↔ y = x) → clen.get x = 1 ∧ code.get x = 0
  /-- Canonical monotonicity, in the order `(length, symbol)`. -/
  monotone : ∀ x y, clen.get x ≠ 0 → clen.get y ≠ 0 →
    (clen.get x < clen.get y ∨ (clen.get x = clen.get y ∧ x < y)) → (code.get x).toNat < (code.get y).toNat

/-- Bit j of the stream a host reads from OUT: bit `7 − (j mod 8)` of OUT[⌊j/8⌋] (20_memory R73). -/
def streamBit (m : Memory) (j : Nat) : Option Bool :=
  (m.read (j / 8)).map fun b => b.getLsbD (7 - j % 8)

/-- The first n bits of the stream a host reads from OUT; none if a byte of them has no value. -/
def streamBits (m : Memory) (n : Nat) : Option (List Bool) :=
  (List.range n).mapM (streamBit m)

/-- The test oracle of 44 R196: repeatedly match a codeword that is a prefix of the rest. -/
def decodeStream (clen : Table (BitVec 8)) (code : Table (BitVec 256)) (fuel : Nat) (bits : List Bool) :
    Option (List Sym) :=
  match fuel with
  | 0 => if bits = [] then some [] else none
  | fuel + 1 =>
    if bits = [] then some []
    else
      match allSyms.find? fun x => decide (clen.get x ≠ 0) && (codeword clen code x).isPrefixOf bits with
      | none => none
      | some x =>
        (decodeStream clen code fuel (bits.drop (codeword clen code x).length)).map fun rest => x :: rest

end Sys2Proof.Machine
end

