-- ==== Sys2Proof/Certificates/Slice0/Obligations.lean ====
section
/-! DEFINITION. The statements for the provers. Each docstring names the rule of the spec it formalises; a
statement that rests on a choice of the model names the log entry. -/

open Sys2Proof Sys2Proof.Machine

/-! ### Command words -/

/-- 30_encoding R91: the opcode map, word by word. -/
def Obligations.CommandWordsDecode : Prop :=
  decode 0x00000001 = .ok .clear ∧ decode 0x00000002 = .ok .count ∧ decode 0x00000003 = .ok .build ∧
  decode 0x00000004 = .ok .extract ∧ decode 0x00000005 = .ok .assign ∧ decode 0x00000006 = .ok .encode ∧
  decode 0x00000007 = .ok .run

/-- 30_encoding R92: which words are legal commands, which command each is, and what PENDING records. -/
def Obligations.LegalCommandWordsExactly : Prop :=
  ∀ v : Word,
    ((∃ i, decode v = .ok i) ↔
      v.extractLsb' 8 24 = 0 ∧ 1 ≤ (v.extractLsb' 0 8).toNat ∧ (v.extractLsb' 0 8).toNat ≤ 7) ∧
    ∀ i, decode v = .ok i → i.opcode = v.extractLsb' 0 8 ∧
      ∀ s : State, (s.submitCommand v).pending.opcode.extractLsb' 0 3 = v.extractLsb' 0 3

/-- 30_encoding R90, R91: each command has one word and each legal word is one command. -/
def Obligations.EncodeInvertsDecode : Prop :=
  ∀ (v : Word) (i : Instr), decode v = .ok i ↔ v = encode i

/-! ### Steps -/

/-- 41 R120, 00_scope R11: an ENGINE turn is exactly the pending command on the state with the turn taken off
while BUSY = 1, and does nothing while BUSY = 0 (the model's, log 14); with no turn given ENGINE goes first (the
model's choice, log 3). -/
def Obligations.EngineStepRunsPendingCommand : Prop :=
  ∀ (s : State), s.rst = false →
    (∀ later, s.busy = true → s.turns = .engine :: later → step s = exec s.pending { s with turns := later }) ∧
    (∀ later, s.busy = false → s.turns = .engine :: later → step s = .next { s with turns := later }) ∧
    (s.busy = true → s.turns = [] → step s = exec s.pending s)

/-- 20_memory R70, 41 R120: a legal word written to CMD while idle is accepted, and the ENGINE turn after it
runs the decoded command; a word placed by `withFetchWord` (the model's, log 4) is run by the next step. -/
def Obligations.AcceptedWordRunsDecodedCommand : Prop :=
  ∀ (s : State) (v : Word) (i : Instr), decode v = .ok i →
    (∀ later rest, s.rst = false → s.busy = false → s.turns = .host :: .engine :: later →
      s.hostOps = .write 0x018 4 v :: rest →
      ∃ t, step s = .next t ∧
        t = { s with
              turns := .engine :: later, hostOps := rest, pending := i, errCode := 0, errStage := 0,
              done := false, busy := true } ∧
        step t = exec i { t with turns := later }) ∧
    (∀ nbits, step (s.withFetchWord nbits v.toNat) =
      exec i { s with
               rst := false, pending := i, errCode := 0, errStage := 0, done := false, busy := true })

/-- 20_memory R74, 30_encoding R100: when HOST moves, it performs its next operation as one whole access; with no
operation left it does nothing. (Who moves when no turn is given, the record of responses, the idle HOST and POLL as
one read for each step are the model's: log 3, 12, 14, 15.) -/
def Obligations.HostTurnPerformsOneAccess : Prop :=
  ∀ (s : State) (later : List Turn) (rest : List HostOp), s.rst = false → HostMoves s later →
    (∀ addr, s.hostOps = .read addr 4 :: rest →
      step s = .next { (State.memRead { s with turns := later } addr).2 with
        responses := (State.memRead { s with turns := later } addr).1 :: s.responses, hostOps := rest }) ∧
    (∀ addr v, s.hostOps = .write addr 4 v :: rest →
      step s = .next { State.memWrite { s with turns := later } addr v with hostOps := rest }) ∧
    (∀ addr mask value, s.hostOps = .poll addr mask value :: rest →
      step s = .next { (State.memRead { s with turns := later } addr).2 with
        responses := (State.memRead { s with turns := later } addr).1 :: s.responses
        hostOps := if (State.memRead { s with turns := later } addr).1 &&& mask = value then rest
          else s.hostOps }) ∧
    (s.hostOps = [] → step s = .next { s with turns := later })

/-- 60_exceptions R229: a host access of a width other than 4 bytes is refused by name, and a step is refused
for no other reason. (Who moves when no turn is given: log 3; that it is refused under `rst` as well: log 11.) -/
def Obligations.SubWordAccessIsTheOnlyRefusal : Prop :=
  (∀ (s : State) (later : List Turn) (op : HostOp) (rest : List HostOp), HostMoves s later →
    s.hostOps = op :: rest → op.width ≠ 4 → step s = .refused .subWordAccess) ∧
  (∀ (s : State) (r : Refusal), step s = .refused r → r = .subWordAccess)

/-- 60_exceptions R228, 10_state R33: COUNT, ENCODE and RUN fault when an entry below IN_LEN was never written;
a step faults for no other reason, and by no other step than ENGINE's of one of these. (`TreeInv` rules out arenas
that BUILD cannot have made: log 10.) -/
def Obligations.UnwrittenInputIsTheOnlyFault : Prop :=
  (∀ (s : State) (i : Nat), i < s.inLen.toNat → s.inBuf.read i = none →
    exec .count s = .fault .unwrittenInput ∧ exec .encode s = .fault .unwrittenInput ∧
    exec .run s = .fault .unwrittenInput) ∧
  (∀ (s : State) (f : Fault), TreeInv s → step s = .fault f →
    f = .unwrittenInput ∧ s.rst = false ∧ s.busy = true ∧
    (s.pending = .count ∨ s.pending = .encode ∨ s.pending = .run) ∧
    ∃ i, i < s.inLen.toNat ∧ s.inBuf.read i = none)

/-- 00_scope R8: the parameters are constants of the block (held in the state, log 1). -/
def Obligations.ParametersAreConstant : Prop :=
  ∀ s t : State, step s = .next t → t.params = s.params

/-! ### Reset -/

/-- 10_state R42: the state after reset, in the reference configuration (log 1). -/
def Obligations.ResetLeavesListedValues : Prop :=
  ResetValues State.reset ∧
  State.reset.memRead 0x000 = (0x48554601, State.reset) ∧
  State.reset.memRead 0x014 = (0, State.reset) ∧
  State.reset.memRead 0x01C = (0, State.reset) ∧
  State.reset.memRead 0x040 = (BitVec.ofNat 32 State.reset.params.maxInput, State.reset) ∧
  State.reset.memRead 0x044 = (BitVec.ofNat 32 State.reset.params.outCap, State.reset) ∧
  State.reset.memRead 0x048 = (BitVec.ofNat 32 State.reset.params.maxCodeLen, State.reset)

/-- 70 R240, R241: asserting `rst` leaves the block in its reset state, whatever it was doing: idle, with a command
pending (which is then never performed), or held in reset already. (That `rst` is a level raised by a turn, and that
the parameters, the host program, the responses and the count of free values are kept, is the model's: log 11, and
1, 3, 4, 5, 12 for those fields.) -/
def Obligations.ResetAbortsPendingCommand : Prop :=
  ∀ (s : State) (later : List Turn), s.turns = .assertRst :: later →
    ∃ t, step s = .next t ∧ ResetValues t ∧ t.rst = true ∧ t.params = s.params ∧ t.hostOps = s.hostOps ∧
      t.turns = later ∧ t.responses = s.responses ∧ t.draws = s.draws

/-- 70 R240: while `rst` is asserted, and when it is released, the block holds its reset values; a write is
dropped and a read returns a free value, for every value of it (the model's: log 5 for the free value, log 11 for
the access being used up, log 3 for who moves when no turn is given). -/
def Obligations.AssertedResetHoldsTheBlock : Prop :=
  ∀ s : State, s.rst = true →
    (∀ t, step s = .next t → ResetValues t) ∧
    (∀ later, s.turns = .releaseRst :: later → ∃ t, step s = .next t ∧ t.rst = false) ∧
    (∀ later addr v rest, HostMoves s later → s.hostOps = .write addr 4 v :: rest →
      ∃ t, step s = .next t ∧ t.rst = true ∧ t.hostOps = rest ∧ t.responses = s.responses) ∧
    (∀ later addr rest, HostMoves s later → s.hostOps = .read addr 4 :: rest →
      ∃ t, step s = .next t ∧ t.rst = true ∧ t.hostOps = rest ∧
        t.responses = Config.anyWord s.draws :: s.responses ∧ t.draws = s.draws + 1)

/-! ### Host accesses -/

/-- 20_memory R61: the address map, exactly: an address names an entry when it is that entry's address. -/
def Obligations.AddressMapIsExact : Prop :=
  ∀ (p : Params) (addr : Word) (t : Target), p.legal = true →
    (decodeAddr p addr = some t ↔ t.inRange p ∧ t.addr = addr.toNat)

/-- 20_memory R64: an access that names no entry (misaligned or unmapped) changes AERR and nothing else. -/
def Obligations.MisalignedOrUnmappedSetsAerr : Prop :=
  ∀ (s : State) (addr v : Word), s.params.legal = true →
    (addr.toNat % 4 ≠ 0 ∨ ∀ t : Target, t.inRange s.params → t.addr ≠ addr.toNat) →
    s.memRead addr = (0, { s with aerr := true }) ∧ s.memWrite addr v = { s with aerr := true }

/-- 20_memory R67: while BUSY every write to a mapped address but CTRL and STATUS is dropped and sets OVR. -/
def Obligations.BusyWritesAreDropped : Prop :=
  ∀ (s : State) (addr v : Word) (t : Target), s.params.legal = true → s.busy = true →
    t.inRange s.params → t.addr = addr.toNat → t ≠ .reg .ctrl → t ≠ .reg .status →
    s.memWrite addr v = { s with ovr := true }

/-- 20_memory R77: no host access changes the state a pending command reads, nor the pending command. -/
def Obligations.PendingCommandInputsAreStable : Prop :=
  ∀ (s : State) (addr v : Word) (u : State), s.busy = true →
    (u = s.memWrite addr v ∨ u = (s.memRead addr).2) →
    u.inLen = s.inLen ∧ u.inBuf = s.inBuf ∧ u.freq = s.freq ∧ u.len = s.len ∧ u.clen = s.clen ∧
    u.code = s.code ∧ u.node = s.node ∧ u.nodeCount = s.nodeCount ∧ u.root = s.root ∧
    u.params = s.params ∧ u.pending = s.pending ∧ u.busy = true

/-- 20_memory R65, 10_state R23, R24 and R28, the write clauses: CTRL and STATUS take writes at any time; IN_LEN,
while idle, takes a value up to MAX_INPUT and drops a larger one. -/
def Obligations.ControlPageWrites : Prop :=
  ∀ (s : State) (v : Word),
    (s.busy = false → v.toNat ≤ s.params.maxInput → s.memWrite 0x020 v = { s with inLen := v }) ∧
    (s.busy = false → s.params.maxInput < v.toNat → s.memWrite 0x020 v = s) ∧
    s.memWrite 0x010 v = { s with irqEn := v.getLsbD 0 } ∧
    s.memWrite 0x014 v = { s with
      done := if v.getLsbD 1 then false else s.done
      ovr := if v.getLsbD 3 then false else s.ovr
      aerr := if v.getLsbD 4 then false else s.aerr }

/-- 20_memory R68: host writes to FREQ, LEN and IN while idle: the entry takes its bits of the word, every other
entry and every other field keeps its value. -/
def Obligations.IdleTableWrites : Prop :=
  ∀ (s : State) (v : Word), s.params.legal = true → s.busy = false →
    (∀ x : Sym, ∃ f, s.memWrite (BitVec.ofNat 32 (0x400 + 4 * x.toNat)) v = { s with freq := f } ∧
      f.get x = v ∧ ∀ y, y ≠ x → f.get y = s.freq.get y) ∧
    (∀ x : Sym, ∃ l, s.memWrite (BitVec.ofNat 32 (0x800 + 4 * x.toNat)) v = { s with len := l } ∧
      l.get x = v.extractLsb' 0 8 ∧ ∀ y, y ≠ x → l.get y = s.len.get y) ∧
    (∀ i, i < s.params.maxInput →
      ∃ m, s.memWrite (BitVec.ofNat 32 (0x400000 + 4 * i)) v = { s with inBuf := m } ∧
        m.read i = some (v.extractLsb' 0 8) ∧ ∀ j, j ≠ i → m.read j = s.inBuf.read j)

/-- 20_memory R69: a write to a read-only register or window is ignored while idle, and sets OVR while BUSY. -/
def Obligations.ReadOnlyWritesAreIgnored : Prop :=
  ∀ (s : State) (addr v : Word) (t : Target), s.params.legal = true → t.inRange s.params →
    t.addr = addr.toNat → t.readOnly = true →
    (s.busy = false → s.memWrite addr v = s) ∧
    (s.busy = true → s.memWrite addr v = { s with ovr := true })

/-- 20_memory R70, 60_exceptions R216: a write of v to CMD while idle is accepted, and the ENGINE turn after it
performs the command, or is rejected with BAD_CMD; while BUSY it is dropped with OVR; a write to any other address
leaves ERR as it was. -/
def Obligations.SubmitCommandAcceptsOrRejects : Prop :=
  ∀ (s : State) (v : Word),
    (s.busy = true → s.memWrite 0x018 v = { s with ovr := true }) ∧
    (∀ addr, addr ≠ 0x018 →
      (s.memWrite addr v).errCode = s.errCode ∧ (s.memWrite addr v).errStage = s.errStage) ∧
    (s.busy = false → v.extractLsb' 8 24 ≠ 0 ∨ (v.extractLsb' 0 8).toNat = 0 ∨ 7 < (v.extractLsb' 0 8).toNat →
      s.memWrite 0x018 v = { s with errCode := 7, errStage := v.extractLsb' 0 8, done := true }) ∧
    (s.busy = false → v.extractLsb' 8 24 = 0 → 1 ≤ (v.extractLsb' 0 8).toNat → (v.extractLsb' 0 8).toNat ≤ 7 →
      ∃ i : Instr, i.opcode = v.extractLsb' 0 8 ∧
        s.memWrite 0x018 v =
          { s with pending := i, errCode := 0, errStage := 0, done := false, busy := true } ∧
        ∀ later, s.rst = false → s.turns = .engine :: later →
          step (s.memWrite 0x018 v) = exec i { s.memWrite 0x018 v with turns := later })

/-- 10_state R21, R22, R23, R25, R26 and the register lines of 20_memory R66: reads of the control page while
idle return the register and change nothing. -/
def Obligations.IdleRegisterReads : Prop :=
  ∀ s : State, s.busy = false →
    s.memRead 0x000 = (0x48554601, s) ∧
    s.memRead 0x010 = (if s.irqEn then 1 else 0, s) ∧
    s.memRead 0x018 = (0, s) ∧
    s.memRead 0x01C = ((s.errStage ++ s.errCode).setWidth 32, s) ∧
    s.memRead 0x020 = (s.inLen, s) ∧
    s.memRead 0x024 = (s.bitCount, s) ∧
    s.memRead 0x028 = (s.outLen, s) ∧
    s.memRead 0x02C = (s.nodeCount.setWidth 32, s) ∧
    s.memRead 0x030 = (s.root.setWidth 32, s) ∧
    s.memRead 0x040 = (BitVec.ofNat 32 s.params.maxInput, s) ∧
    s.memRead 0x044 = (BitVec.ofNat 32 s.params.outCap, s) ∧
    s.memRead 0x048 = (BitVec.ofNat 32 s.params.maxCodeLen, s)

/-- 10_state R24, the bits of STATUS, read while idle. -/
def Obligations.StatusBits : Prop :=
  ∀ s : State, s.busy = false →
    ∃ w, s.memRead 0x014 = (w, s) ∧
      w.getLsbD 0 = s.busy ∧ w.getLsbD 1 = s.done ∧ w.getLsbD 2 = decide (s.errCode ≠ 0) ∧
      w.getLsbD 3 = s.ovr ∧ w.getLsbD 4 = s.aerr ∧ w.getLsbD 5 = decide (s.nodeCount ≠ 0) ∧
      ∀ j, 6 ≤ j → w.getLsbD j = false

/-- 30_encoding R97: the TREE window, read while idle. Slots at or above NODE_COUNT read 0 (slot 511 always).
That MIN_SYM stands in bits 15:8 of word 0 is the model's choice (log 21): R97 says so, 20_memory R72 says bits
7:0. -/
def Obligations.TreeWindowReads : Prop :=
  ∀ (s : State) (i : Nat), s.params.legal = true → s.busy = false → i < 512 →
    (TreeInv s → ∀ w, w < 4 → s.memRead (BitVec.ofNat 32 (0x2000 + 16 * 511 + 4 * w)) = (0, s)) ∧
    (s.nodeCount.toNat ≤ i → ∀ w, w < 4 →
      s.memRead (BitVec.ofNat 32 (0x2000 + 16 * i + 4 * w)) = (0, s)) ∧
    (∀ n, i < s.nodeCount.toNat → s.node[i]? = some n →
      ∃ w0 w1 w2 w3,
        s.memRead (BitVec.ofNat 32 (0x2000 + 16 * i)) = (w0, s) ∧
        s.memRead (BitVec.ofNat 32 (0x2000 + 16 * i + 4)) = (w1, s) ∧
        s.memRead (BitVec.ofNat 32 (0x2000 + 16 * i + 8)) = (w2, s) ∧
        s.memRead (BitVec.ofNat 32 (0x2000 + 16 * i + 12)) = (w3, s) ∧
        w0.getLsbD 0 = decide (n.kind = .internal) ∧ w0.extractLsb' 8 8 = n.minSym ∧
        w0.extractLsb' 1 7 = 0 ∧ w0.extractLsb' 16 16 = 0 ∧
        w1 = n.nfreq.extractLsb' 0 32 ∧
        w2.extractLsb' 0 8 = n.nfreq.extractLsb' 32 8 ∧ w2.extractLsb' 8 24 = 0 ∧
        w3.extractLsb' 0 9 = n.left ∧ w3.extractLsb' 16 9 = n.right ∧
        w3.extractLsb' 9 7 = 0 ∧ w3.extractLsb' 25 7 = 0)

/-- 30_encoding R98: the CODE window, read while idle. -/
def Obligations.CodeWindowReads : Prop :=
  ∀ (s : State) (x : Sym), s.busy = false → CodeInv s →
    s.memRead (BitVec.ofNat 32 (0x4000 + 64 * x.toNat)) = ((s.clen.get x).setWidth 32, s) ∧
    (∀ w, 1 ≤ w → w ≤ 8 → s.memRead (BitVec.ofNat 32 (0x4000 + 64 * x.toNat + 4 * w)) =
      ((s.code.get x).extractLsb' (32 * (w - 1)) 32, s)) ∧
    (∀ w, 9 ≤ w → w ≤ 15 → s.memRead (BitVec.ofNat 32 (0x4000 + 64 * x.toNat + 4 * w)) = (0, s)) ∧
    (∀ j, s.params.maxCodeLen ≤ j ∨ (s.clen.get x).toNat ≤ j → (s.code.get x).getLsbD j = false)

/-- 30_encoding R99 and the window lines of 20_memory R66: FREQ, LEN, IN and OUT, read while idle. A read of an
IN entry never written is a free value. -/
def Obligations.DataWindowReads : Prop :=
  ∀ s : State, s.params.legal = true → s.busy = false →
    (∀ x : Sym, s.memRead (BitVec.ofNat 32 (0x400 + 4 * x.toNat)) = (s.freq.get x, s)) ∧
    (∀ x : Sym, s.memRead (BitVec.ofNat 32 (0x800 + 4 * x.toNat)) = ((s.len.get x).setWidth 32, s)) ∧
    (∀ i, i < s.params.maxInput →
      (∀ b, s.inBuf.read i = some b →
        s.memRead (BitVec.ofNat 32 (0x400000 + 4 * i)) = (b.setWidth 32, s)) ∧
      (s.inBuf.read i = none →
        s.memRead (BitVec.ofNat 32 (0x400000 + 4 * i)) =
          (Config.anyWord s.draws, { s with draws := s.draws + 1 }))) ∧
    (∀ b, b < s.params.outCap →
      (∀ v, b < s.outLen.toNat → s.outBuf.read b = some v →
        s.memRead (BitVec.ofNat 32 (0x800000 + 4 * b)) = (v.setWidth 32, s)) ∧
      (s.outLen.toNat ≤ b → s.memRead (BitVec.ofNat 32 (0x800000 + 4 * b)) = (0, s)))

/-- 20_memory R71: while BUSY, a read of the pending command's write set is a free value, for every value of it
(log 5), and so is one of an IN entry never written (20_memory R66); other addresses read as ever; STATUS is exact
but for TREE_VALID; ERR reads 0. No read changes anything but the count of free values drawn (log 5). -/
def Obligations.BusyReadsOfTheWriteSet : Prop :=
  ∀ (s : State) (addr : Word) (t : Target), s.params.legal = true → ProtocolInv s → s.busy = true →
    t.inRange s.params → t.addr = addr.toNat →
    (writeSetCovers s.pending t = true →
      s.memRead addr = (Config.anyWord s.draws, { s with draws := s.draws + 1 })) ∧
    (writeSetCovers s.pending t = false → t ≠ .reg .status →
      ∀ w, s.valueAt t = some w → s.memRead addr = (w, s)) ∧
    (∀ i, t = .inBuf i → s.inBuf.read i = none →
      s.memRead addr = (Config.anyWord s.draws, { s with draws := s.draws + 1 })) ∧
    (t = .reg .err → s.memRead addr = (0, s)) ∧
    (t = .reg .status →
      ∃ w, s.memRead addr = (w, if writeSetCovers s.pending (.reg .nodeCount)
          then { s with draws := s.draws + 1 } else s) ∧ w.getLsbD 0 = true ∧ w.getLsbD 1 = s.done ∧ w.getLsbD 2 = false ∧
        w.getLsbD 3 = s.ovr ∧ w.getLsbD 4 = s.aerr ∧ (∀ j, 6 ≤ j → w.getLsbD j = false) ∧
        w.getLsbD 5 = (if writeSetCovers s.pending (.reg .nodeCount) then Config.anyBit s.draws
          else decide (s.nodeCount ≠ 0)))

/-- 30_encoding R96: the write sets as addresses, RUN's being the union of the five stages'. -/
def Obligations.WriteSetTable : Prop :=
  (∀ t : Target, writeSetCovers .clear t = true ↔
    (∃ x, t = .freq x) ∨ (∃ x, t = .len x) ∨ (∃ x w, t = .code x w) ∨ (∃ i w, t = .tree i w) ∨
    (∃ b, t = .outBuf b) ∨ t = .reg .nodeCount ∨ t = .reg .root ∨ t = .reg .bitCount ∨ t = .reg .outLen) ∧
  (∀ t : Target, writeSetCovers .count t = true ↔ ∃ x, t = .freq x) ∧
  (∀ t : Target, writeSetCovers .build t = true ↔
    (∃ i w, t = .tree i w) ∨ t = .reg .nodeCount ∨ t = .reg .root) ∧
  (∀ t : Target, writeSetCovers .extract t = true ↔
    (∃ x, t = .len x) ∨ (∃ i w, t = .tree i w) ∨ t = .reg .nodeCount ∨ t = .reg .root) ∧
  (∀ t : Target, writeSetCovers .assign t = true ↔ ∃ x w, t = .code x w) ∧
  (∀ t : Target, writeSetCovers .encode t = true ↔
    (∃ b, t = .outBuf b) ∨ t = .reg .bitCount ∨ t = .reg .outLen) ∧
  (∀ t : Target, writeSetCovers .run t =
    (writeSetCovers .count t || writeSetCovers .build t || writeSetCovers .extract t ||
      writeSetCovers .assign t || writeSetCovers .encode t))

/-- 30_encoding R96 as a property of the commands: what a command's write set does not cover reads as before, but
for STATUS and ERR. -/
def Obligations.CommandsWriteOnlyTheirWriteSet : Prop :=
  ∀ (i : Instr) (s u : State) (t : Target), exec i s = .next u → writeSetCovers i t = false →
    t ≠ .reg .status → t ≠ .reg .err → u.valueAt t = s.valueAt t

/-! ### Interrupt and completion -/

/-- 10_state R41, 60_exceptions R219: the level `irq`, what sets and clears its pending bit DONE, and the line. -/
def Obligations.InterruptIsALevel : Prop :=
  ∀ s : State,
    s.irq = (s.irqEn && s.done) ∧
    (∀ i t, exec i s = .next t → t.done = true ∧ t.irq = s.irqEn) ∧
    (∀ v, s.busy = false → (∀ i, decode v ≠ .ok i) →
      (s.memWrite 0x018 v).done = true ∧ (s.memWrite 0x018 v).irq = s.irqEn) ∧
    (∀ v i, s.busy = false → decode v = .ok i →
      (s.memWrite 0x018 v).done = false ∧ (s.memWrite 0x018 v).irq = false) ∧
    (∀ v, v.getLsbD 1 = true → (s.memWrite 0x014 v).done = false ∧ (s.memWrite 0x014 v).irq = false) ∧
    (∀ v, (s.memWrite 0x010 v).done = s.done ∧ (s.memWrite 0x010 v).irq = (v.getLsbD 0 && s.done)) ∧
    (∀ line, s.irqLine line = true ↔ line = s.params.hufIrqLine ∧ s.irq = true)

/-- 41 R120, 10_state R28, R33, 41 R121: every command ends with BUSY = 0 and DONE = 1, and none changes IN,
IN_LEN, CTRL, OVR, AERR, PENDING, the parameters or the environment. -/
def Obligations.EveryCommandCompletesInItsFrame : Prop :=
  ∀ (i : Instr) (s t : State), exec i s = .next t →
    t.busy = false ∧ t.done = true ∧ t.params = s.params ∧ t.irqEn = s.irqEn ∧ t.ovr = s.ovr ∧
    t.aerr = s.aerr ∧ t.pending = s.pending ∧ t.inLen = s.inLen ∧ t.inBuf = s.inBuf ∧ t.rst = s.rst ∧
    t.hostOps = s.hostOps ∧ t.turns = s.turns ∧ t.responses = s.responses ∧ t.draws = s.draws

/-- 41 R120, 60_exceptions R228, R229: on a tree that BUILD made and an input that was written, every command
completes, with or without an error: only R228's fault stops one. -/
def Obligations.EveryCommandCompletes : Prop :=
  ∀ (i : Instr) (s : State), TreeInv s → (∀ j, j < s.inLen.toNat → ∃ b, s.inBuf.read j = some b) →
    ∃ t, exec i s = .next t ∧ t.busy = false ∧ t.done = true ∧ t.errCode.toNat ≤ 6

/-- 00_scope R14: a stage commits all its outputs or, on an error, none: a command of one stage that ends with an
error changes ERR, BUSY and DONE only, and names itself as the stage. -/
def Obligations.FailingStageCommitsNothing : Prop :=
  ∀ (i : Instr) (s t : State), i ≠ .run → exec i s = .next t → t.errCode ≠ 0 →
    t = { s with errCode := t.errCode, errStage := i.opcode, busy := false, done := true }

/-- 60_exceptions R213, the entries that exclude a code: which command can end with which error. -/
def Obligations.ErrorCodesByCommand : Prop :=
  ∀ s t : State, TreeInv s →
    (exec .clear s = .next t → t.errCode = 0) ∧
    (exec .count s = .next t → t.errCode = 0 ∨ t.errCode = 1) ∧
    (exec .build s = .next t → t.errCode = 0 ∨ t.errCode = 1) ∧
    (exec .extract s = .next t →
      t.errCode = 0 ∨ t.errCode = 2 ∨ t.errCode = 3 ∧ s.params.maxCodeLen < 255) ∧
    (exec .assign s = .next t →
      t.errCode = 0 ∨ t.errCode = 1 ∨ t.errCode = 3 ∧ s.params.maxCodeLen < 255 ∨ t.errCode = 4) ∧
    (exec .encode s = .next t → t.errCode = 0 ∨ t.errCode = 5 ∨ t.errCode = 6) ∧
    (exec .run s = .next t →
      t.errCode = 0 ∧ t.errStage = 0 ∨ t.errCode = 1 ∧ t.errStage = 0x02 ∨
      t.errCode = 3 ∧ t.errStage = 0x04 ∧ s.params.maxCodeLen < 255 ∨ t.errCode = 6 ∧ t.errStage = 0x06)

/-! ### CLEAR and COUNT -/

/-- 41 R121: CLEAR completes in every state, with this state. -/
def Obligations.ClearResetsTables : Prop :=
  decode 0x00000001 = .ok .clear ∧
  ∀ s : State, ∃ t, exec .clear s = .next t ∧
    (∀ x, t.freq.get x = 0 ∧ t.len.get x = 0 ∧ t.clen.get x = 0 ∧ t.code.get x = 0) ∧
    t = { s with
          freq := t.freq, len := t.len, clen := t.clen, code := t.code, nodeCount := 0, root := 0,
          bitCount := 0, outLen := 0, errCode := 0, errStage := 0, busy := false, done := true } ∧
    (∀ i w, t.valueAt (.tree i w) = some 0) ∧ (∀ b, t.valueAt (.outBuf b) = some 0) ∧
    exec .clear t = .next t

/-- 41 R122: COUNT completes on every written, nonempty input, with FREQ the counts and nothing else changed; with
IN_LEN = 0 it ends with EMPTY_ALPHABET, FREQ unchanged. -/
def Obligations.CountResult : Prop :=
  decode 0x00000002 = .ok .count ∧
  ∀ s : State,
    (∀ syms : List Sym, s.inLen ≠ 0 → syms.length = s.inLen.toNat →
      (∀ j, j < s.inLen.toNat → s.inBuf.read j = syms[j]?) →
      ∃ f, exec .count s = .next { s with
          freq := f, errCode := 0, errStage := 0, busy := false, done := true } ∧
        ∀ x, (f.get x).toNat = syms.count x) ∧
    (s.inLen = 0 →
      exec .count s = .next { s with errCode := 1, errStage := 0x02, busy := false, done := true }) ∧
    (∀ i, i < s.inLen.toNat → s.inBuf.read i = none → exec .count s = .fault .unwrittenInput)

/-! ### BUILD -/

/-- 42 R140, R141: BUILD, whose word is 0x00000003, completes whenever some FREQ entry is not 0, with the tree of the greedy procedure: the
leaves in ascending symbol order, then Internal nodes, each joining the least-keyed element of Q (to the left) and
the least of the others, sums exact; arena entries at or above n, and every other field, are kept. With every FREQ
entry 0 it ends with EMPTY_ALPHABET and changes no tree. -/
def Obligations.BuildIsTheGreedyProcedure : Prop :=
  decode 0x00000003 = .ok .build ∧
  ∀ s : State,
    ((∀ x, s.freq.get x = 0) →
      exec .build s = .next { s with errCode := 1, errStage := 0x03, busy := false, done := true }) ∧
    ((∃ x, s.freq.get x ≠ 0) →
    ∃ (nodes : List Node) (syms : List Sym), syms = (allSyms.filter fun x => decide (s.freq.get x ≠ 0)) ∧
      exec .build s = .next { s with
        node := nodes ++ s.node.drop nodes.length
        nodeCount := BitVec.ofNat 10 nodes.length
        root := BitVec.ofNat 9 (nodes.length - 1)
        errCode := 0, errStage := 0, busy := false, done := true } ∧
      nodes.length = 2 * syms.length - 1 ∧
      (∀ (j : Nat) (x : Sym), syms[j]? = some x → nodes[j]? = some
        ({ kind := .leaf, minSym := x, nfreq := (s.freq.get x).setWidth 40, left := 0, right := 0 } : Node)) ∧
      (∀ (m : Nat) (n : Node), syms.length ≤ m → nodes[m]? = some n →
        n.kind = .internal ∧ MergesLeast nodes m n ∧
        ∃ l r, nodes[n.left.toNat]? = some l ∧ nodes[n.right.toNat]? = some r ∧
          n.minSym = (if l.minSym ≤ r.minSym then l.minSym else r.minSym) ∧
          n.nfreq.toNat = l.nfreq.toNat + r.nfreq.toNat))

/-- 42 R142: n = 2k − 1 and the root is 2k − 2; every Internal node's children have smaller indices; every index
below n but the root's is the child of exactly one node. -/
def Obligations.BuildResultShape : Prop :=
  ∀ s t : State, (∃ x, s.freq.get x ≠ 0) → exec .build s = .next t →
    t.nodeCount.toNat = 2 * (allSyms.filter fun x => decide (s.freq.get x ≠ 0)).length - 1 ∧
    t.root.toNat = 2 * (allSyms.filter fun x => decide (s.freq.get x ≠ 0)).length - 2 ∧
    (∀ (m : Nat) (n : Node), m < t.nodeCount.toNat → t.node[m]? = some n → n.kind = .internal →
      n.left.toNat < m ∧ n.right.toNat < m) ∧
    (∀ i, i < t.nodeCount.toNat → i ≠ t.root.toNat →
      ∃ p, p < t.nodeCount.toNat ∧ IsChild t.node p i ∧
        ∀ p', p' < t.nodeCount.toNat → IsChild t.node p' i → p' = p) ∧
    (∀ p, p < t.nodeCount.toNat → ¬IsChild t.node p t.root.toNat)

/-- 42 R143: at every turn of the loop the nodes in Q have pairwise distinct MIN_SYM, so the key is a strict total
order on Q; so what BUILD gives is a function of the FREQ values alone. -/
def Obligations.TieBreakIsTotal : Prop :=
  (∀ (freq : Table (BitVec 32)) (turns : Nat) (leaves : List Node) (q : List QEntry),
    leaves = (allSyms.filter fun x => decide (freq.get x ≠ 0)).map (Node.leafOf freq) →
    q = (buildLoop turns leaves (withIndex 0 leaves)).2 →
    (q.Pairwise fun a b => a.2.minSym ≠ b.2.minSym) ∧
    (∀ a ∈ q, ∀ b ∈ q, a ≠ b → (a.2.keyLt b.2 ∧ ¬b.2.keyLt a.2) ∨ (b.2.keyLt a.2 ∧ ¬a.2.keyLt b.2))) ∧
  (∀ s s' t t' : State, s'.freq = s.freq → exec .build s = .next t → exec .build s' = .next t' →
    t'.errCode = t.errCode ∧
    (t.errCode = 0 → t'.nodeCount = t.nodeCount ∧ t'.root = t.root ∧ t'.liveNodes = t.liveNodes))

/-- 10_state R36: the four invariants of a tree built by BUILD, in every state whose tree BUILD built. -/
def Obligations.BuiltTreesAreStrictlyBinary : Prop :=
  ∀ (s : State), TreeInv s → s.nodeCount ≠ 0 →
    (∀ (i : Nat) (n : Node), s.liveNodes[i]? = some n → n.kind = .internal →
      n.left ≠ n.right ∧ n.left.toNat < i ∧ n.right.toNat < i ∧
      ∃ l r, s.liveNodes[n.left.toNat]? = some l ∧ s.liveNodes[n.right.toNat]? = some r ∧
        n.minSym = (if l.minSym ≤ r.minSym then l.minSym else r.minSym) ∧
        n.nfreq.toNat = l.nfreq.toNat + r.nfreq.toNat) ∧
    (∀ (i : Nat) (n : Node), s.liveNodes[i]? = some n → n.kind = .leaf → n.left = 0 ∧ n.right = 0 ∧ n.nfreq ≠ 0) ∧
    (∀ i, i < s.liveNodes.length → i ≠ s.root.toNat →
      ∃ p, IsChild s.liveNodes p i ∧ ∀ p', IsChild s.liveNodes p' i → p' = p)

/-! ### EXTRACT -/

/-- 42 R144, the errors: NO_TREE without a tree; LEN_OVERFLOW when some leaf is deeper than MAX_CODE_LEN. LEN and
the tree are kept. -/
def Obligations.ExtractErrors : Prop :=
  ∀ s : State, TreeInv s →
    (s.nodeCount = 0 →
      exec .extract s = .next { s with errCode := 2, errStage := 0x04, busy := false, done := true }) ∧
    (∀ (i : Nat) (n : Node) (d : Nat), s.nodeCount ≠ 0 → AtDepth s.liveNodes s.root.toNat i d → s.liveNodes[i]? = some n →
      n.kind = .leaf → s.params.maxCodeLen < max d 1 →
      exec .extract s = .next { s with errCode := 3, errStage := 0x04, busy := false, done := true })

/-- 42 R144, R145, R146: EXTRACT completes on every tree whose leaves are no deeper than MAX_CODE_LEN: each leaf's
length is its depth (1 for the single leaf), every other symbol's is 0, the tree is discarded, and nothing else
changes. -/
def Obligations.ExtractGivesDepths : Prop :=
  ∀ s : State, TreeInv s → s.nodeCount ≠ 0 → 1 ≤ s.params.maxCodeLen →
    (∀ (i : Nat) (n : Node) (d : Nat), AtDepth s.liveNodes s.root.toNat i d → s.liveNodes[i]? = some n → n.kind = .leaf →
      d ≤ s.params.maxCodeLen) →
    ∃ l, exec .extract s = .next { s with
        len := l, nodeCount := 0, root := 0, errCode := 0, errStage := 0, busy := false, done := true } ∧
      (∀ (i : Nat) (n : Node) (d : Nat), AtDepth s.liveNodes s.root.toNat i d → s.liveNodes[i]? = some n → n.kind = .leaf →
        (l.get n.minSym).toNat = if i = s.root.toNat then 1 else d) ∧
      (∀ x, (∀ (i : Nat) (n : Node), s.liveNodes[i]? = some n → n.kind = .leaf → n.minSym ≠ x) → l.get x = 0)

/-- 42 R147 items 1, 2, 3, 5 and the first half of 4: the laws of BUILD followed by EXTRACT. 00_scope R18, 43 R177:
the six properties of every successful run of COUNT, BUILD, EXTRACT and ASSIGN in sequence: prefix-freedom, Kraft
equality, the single-symbol case and canonical monotonicity (`CodecProperties`), determinism (equal frequencies give
the same code table), and round-trip decodability of what ENCODE then packs. -/
def Obligations.BuildThenExtractLaws : Prop :=
  (∀ (s t u : State) (k : Nat), k = (allSyms.filter fun x => decide (s.freq.get x ≠ 0)).length → 1 ≤ k →
    exec .build s = .next t → exec .extract t = .next u → u.errCode = 0 →
    (∀ x, u.len.get x ≠ 0 ↔ s.freq.get x ≠ 0) ∧
    (2 ≤ k → kraftSum u.len = 1 ∧ ∀ x, (u.len.get x).toNat ≤ k - 1) ∧
    (k = 1 → kraftSum u.len = 1 / 2 ∧ ∀ x, s.freq.get x ≠ 0 → u.len.get x = 1) ∧
    (∀ s' t' u', s'.freq = s.freq → exec .build s' = .next t' → exec .extract t' = .next u' →
      u'.errCode = 0 → u'.len = u.len)) ∧
  (∀ s s1 t : State, CodeSequence s s1 t →
    CodecProperties s1.freq t.clen t.code ∧
    (∀ s' s1' t', CodeSequence s' s1' t' → s1'.freq = s1.freq → t'.clen = t.clen ∧ t'.code = t.code) ∧
    (∀ (u : State) (syms : List Sym), s.params.legal = true → syms.length = s.inLen.toNat →
      (∀ j, j < s.inLen.toNat → s.inBuf.read j = syms[j]?) →
      exec .encode (t.accept .encode) = .next u → u.errCode = 0 →
      ∃ bits, streamBits u.outBuf u.bitCount.toNat = some bits ∧
        decodeStream u.clen u.code bits.length bits = some syms))

/-! ### ASSIGN -/

/-- 43 R170, R173, the errors in their order: EMPTY_ALPHABET; LEN_OVERFLOW, whatever the sum; OVERSUBSCRIBED, when
Kraft's sum exceeds 1 (with `AssignGivesCanonicalCodes`: exactly then). CLEN and CODE are kept. -/
def Obligations.AssignErrors : Prop :=
  ∀ s : State,
    ((∀ x, s.len.get x = 0) →
      exec .assign s = .next { s with errCode := 1, errStage := 0x05, busy := false, done := true }) ∧
    ((∃ x, s.params.maxCodeLen < (s.len.get x).toNat) →
      exec .assign s = .next { s with errCode := 3, errStage := 0x05, busy := false, done := true }) ∧
    ((∀ x, (s.len.get x).toNat ≤ s.params.maxCodeLen) → 1 < kraftSum s.len →
      exec .assign s = .next { s with errCode := 4, errStage := 0x05, busy := false, done := true })

/-- 43 R172: ASSIGN completes on every nonempty length table that fits and whose Kraft sum is at most 1: CLEN is
LEN, and the code of s is `2^L · Σ 2^(−L')` over the symbols before s in the order `(length, symbol)`; nothing
else changes. -/
def Obligations.AssignGivesCanonicalCodes : Prop :=
  ∀ s : State, (∃ x, s.len.get x ≠ 0) → (∀ x, (s.len.get x).toNat ≤ s.params.maxCodeLen) →
    kraftSum s.len ≤ 1 →
    ∃ cl co, exec .assign s = .next { s with
        clen := cl, code := co, errCode := 0, errStage := 0, busy := false, done := true } ∧
      (∀ x, cl.get x = s.len.get x) ∧ (∀ x, s.len.get x = 0 → co.get x = 0) ∧
      (∀ x, s.len.get x ≠ 0 → ((co.get x).toNat : ℚ) = 2 ^ (s.len.get x).toNat *
        ((allSyms.filter fun y => decide (s.len.get y ≠ 0 ∧
            (s.len.get y < s.len.get x ∨ (s.len.get y = s.len.get x ∧ y < x)))).map
          fun y => (1 / 2 : ℚ) ^ (s.len.get y).toNat).sum)

/-- 43 R177 (a): the codes of every accepted length table are prefix-free. -/
def Obligations.AssignedCodesArePrefixFree : Prop :=
  ∀ s t : State, exec .assign s = .next t → t.errCode = 0 → PrefixFree t.clen t.code

/-- 43 R177, (b) and canonical monotonicity: in the order `(length, symbol)` the codes strictly increase; two
neighbouring lengths' codes differ by the shift of R177. -/
def Obligations.CanonicalCodesIncrease : Prop :=
  ∀ (s t : State) (x y : Sym), exec .assign s = .next t → t.errCode = 0 →
    s.len.get x ≠ 0 → s.len.get y ≠ 0 →
    (s.len.get x < s.len.get y ∨ (s.len.get x = s.len.get y ∧ x < y)) →
    (t.code.get x).toNat < (t.code.get y).toNat ∧
    ((t.code.get x).toNat + 1) * 2 ^ ((s.len.get y).toNat - (s.len.get x).toNat) ≤ (t.code.get y).toNat

/-- 43 R175: on a LEN that a successful EXTRACT wrote, ASSIGN completes without an error, and gives every symbol
with a length a code of that length, which is at least 1. -/
def Obligations.AssignAfterExtractSucceeds : Prop :=
  ∀ s t v : State, TreeInv s → exec .extract s = .next t → t.errCode = 0 → v.len = t.len → v.params = t.params →
    ∃ u, exec .assign v = .next u ∧ u.errCode = 0 ∧
      ∀ x, v.len.get x ≠ 0 → u.clen.get x = v.len.get x ∧ 1 ≤ (u.clen.get x).toNat

/-! ### ENCODE -/

/-- 44 R190 to R194: ENCODE completes when the input is written, every symbol has a code and the bytes fit. B is
the concatenation of the codewords, most significant bit first; a host reads back from OUT the bits of B and then
zeros up to a whole byte; BITCOUNT and OUT_LEN are reported; OUT beyond, and every other field, is kept. -/
def Obligations.EncodePacksTheCodewords : Prop :=
  ∀ (s : State) (syms : List Sym) (bits : List Bool), s.params.legal = true →
    syms.length = s.inLen.toNat → (∀ j, j < s.inLen.toNat → s.inBuf.read j = syms[j]?) →
    (∀ x ∈ syms, s.clen.get x ≠ 0) →
    bits = (syms.flatMap fun x => (List.range (s.clen.get x).toNat).map fun j =>
      (s.code.get x).getLsbD ((s.clen.get x).toNat - 1 - j)) →
    (bits.length + 7) / 8 ≤ s.params.outCap →
    ∃ out bc ol, exec .encode s = .next { s with
        outBuf := out, bitCount := bc, outLen := ol, errCode := 0, errStage := 0, busy := false,
        done := true } ∧
      bc.toNat = bits.length ∧ ol.toNat = (bits.length + 7) / 8 ∧
      (∀ j, j < 8 * ((bits.length + 7) / 8) → streamBit out j = some (bits.getD j false)) ∧
      (∀ b, (bits.length + 7) / 8 ≤ b → out.read b = s.outBuf.read b)

/-- 44 R190, the errors in their order: NO_CODE, whatever the size; then OUT_OVERFLOW. OUT, BITCOUNT and OUT_LEN
are kept. R195: IN_LEN = 0 is no error, and gives the empty stream. -/
def Obligations.EncodeErrors : Prop :=
  (∀ s : State, s.inLen = 0 →
    exec .encode s = .next { s with
      bitCount := 0, outLen := 0, errCode := 0, errStage := 0, busy := false, done := true }) ∧
  ∀ (s : State) (syms : List Sym), syms.length = s.inLen.toNat →
    (∀ j, j < s.inLen.toNat → s.inBuf.read j = syms[j]?) →
    ((∃ x ∈ syms, s.clen.get x = 0) →
      exec .encode s = .next { s with errCode := 5, errStage := 0x06, busy := false, done := true }) ∧
    ((∀ x ∈ syms, s.clen.get x ≠ 0) →
      8 * s.params.outCap < (syms.map fun x => (s.clen.get x).toNat).sum →
      exec .encode s = .next { s with errCode := 6, errStage := 0x06, busy := false, done := true })

/-- 44 R196: round-trip decodability. A stream encoded with a table that ASSIGN accepted, read back from OUT up to
BITCOUNT, decodes to the input. The decoder is a test oracle. -/
def Obligations.EncodedStreamDecodes : Prop :=
  ∀ (s t u w : State) (syms : List Sym), exec .assign s = .next t → t.errCode = 0 →
    u.clen = t.clen → u.code = t.code → u.params.legal = true →
    syms.length = u.inLen.toNat → (∀ j, j < u.inLen.toNat → u.inBuf.read j = syms[j]?) →
    exec .encode u = .next w → w.errCode = 0 →
    ∃ bits, streamBits w.outBuf w.bitCount.toNat = some bits ∧
      decodeStream w.clen w.code bits.length bits = some syms

/-! ### RUN -/

/-- 41 R123, R125: RUN is the five commands in order, each accepted and completed; it ends with the first error, or
with the state the five leave (PENDING aside, which names the last accepted command). -/
def Obligations.RunIsTheFiveCommands : Prop :=
  ∀ s s1 s2 s3 s4 s5 : State, exec .count s = .next s1 →
    (s1.errCode ≠ 0 → exec .run s = .next s1) ∧
    (s1.errCode = 0 → exec .build (s1.accept .build) = .next s2 →
      (s2.errCode ≠ 0 → exec .run s = .next { s2 with pending := s.pending }) ∧
      (s2.errCode = 0 → exec .extract (s2.accept .extract) = .next s3 →
        (s3.errCode ≠ 0 → exec .run s = .next { s3 with pending := s.pending }) ∧
        (s3.errCode = 0 → exec .assign (s3.accept .assign) = .next s4 →
          (s4.errCode ≠ 0 → exec .run s = .next { s4 with pending := s.pending }) ∧
          (s4.errCode = 0 → exec .encode (s4.accept .encode) = .next s5 →
            exec .run s = .next { s5 with pending := s.pending }))))

/-- SRC-B and 43 R177 (single-symbol case): RUN completes on n ≥ 1 copies of one symbol: length 1, code "0",
BITCOUNT n, ⌈n/8⌉ zero bytes. -/
def Obligations.RunOnOneSymbol : Prop :=
  ∀ (s : State) (x : Sym), s.params.legal = true → s.inLen ≠ 0 →
    (∀ j, j < s.inLen.toNat → s.inBuf.read j = some x) → (s.inLen.toNat + 7) / 8 ≤ s.params.outCap →
    ∃ t, exec .run s = .next t ∧ t.errCode = 0 ∧ t.errStage = 0 ∧ t.nodeCount = 0 ∧ t.root = 0 ∧
      t.freq.get x = s.inLen ∧ t.len.get x = 1 ∧ t.clen.get x = 1 ∧ t.code.get x = 0 ∧
      (∀ y, y ≠ x → t.freq.get y = 0 ∧ t.len.get y = 0 ∧ t.clen.get y = 0 ∧ t.code.get y = 0) ∧
      t.bitCount = s.inLen ∧ t.outLen.toNat = (s.inLen.toNat + 7) / 8 ∧
      ∀ b, b < t.outLen.toNat → t.outBuf.read b = some 0

/-- 41 R123, 42 R145, R147, 43 R175, R177, 44 R196: on every written, nonempty input whose code lengths fit
MAX_CODE_LEN and whose stream fits OUT, RUN completes without error, counts the input, gives exactly the input's
symbols a prefix-free code, discards the tree, and leaves in OUT a stream that decodes to the input. `lens` is any
function that gives each leaf of the tree BUILD makes of the counts its depth (1 for the single leaf). The last
clause: with MAX_CODE_LEN = 255 an input that fits OUT at 255 bits a symbol has no error, whatever its tree. -/
def Obligations.RunEncodesEveryInput : Prop :=
  ∀ (s : State) (syms : List Sym), s.params.legal = true → s.inLen ≠ 0 →
    syms.length = s.inLen.toNat → (∀ j, j < s.inLen.toNat → s.inBuf.read j = syms[j]?) →
    (∀ (c b : State) (lens : Sym → Nat), (∀ x, (c.freq.get x).toNat = syms.count x) → exec .build c = .next b →
      (∀ (i : Nat) (n : Node) (d : Nat), AtDepth b.liveNodes b.root.toNat i d → b.liveNodes[i]? = some n →
        n.kind = .leaf → lens n.minSym = max d 1) →
      (∀ x ∈ syms, lens x ≤ s.params.maxCodeLen) → (syms.map lens).sum ≤ 8 * s.params.outCap →
      ∃ t bits, exec .run s = .next t ∧ t.errCode = 0 ∧ t.errStage = 0 ∧ t.busy = false ∧ t.done = true ∧
        (∀ x, (t.freq.get x).toNat = syms.count x) ∧ (∀ x, t.len.get x ≠ 0 ↔ x ∈ syms) ∧
        (∀ x ∈ syms, (t.len.get x).toNat = lens x) ∧
        t.clen = t.len ∧ PrefixFree t.clen t.code ∧ kraftSum t.len ≤ 1 ∧
        t.nodeCount = 0 ∧ t.root = 0 ∧
        streamBits t.outBuf t.bitCount.toNat = some bits ∧
        t.bitCount.toNat = (syms.map lens).sum ∧
        t.outLen.toNat = (t.bitCount.toNat + 7) / 8 ∧
        decodeStream t.clen t.code bits.length bits = some syms ∧
        (∀ b, t.outLen.toNat ≤ b → t.outBuf.read b = s.outBuf.read b) ∧ t.inBuf = s.inBuf ∧ t.inLen = s.inLen) ∧
    (s.params.maxCodeLen = 255 → 255 * s.inLen.toNat ≤ 8 * s.params.outCap →
      ∃ t bits, exec .run s = .next t ∧ t.errCode = 0 ∧ (∀ x, t.len.get x ≠ 0 ↔ x ∈ syms) ∧
        streamBits t.outBuf t.bitCount.toNat = some bits ∧
        decodeStream t.clen t.code bits.length bits = some syms)

/-! ### Invariants -/

/-- Every invariant holds after reset. -/
def Obligations.ResetMeetsEveryInvariant : Prop :=
  Inv State.reset

/-- 20_memory R70, R71, 10_state R26: every step keeps the busy protocol. -/
def Obligations.StepKeepsTheBusyProtocol : Prop :=
  ∀ s t : State, ProtocolInv s → step s = .next t → ProtocolInv t

/-- 10_state R28: every step keeps IN_LEN legal. -/
def Obligations.StepKeepsInLenLegal : Prop :=
  ∀ s t : State, InLenInv s → step s = .next t → InLenInv t

/-- Every step keeps the form and the capacity of IN and OUT. The capacities are 10_state R33 and R39; the canonical
form (index lists, strictly rising) is the model's (log 20). -/
def Obligations.StepKeepsBuffersCanonical : Prop :=
  ∀ s t : State, BufferInv s → step s = .next t → BufferInv t

/-- 10_state R38, R43: every step keeps codes within their lengths and lengths within MAX_CODE_LEN. 43 R177 (a):
every step keeps the code table prefix-free. -/
def Obligations.StepKeepsCodesInTheirLengths : Prop :=
  (∀ s t : State, CodeInv s → step s = .next t → CodeInv t) ∧
  (∀ s t : State, PrefixFree s.clen s.code → step s = .next t → PrefixFree t.clen t.code)

/-- 10_state R30, R43: every step keeps OUT_LEN = ⌈BITCOUNT / 8⌉ ≤ OUT_CAP with every valid byte written. -/
def Obligations.StepKeepsTheOutputConsistent : Prop :=
  ∀ s t : State, OutputInv s → step s = .next t → OutputInv t

/-- 10_state R31, R32, R35: every step keeps the live tree one that BUILD built. -/
def Obligations.StepKeepsTheTreeBuilt : Prop :=
  ∀ s t : State, TreeInv s → step s = .next t → TreeInv t
end

