-- ==== Sys2Proof/Laws/Table.lean ====
section
/-! SUPPORT. Laws of the symbol-indexed tables: read after write, extensionality, the list of all symbols. -/

namespace Sys2Proof.Machine

variable {α : Type}

@[simp] theorem Table.get_set (t : Table α) (s x : Sym) (v : α) :
    (t.set s v).get x = if s = x then v else t.get x := by
  unfold Table.get Table.set
  rw [Vector.getElem_set]
  by_cases h : s = x
  · simp [h]
  · have : s.toNat ≠ x.toNat := fun e => h (BitVec.eq_of_toNat_eq e)
    simp [h, this]

@[simp] theorem Table.get_fill (v : α) (s : Sym) : (Table.fill v).get s = v := by
  simp [Table.get, Table.fill]

@[simp] theorem Table.get_mapEntries {β : Type} (f : α → β) (t : Table α) (s : Sym) :
    (Table.mapEntries f t).get s = f (t.get s) := by
  simp [Table.get, Table.mapEntries]

theorem Table.ext_get {t u : Table α} (h : ∀ s, t.get s = u.get s) : t = u := by
  apply Vector.ext
  intro i hi
  have := h (BitVec.ofFin ⟨i, hi⟩)
  simpa [Table.get] using this

@[simp] theorem mem_allSyms (s : Sym) : s ∈ allSyms := by
  simp only [allSyms, List.mem_map, List.mem_range]
  exact ⟨s.toNat, s.isLt, by simp⟩

theorem allSyms_sorted : allSyms.Pairwise (· < ·) := by
  unfold allSyms
  rw [List.pairwise_map]
  refine List.Pairwise.imp_of_mem ?_ (List.pairwise_lt_range (n := 256))
  intro a b ha hb hab
  simp only [List.mem_range] at ha hb
  simp only [BitVec.lt_def, BitVec.toNat_ofNat]
  omega

theorem nodup_allSyms : allSyms.Nodup :=
  allSyms_sorted.imp fun h e => by subst e; exact absurd h (by simp)

@[simp] theorem length_allSyms : allSyms.length = 256 := by
  simp [allSyms]

theorem allSyms_zip (t : Table α) : allSyms.zip t.toList = allSyms.map fun s => (s, t.get s) := by
  refine List.ext_getElem (by simp) fun i h1 h2 => ?_
  have hi : i < 256 := by simpa using h2
  simp [allSyms, Table.get, Nat.mod_eq_of_lt hi]

theorem Table.symsWith_eq (p : α → Bool) (t : Table α) : t.symsWith p = allSyms.filter fun s => p (t.get s) := by
  rw [Table.symsWith, allSyms_zip, List.filter_map, List.map_map]
  exact List.map_id _

theorem Table.any_toList (p : α → Bool) (t : Table α) : t.toList.any p = true ↔ ∃ s, p (t.get s) = true := by
  have : t.toList = allSyms.map t.get := by
    refine List.ext_getElem (by simp) fun i h1 h2 => ?_
    have hi : i < 256 := by simpa using h2
    simp [allSyms, Table.get, Nat.mod_eq_of_lt hi]
  rw [this, List.any_map, List.any_eq_true]
  simp

end Sys2Proof.Machine
end

