-- ==== Sys2Proof/Laws/Tree.lean ====
section
/-! SUPPORT. Laws of BuildTree and Walk at the level of their functions: the loop invariant of 42 R141, the
tree an arena index stands for, and what Walk answers on it. -/

namespace Sys2Proof.Machine

/-! ### The least element of Q -/

theorem popLeast_eq_none {q : List QEntry} : popLeast q = none ↔ q = [] := by
  cases q with
  | nil => simp [popLeast]
  | cons x rest =>
    simp only [popLeast, reduceCtorEq, iff_false]
    split
    · simp
    · split <;> simp

theorem popLeast_perm {q : List QEntry} {m : QEntry} {rest : List QEntry}
    (h : popLeast q = some (m, rest)) : q.Perm (m :: rest) := by
  induction q generalizing m rest with
  | nil => simp [popLeast] at h
  | cons x q ih =>
    simp only [popLeast] at h
    split at h
    · rename_i hn
      rw [popLeast_eq_none] at hn
      simp only [Option.some.injEq, Prod.mk.injEq] at h
      obtain ⟨rfl, rfl⟩ := h
      simp [hn]
    · rename_i m' others hs
      split at h
      · simp only [Option.some.injEq, Prod.mk.injEq] at h
        obtain ⟨rfl, rfl⟩ := h
        exact ((ih hs).cons x).trans (List.Perm.swap _ _ _)
      · simp only [Option.some.injEq, Prod.mk.injEq] at h
        obtain ⟨rfl, rfl⟩ := h
        exact List.Perm.refl _

theorem Node.keyLt_trans {x y z : Node} (h1 : x.keyLt y) (h2 : y.keyLt z) : x.keyLt z := by
  unfold Node.keyLt at *
  simp only [BitVec.lt_def, ← BitVec.toNat_inj] at *
  omega

theorem Node.keyLt_total {x y : Node} (h : ¬x.keyLt y) (hm : x.minSym ≠ y.minSym) : y.keyLt x := by
  unfold Node.keyLt at *
  simp only [BitVec.lt_def, ← BitVec.toNat_inj, ne_eq] at *
  omega

/-- Nothing left behind is below the element removed. -/
theorem popLeast_least {q : List QEntry} {m : QEntry} {rest : List QEntry}
    (h : popLeast q = some (m, rest)) : ∀ x ∈ rest, ¬x.2.keyLt m.2 := by
  induction q generalizing m rest with
  | nil => simp [popLeast] at h
  | cons x q ih =>
    simp only [popLeast] at h
    split at h
    · simp only [Option.some.injEq, Prod.mk.injEq] at h
      obtain ⟨rfl, rfl⟩ := h
      simp
    · rename_i m' others hs
      split at h
      · rename_i hlt
        simp only [Option.some.injEq, Prod.mk.injEq] at h
        obtain ⟨rfl, rfl⟩ := h
        intro y hy
        rcases List.mem_cons.1 hy with rfl | hy
        · intro hyx
          have := Node.keyLt_trans hlt hyx
          unfold Node.keyLt at this
          simp at this
        · exact ih hs y hy
      · rename_i hlt
        simp only [Option.some.injEq, Prod.mk.injEq] at h
        obtain ⟨rfl, rfl⟩ := h
        intro y hy hyx
        rcases List.mem_cons.1 ((popLeast_perm hs).mem_iff.1 hy) with rfl | hy'
        · exact hlt hyx
        · have hym := ih hs y hy'
          apply hym
          unfold Node.keyLt at *
          simp only [BitVec.lt_def, ← BitVec.toNat_inj] at *
          omega

/-! ### The tree an arena index stands for -/

/-- A binary tree over symbols, without indices. -/
inductive HTree where
  | leaf (s : Sym)
  | node (l r : HTree)

/-- The leaves, left to right. -/
def HTree.leaves : HTree → List Sym
  | .leaf s => [s]
  | .node l r => l.leaves ++ r.leaves

/-- The leaves with their depths, the root being at depth `d`. -/
def HTree.depths : HTree → Nat → List (Sym × Nat)
  | .leaf s, d => [(s, d)]
  | .node l r, d => l.depths (d + 1) ++ r.depths (d + 1)

/-- Arena index `i` stands for a tree. -/
inductive Rep (nodes : List Node) : Nat → HTree → Prop where
  | leaf {i : Nat} {n : Node} (at_i : nodes[i]? = some n) (kind : n.kind = .leaf) :
      Rep nodes i (.leaf n.minSym)
  | node {i : Nat} {n : Node} {l r : HTree} (at_i : nodes[i]? = some n) (kind : n.kind = .internal)
      (left_lt : n.left.toNat < i) (right_lt : n.right.toNat < i)
      (left : Rep nodes n.left.toNat l) (right : Rep nodes n.right.toNat r) : Rep nodes i (.node l r)

theorem getElem?_append_of_some {α : Type} {l m : List α} {i : Nat} {x : α} (h : l[i]? = some x) :
    (l ++ m)[i]? = some x := by
  rw [List.getElem?_append_left]
  · exact h
  · exact (List.getElem?_eq_some_iff.1 h).1

theorem Rep.append {nodes : List Node} {i : Nat} {t : HTree} (h : Rep nodes i t) (more : List Node) :
    Rep (nodes ++ more) i t := by
  induction h with
  | leaf at_i kind => exact .leaf (getElem?_append_of_some at_i) kind
  | node at_i kind hl hr _ _ ihl ihr => exact .node (getElem?_append_of_some at_i) kind hl hr ihl ihr

/-- Walk answers the depths of the tree its index stands for. -/
theorem walk_eq_depths {nodes : List Node} {i : Nat} {t : HTree} (h : Rep nodes i t) :
    ∀ {fuel : Nat} (d : Nat), i < fuel → walk nodes fuel i d = some (t.depths d) := by
  induction h with
  | leaf at_i kind =>
    intro fuel d hf
    obtain ⟨f, rfl⟩ : ∃ f, fuel = f + 1 := ⟨fuel - 1, by omega⟩
    simp [walk, at_i, kind, HTree.depths]
  | node at_i kind hl hr _ _ ihl ihr =>
    intro fuel d hf
    obtain ⟨f, rfl⟩ : ∃ f, fuel = f + 1 := ⟨fuel - 1, by omega⟩
    simp [walk, at_i, kind, HTree.depths, ihl (fuel := f) (d + 1) (by omega),
      ihr (fuel := f) (d + 1) (by omega)]

/-- Every index of an arena whose entries are as BUILD makes them stands for a tree. -/
theorem rep_of_nodeOk {nodes : List Node} {m : Nat}
    (h : ∀ i n, i < m → nodes[i]? = some n → NodeOk nodes i n) :
    ∀ i n, i < m → nodes[i]? = some n → ∃ t, Rep nodes i t := by
  intro i
  induction i using Nat.strong_induction_on with
  | _ i ih =>
    intro n hi hn
    cases hk : n.kind with
    | leaf => exact ⟨_, .leaf hn hk⟩
    | internal =>
      have hok := h i n hi hn
      simp only [NodeOk, hk] at hok
      obtain ⟨hl, hr, l, r, hln, hrn, -, -⟩ := hok
      obtain ⟨tl, htl⟩ := ih _ hl l (by omega) hln
      obtain ⟨tr, htr⟩ := ih _ hr r (by omega) hrn
      exact ⟨_, .node hn hk hl hr htl htr⟩

@[simp] theorem HTree.depths_map_fst (t : HTree) (d : Nat) : (t.depths d).map Prod.fst = t.leaves := by
  induction t generalizing d with
  | leaf s => rfl
  | node l r ihl ihr => simp [HTree.depths, HTree.leaves, ihl, ihr]

theorem HTree.leaves_length_pos (t : HTree) : 0 < t.leaves.length := by
  induction t with
  | leaf s => simp [HTree.leaves]
  | node l r ihl ihr => simp [HTree.leaves]; omega

/-- A leaf is at least as deep as the root. -/
theorem HTree.le_depth {t : HTree} {d : Nat} {x : Sym × Nat} (h : x ∈ t.depths d) : d ≤ x.2 := by
  induction t generalizing d with
  | leaf s => simp [HTree.depths] at h; simp [h]
  | node l r ihl ihr =>
    simp only [HTree.depths, List.mem_append] at h
    rcases h with h | h
    · have := ihl h; omega
    · have := ihr h; omega

/-- No leaf is deeper than the number of leaves less one. -/
theorem HTree.depth_le {t : HTree} {d : Nat} {x : Sym × Nat} (h : x ∈ t.depths d) :
    x.2 + 1 ≤ d + t.leaves.length := by
  induction t generalizing d with
  | leaf s => simp [HTree.depths] at h; simp [h, HTree.leaves]
  | node l r ihl ihr =>
    have hl := l.leaves_length_pos
    have hr := r.leaves_length_pos
    simp only [HTree.depths, List.mem_append] at h
    simp only [HTree.leaves, List.length_append]
    rcases h with h | h
    · have := ihl h; omega
    · have := ihr h; omega

/-- Kraft equality of a full binary tree (42 R147 item 2). -/
theorem HTree.kraft (t : HTree) (d : Nat) :
    ((t.depths d).map fun x => (1 / 2 : ℚ) ^ x.2).sum = (1 / 2) ^ d := by
  induction t generalizing d with
  | leaf s => simp [HTree.depths]
  | node l r ihl ihr =>
    simp only [HTree.depths, List.map_append, List.sum_append, ihl, ihr]
    ring

/-! ### The table of depths -/

theorem foldl_set_get (leaves : List (Sym × Nat)) (t : Table Nat) (x : Sym)
    (hx : x ∉ leaves.map Prod.fst) :
    (leaves.foldl (fun t y => t.set y.1 y.2) t).get x = t.get x := by
  induction leaves generalizing t with
  | nil => rfl
  | cons y rest ih =>
    simp only [List.map_cons, List.mem_cons, not_or] at hx
    rw [List.foldl_cons, ih _ hx.2, Table.get_set, if_neg fun e => hx.1 e.symm]

/-- A symbol that is no leaf has depth entry 0. -/
theorem depthTable_of_not_mem {leaves : List (Sym × Nat)} {x : Sym} (hx : x ∉ leaves.map Prod.fst) :
    (depthTable leaves).get x = 0 := by
  rw [depthTable, foldl_set_get _ _ _ hx, Table.get_fill]

theorem foldl_set_get_mem (leaves : List (Sym × Nat)) (t : Table Nat) (hn : (leaves.map Prod.fst).Nodup)
    {x : Sym} {d : Nat} (hx : (x, d) ∈ leaves) :
    (leaves.foldl (fun t y => t.set y.1 y.2) t).get x = d := by
  induction leaves generalizing t with
  | nil => simp at hx
  | cons y rest ih =>
    simp only [List.map_cons, List.nodup_cons] at hn
    rw [List.foldl_cons]
    rcases List.mem_cons.1 hx with rfl | hx
    · rw [foldl_set_get _ _ _ hn.1, Table.get_set, if_pos rfl]
    · exact ih _ hn.2 hx

/-- A leaf's entry is its depth. -/
theorem depthTable_of_mem {leaves : List (Sym × Nat)} (hn : (leaves.map Prod.fst).Nodup) {x : Sym} {d : Nat}
    (hx : (x, d) ∈ leaves) : (depthTable leaves).get x = d :=
  foldl_set_get_mem leaves _ hn hx

end Sys2Proof.Machine
end

