-- ==== Sys2Proof/Laws/BuildTree.lean ====
section
/-! SUPPORT. The loop invariant of BuildTree (42 R141 step 3) and what it says of the tree made. -/

namespace Sys2Proof.Machine

/-- What holds at every turn of the loop: `syms` are the counted symbols, `total` the sum of their counts. -/
structure LoopInv (syms : List Sym) (total : Nat) (nodes : List Node) (q : List QEntry) : Prop where
  index_nodup : (q.map Prod.fst).Nodup
  at_index : ∀ e ∈ q, nodes[e.1]? = some e.2
  /-- 42 R143: the nodes of Q have pairwise distinct MIN_SYM. -/
  mins_nodup : (q.map fun e => e.2.minSym).Nodup
  ok : ∀ i n, nodes[i]? = some n → NodeOk nodes i n
  count : nodes.length + q.length = 2 * syms.length
  sum : (q.map fun e => e.2.nfreq.toNat).sum = total
  /-- The sums of step 3 are exact in 40 bits (00_scope R10). -/
  exact_sum : ∀ (i : Nat) (n l r : Node), nodes[i]? = some n → n.kind = .internal →
    nodes[n.left.toNat]? = some l → nodes[n.right.toNat]? = some r →
    n.nfreq.toNat = l.nfreq.toNat + r.nfreq.toNat
  available : ∀ i, i ∈ q.map Prod.fst ↔ Available nodes nodes.length i
  one_parent : ∀ i p p', IsChild nodes p i → IsChild nodes p' i → p = p'
  merges : ∀ m n, nodes[m]? = some n → n.kind = .internal → MergesLeast nodes m n
  trees : ∃ T : Nat → HTree, (∀ e ∈ q, Rep nodes e.1 (T e.1)) ∧
    (q.flatMap fun e => (T e.1).leaves).Perm syms

theorem isChild_lt {nodes : List Node} {p i : Nat} (ok : ∀ i n, nodes[i]? = some n → NodeOk nodes i n)
    (h : IsChild nodes p i) : i < p := by
  obtain ⟨n, hn, hk, hc⟩ := h
  have := ok p n hn
  simp only [NodeOk, hk] at this
  rcases hc with rfl | rfl
  · exact this.1
  · exact this.2.1

theorem isChild_length {nodes : List Node} {p i : Nat} (h : IsChild nodes p i) : p < nodes.length := by
  obtain ⟨n, hn, -⟩ := h
  exact (List.getElem?_eq_some_iff.1 hn).1

theorem isChild_append {nodes more : List Node} {p i : Nat} (hp : p < nodes.length) :
    IsChild (nodes ++ more) p i ↔ IsChild nodes p i := by
  unfold IsChild
  rw [List.getElem?_append_left hp]

theorem available_append {nodes more : List Node} {m i : Nat} (hm : m ≤ nodes.length) :
    Available (nodes ++ more) m i ↔ Available nodes m i := by
  unfold Available
  refine and_congr_right fun _ => forall_congr' fun p => ?_
  constructor
  · intro h hp hc; exact h hp ((isChild_append (by omega)).2 hc)
  · intro h hp hc; exact h hp ((isChild_append (by omega)).1 hc)

theorem KeyBelow.append {nodes : List Node} {i j : Nat} (h : KeyBelow nodes i j) (more : List Node) :
    KeyBelow (nodes ++ more) i j := by
  obtain ⟨x, y, hx, hy, hk⟩ := h
  exact ⟨x, y, getElem?_append_of_some hx, getElem?_append_of_some hy, hk⟩

theorem MergesLeast.append {nodes : List Node} {m : Nat} {n : Node} (h : MergesLeast nodes m n)
    (hm : m ≤ nodes.length) (more : List Node) : MergesLeast (nodes ++ more) m n where
  left_available := (available_append hm).2 h.left_available
  right_available := (available_append hm).2 h.right_available
  distinct := h.distinct
  left_least := fun j hj hne => (h.left_least j ((available_append hm).1 hj) hne).append more
  right_least := fun j hj h1 h2 => (h.right_least j ((available_append hm).1 hj) h1 h2).append more

theorem NodeOk.append {nodes : List Node} {i : Nat} {n : Node} (h : NodeOk nodes i n) (more : List Node) :
    NodeOk (nodes ++ more) i n := by
  unfold NodeOk at *
  cases hk : n.kind with
  | leaf => simpa [hk] using h
  | internal =>
    simp only [hk] at h ⊢
    obtain ⟨hl, hr, l, r, hln, hrn, h1, h2⟩ := h
    exact ⟨hl, hr, l, r, getElem?_append_of_some hln, getElem?_append_of_some hrn, h1, h2⟩

/-- One turn of the loop keeps the invariant. -/
theorem LoopInv.turn {syms : List Sym} {total : Nat} {nodes : List Node} {q q1 q2 : List QEntry} {a b : QEntry}
    (h : LoopInv syms total nodes q) (hk : syms.length ≤ 256) (ht : total < 2 ^ 40)
    (ha : popLeast q = some (a, q1)) (hb : popLeast q1 = some (b, q2)) :
    LoopInv syms total (nodes ++ [Node.join a b]) (q2 ++ [(nodes.length, Node.join a b)]) := by
  have hperm : q.Perm (a :: b :: q2) := (popLeast_perm ha).trans ((popLeast_perm hb).cons a)
  have hlen : q.length = q2.length + 2 := by simpa using hperm.length_eq
  have hN : nodes.length ≤ 510 := by have := h.count; omega
  have hq2 : ∀ e ∈ q2, e ∈ q := fun e he => hperm.mem_iff.2 (by simp [he])
  have haq : a ∈ q := hperm.mem_iff.2 (by simp)
  have hbq : b ∈ q := hperm.mem_iff.2 (by simp)
  have hat : nodes[a.1]? = some a.2 := h.at_index a haq
  have hbt : nodes[b.1]? = some b.2 := h.at_index b hbq
  have haN : a.1 < nodes.length := (List.getElem?_eq_some_iff.1 hat).1
  have hbN : b.1 < nodes.length := (List.getElem?_eq_some_iff.1 hbt).1
  have hleft : (Node.join a b).left.toNat = a.1 := by
    simp only [Node.join, BitVec.toNat_ofNat]; omega
  have hright : (Node.join a b).right.toNat = b.1 := by
    simp only [Node.join, BitVec.toNat_ofNat]; omega
  have hjk : (Node.join a b).kind = .internal := rfl
  have hidx : (a.1 :: b.1 :: q2.map Prod.fst).Nodup := by
    simpa using (hperm.map Prod.fst).nodup_iff.1 h.index_nodup
  have hmins : (a.2.minSym :: b.2.minSym :: q2.map fun e => e.2.minSym).Nodup := by
    simpa using (hperm.map fun e : QEntry => e.2.minSym).nodup_iff.1 h.mins_nodup
  have hsum : a.2.nfreq.toNat + (b.2.nfreq.toNat + (q2.map fun e => e.2.nfreq.toNat).sum) = total := by
    have := (hperm.map fun e : QEntry => e.2.nfreq.toNat).sum_eq
    simp only [List.map_cons, List.sum_cons] at this
    rw [← this, h.sum]
  have hjn : (Node.join a b).nfreq.toNat = a.2.nfreq.toNat + b.2.nfreq.toNat := by
    simp only [Node.join, BitVec.toNat_add]
    apply Nat.mod_eq_of_lt
    omega
  have hnew : (nodes ++ [Node.join a b])[nodes.length]? = some (Node.join a b) := by simp
  have hlt_or : ∀ {i : Nat} {n : Node}, (nodes ++ [Node.join a b])[i]? = some n →
      nodes[i]? = some n ∨ (i = nodes.length ∧ n = Node.join a b) := by
    intro i n hi
    rcases Nat.lt_trichotomy i nodes.length with hlt | heq | hgt
    · rw [List.getElem?_append_left hlt] at hi; exact .inl hi
    · subst heq; simp at hi; exact .inr ⟨rfl, hi.symm⟩
    · rw [List.getElem?_eq_none (by simp; omega)] at hi; exact absurd hi (by simp)
  have hchildN : ∀ {i : Nat}, IsChild (nodes ++ [Node.join a b]) nodes.length i ↔ i = a.1 ∨ i = b.1 := by
    intro i
    unfold IsChild
    rw [hnew]
    constructor
    · rintro ⟨n, hn, -, hc⟩
      simp only [Option.some.injEq] at hn
      subst hn
      rw [hleft, hright] at hc
      rcases hc with hc | hc <;> simp [hc]
    · intro hc
      exact ⟨_, rfl, hjk, by rw [hleft, hright]; rcases hc with hc | hc <;> simp [hc]⟩
  have havA : Available nodes nodes.length a.1 := (h.available _).1 (List.mem_map_of_mem haq)
  have havB : Available nodes nodes.length b.1 := (h.available _).1 (List.mem_map_of_mem hbq)
  have hq_idx : ∀ i, i ∈ q.map Prod.fst ↔ i = a.1 ∨ i = b.1 ∨ i ∈ q2.map Prod.fst := by
    intro i
    rw [(hperm.map Prod.fst).mem_iff]
    simp
  have hchild_cases : ∀ {p i : Nat}, IsChild (nodes ++ [Node.join a b]) p i →
      IsChild nodes p i ∨ (p = nodes.length ∧ (i = a.1 ∨ i = b.1)) := by
    intro p i hc
    have hp := isChild_length hc
    simp only [List.length_append, List.length_cons, List.length_nil] at hp
    by_cases hpN : p = nodes.length
    · subst hpN; exact .inr ⟨rfl, hchildN.1 hc⟩
    · exact .inl ((isChild_append (by omega)).1 hc)
  refine ⟨?_, ?_, ?_, ?_, ?_, ?_, ?_, ?_, ?_, ?_, ?_⟩
  · -- index_nodup
    rw [List.map_append, List.nodup_append]
    refine ⟨(List.nodup_cons.1 (List.nodup_cons.1 hidx).2).2, by simp, ?_⟩
    intro x hx y hy
    simp only [List.map_cons, List.map_nil, List.mem_singleton] at hy
    subst hy
    obtain ⟨e, he, rfl⟩ := List.mem_map.1 hx
    have := (List.getElem?_eq_some_iff.1 (h.at_index e (hq2 e he))).1
    show e.1 ≠ nodes.length
    omega
  · -- at_index
    intro e he
    rcases List.mem_append.1 he with he | he
    · exact getElem?_append_of_some (h.at_index e (hq2 e he))
    · simp only [List.mem_singleton] at he
      subst he
      exact hnew
  · -- mins_nodup
    rw [List.map_append, List.nodup_append]
    refine ⟨(List.nodup_cons.1 (List.nodup_cons.1 hmins).2).2, by simp, ?_⟩
    intro x hx y hy
    simp only [List.map_cons, List.map_nil, List.mem_singleton] at hy
    subst hy
    have h1 := (List.nodup_cons.1 hmins).1
    have h2 := (List.nodup_cons.1 (List.nodup_cons.1 hmins).2).1
    simp only [Node.join]
    split
    · rintro rfl; exact h1 (by simp [hx])
    · rintro rfl; exact h2 hx
  · -- ok
    intro i n hi
    rcases hlt_or hi with hi | ⟨rfl, rfl⟩
    · exact (h.ok i n hi).append _
    · simp only [NodeOk, hjk, hleft, hright]
      exact ⟨haN, hbN, a.2, b.2, getElem?_append_of_some hat, getElem?_append_of_some hbt, rfl, rfl⟩
  · -- count
    have := h.count
    simp only [List.length_append, List.length_cons, List.length_nil]
    omega
  · -- sum
    simp only [List.map_append, List.map_cons, List.map_nil, List.sum_append, List.sum_cons, List.sum_nil, hjn]
    omega
  · -- exact_sum
    intro i n l r hi hkn hl hr
    rcases hlt_or hi with hi | ⟨rfl, rfl⟩
    · have hok := h.ok i n hi
      simp only [NodeOk, hkn] at hok
      have hiN := (List.getElem?_eq_some_iff.1 hi).1
      rw [List.getElem?_append_left (by omega)] at hl hr
      exact h.exact_sum i n l r hi hkn hl hr
    · rw [hleft, getElem?_append_of_some hat] at hl
      rw [hright, getElem?_append_of_some hbt] at hr
      simp only [Option.some.injEq] at hl hr
      rw [hjn, hl, hr]
  · -- available
    intro i
    have hbase := h.available i
    rw [hq_idx] at hbase
    have hone : i ∈ (q2 ++ [(nodes.length, Node.join a b)]).map Prod.fst ↔
        i ∈ q2.map Prod.fst ∨ i = nodes.length := by simp
    rw [hone]
    have hnodup1 := (List.nodup_cons.1 hidx).1
    have hnodup2 := (List.nodup_cons.1 (List.nodup_cons.1 hidx).2).1
    constructor
    · rintro (hi | rfl)
      · have hav := hbase.1 (.inr (.inr hi))
        refine ⟨by have := hav.1; simp; omega, fun p _ hc => ?_⟩
        rcases hchild_cases hc with hc | ⟨-, rfl | rfl⟩
        · exact hav.2 p (isChild_length hc) hc
        · exact hnodup1 (by simp [hi])
        · exact hnodup2 hi
      · refine ⟨by simp, fun p _ hc => ?_⟩
        rcases hchild_cases hc with hc | ⟨-, h1 | h1⟩
        · have := isChild_lt h.ok hc
          have := isChild_length hc
          omega
        · omega
        · omega
    · rintro ⟨hlt, hno⟩
      by_cases hiN : i = nodes.length
      · exact .inr hiN
      · left
        simp only [List.length_append, List.length_cons, List.length_nil] at hlt hno
        have hav : Available nodes nodes.length i :=
          ⟨by omega, fun p hp hc => hno p (by omega) ((isChild_append hp).2 hc)⟩
        rcases hbase.2 hav with rfl | rfl | hi
        · exact absurd (hchildN.2 (.inl rfl)) (hno _ (by omega))
        · exact absurd (hchildN.2 (.inr rfl)) (hno _ (by omega))
        · exact hi
  · -- one_parent
    intro i p p' hp hp'
    rcases hchild_cases hp with h1 | ⟨rfl, h1⟩ <;> rcases hchild_cases hp' with h2 | ⟨rfl, h2⟩
    · exact h.one_parent i p p' h1 h2
    · rcases h2 with rfl | rfl
      · exact absurd h1 (havA.2 p (isChild_length h1))
      · exact absurd h1 (havB.2 p (isChild_length h1))
    · rcases h1 with rfl | rfl
      · exact absurd h2 (havA.2 p' (isChild_length h2))
      · exact absurd h2 (havB.2 p' (isChild_length h2))
    · rfl
  · -- merges
    intro m n hm hkn
    rcases hlt_or hm with hm | ⟨rfl, rfl⟩
    · exact (h.merges m n hm hkn).append (by have := (List.getElem?_eq_some_iff.1 hm).1; omega) _
    · refine ⟨?_, ?_, ?_, ?_, ?_⟩
      · rw [hleft]; exact (available_append (by omega)).2 havA
      · rw [hright]; exact (available_append (by omega)).2 havB
      · rw [hleft, hright]
        intro e
        exact (List.nodup_cons.1 hidx).1 (by simp [e])
      · intro j hj hne
        rw [hleft] at hne ⊢
        have hj' := (h.available j).2 ((available_append (by omega)).1 hj)
        obtain ⟨e, he, rfl⟩ := List.mem_map.1 hj'
        have hea : e ∈ q1 := by
          rcases List.mem_cons.1 ((popLeast_perm ha).mem_iff.1 he) with rfl | he'
          · exact absurd rfl hne
          · exact he'
        have hnlt := popLeast_least ha e hea
        have hmin : e.2.minSym ≠ a.2.minSym := by
          intro heq
          have hmem : e.2.minSym ∈ b.2.minSym :: q2.map fun e => e.2.minSym := by
            rcases List.mem_cons.1 ((popLeast_perm hb).mem_iff.1 hea) with rfl | he'
            · simp
            · exact List.mem_cons_of_mem _ (List.mem_map.2 ⟨e, he', rfl⟩)
          exact (List.nodup_cons.1 hmins).1 (heq ▸ hmem)
        exact ⟨a.2, e.2, getElem?_append_of_some hat, getElem?_append_of_some (h.at_index e he),
          Node.keyLt_total hnlt hmin⟩
      · intro j hj hne1 hne2
        rw [hleft] at hne1
        rw [hright] at hne2 ⊢
        have hj' := (h.available j).2 ((available_append (by omega)).1 hj)
        obtain ⟨e, he, rfl⟩ := List.mem_map.1 hj'
        have hea : e ∈ q2 := by
          rcases List.mem_cons.1 (hperm.mem_iff.1 he) with rfl | he'
          · exact absurd rfl hne1
          · rcases List.mem_cons.1 he' with rfl | he'
            · exact absurd rfl hne2
            · exact he'
        have hnlt := popLeast_least hb e hea
        have hmin : e.2.minSym ≠ b.2.minSym := by
          intro heq
          exact (List.nodup_cons.1 (List.nodup_cons.1 hmins).2).1 (heq ▸ List.mem_map.2 ⟨e, hea, rfl⟩)
        exact ⟨b.2, e.2, getElem?_append_of_some hbt, getElem?_append_of_some (h.at_index e he),
          Node.keyLt_total hnlt hmin⟩
  · -- trees
    obtain ⟨T, hT, hleaves⟩ := h.trees
    refine ⟨fun i => if i = nodes.length then .node (T a.1) (T b.1) else T i, ?_, ?_⟩
    · intro e he
      rcases List.mem_append.1 he with he | he
      · have hne : e.1 ≠ nodes.length := by
          have := (List.getElem?_eq_some_iff.1 (h.at_index e (hq2 e he))).1
          omega
        simp only [if_neg hne]
        exact (hT e (hq2 e he)).append _
      · simp only [List.mem_singleton] at he
        subst he
        simp only [if_true]
        have hra := (hT a haq).append [Node.join a b]
        have hrb := (hT b hbq).append [Node.join a b]
        refine .node hnew hjk (by rw [hleft]; exact haN) (by rw [hright]; exact hbN) ?_ ?_
        · rw [hleft]; exact hra
        · rw [hright]; exact hrb
    · have hsame : (q2.flatMap fun e => (if e.1 = nodes.length then HTree.node (T a.1) (T b.1) else T e.1).leaves)
          = q2.flatMap fun e => (T e.1).leaves := by
        apply List.flatMap_congr
        intro e he
        have hne : e.1 ≠ nodes.length := by
          have := (List.getElem?_eq_some_iff.1 (h.at_index e (hq2 e he))).1
          omega
        rw [if_neg hne]
      rw [List.flatMap_append, hsame]
      simp only [List.flatMap_cons, List.flatMap_nil, if_true, HTree.leaves, List.append_nil]
      refine List.Perm.trans ?_ hleaves
      have hp := hperm.flatMap_right fun e => (T e.1).leaves
      simp only [List.flatMap_cons] at hp
      refine List.Perm.trans ?_ hp.symm
      rw [← List.append_assoc (T a.1).leaves]
      exact List.perm_append_comm

/-- The loop keeps the invariant, and Q shrinks by one element a turn until one is left. -/
theorem LoopInv.loop {syms : List Sym} {total : Nat} (hk : syms.length ≤ 256) (ht : total < 2 ^ 40) :
    ∀ (turns : Nat) {nodes : List Node} {q : List QEntry}, LoopInv syms total nodes q →
      q.length ≤ turns + 1 →
      LoopInv syms total (buildLoop turns nodes q).1 (buildLoop turns nodes q).2 ∧
      (q ≠ [] → (buildLoop turns nodes q).2.length = 1) ∧
      ∃ more, (buildLoop turns nodes q).1 = nodes ++ more ∧ ∀ n ∈ more, n.kind = .internal := by
  intro turns
  induction turns with
  | zero =>
    intro nodes q h hq
    refine ⟨h, fun hne => ?_, [], by simp [buildLoop], by simp⟩
    have := List.length_pos_iff.2 hne
    simp only [buildLoop]
    omega
  | succ turns ih =>
    intro nodes q h hq
    simp only [buildLoop]
    split
    · rename_i hn
      rw [popLeast_eq_none] at hn
      exact ⟨h, fun hne => absurd hn hne, [], by simp, by simp⟩
    · rename_i a q1 ha
      split
      · rename_i hn
        rw [popLeast_eq_none] at hn
        have := (popLeast_perm ha).length_eq
        exact ⟨h, fun _ => by simpa [hn] using this, [], by simp, by simp⟩
      · rename_i b q2 hb
        have h1 := (popLeast_perm ha).length_eq
        have h2 := (popLeast_perm hb).length_eq
        simp only [List.length_cons] at h1 h2
        obtain ⟨hinv, hone, more, hmore, hkind⟩ :=
          ih (h.turn hk ht ha hb) (by simp only [List.length_append, List.length_cons, List.length_nil]; omega)
        refine ⟨hinv, fun _ => hone (by simp), Node.join a b :: more, by simpa using hmore, ?_⟩
        intro n hn
        rcases List.mem_cons.1 hn with rfl | hn
        · rfl
        · exact hkind n hn

/-- Any number of turns keeps the invariant. -/
theorem LoopInv.turns {syms : List Sym} {total : Nat} (hk : syms.length ≤ 256) (ht : total < 2 ^ 40) (turns : Nat)
    {nodes : List Node} {q : List QEntry} (h : LoopInv syms total nodes q) :
    LoopInv syms total (buildLoop turns nodes q).1 (buildLoop turns nodes q).2 := by
  induction turns generalizing nodes q with
  | zero => exact h
  | succ turns ih =>
    simp only [buildLoop]
    split
    · exact h
    · rename_i a q1 ha
      split
      · exact h
      · rename_i b q2 hb
        exact ih (h.turn hk ht ha hb)

/-! ### The start of the loop -/

theorem withIndex_map_fst (i : Nat) (nodes : List Node) :
    (withIndex i nodes).map Prod.fst = List.range' i nodes.length := by
  induction nodes generalizing i with
  | nil => rfl
  | cons n rest ih => simp [withIndex, ih, List.range'_succ]

theorem withIndex_map_snd (i : Nat) (nodes : List Node) : (withIndex i nodes).map Prod.snd = nodes := by
  induction nodes generalizing i with
  | nil => rfl
  | cons n rest ih => simp [withIndex, ih]

@[simp] theorem withIndex_length (i : Nat) (nodes : List Node) : (withIndex i nodes).length = nodes.length := by
  rw [← List.length_map (f := Prod.snd), withIndex_map_snd]

theorem mem_withIndex {i : Nat} {nodes : List Node} {e : QEntry} (h : e ∈ withIndex i nodes) :
    i ≤ e.1 ∧ nodes[e.1 - i]? = some e.2 := by
  induction nodes generalizing i with
  | nil => simp [withIndex] at h
  | cons n rest ih =>
    rcases List.mem_cons.1 h with rfl | h
    · simp
    · obtain ⟨h1, h2⟩ := ih h
      refine ⟨by omega, ?_⟩
      rw [show e.1 - i = (e.1 - (i + 1)) + 1 by omega, List.getElem?_cons_succ]
      exact h2

theorem countedSyms_eq (freq : Table (BitVec 32)) :
    countedSyms freq = allSyms.filter fun s => decide (freq.get s ≠ 0) :=
  Table.symsWith_eq _ freq

theorem mem_countedSyms {freq : Table (BitVec 32)} {s : Sym} : s ∈ countedSyms freq ↔ freq.get s ≠ 0 := by
  simp [countedSyms_eq]

theorem nodup_countedSyms (freq : Table (BitVec 32)) : (countedSyms freq).Nodup := by
  rw [countedSyms_eq]
  exact nodup_allSyms.filter _

theorem countedSyms_length_le (freq : Table (BitVec 32)) : (countedSyms freq).length ≤ 256 := by
  rw [← length_allSyms, countedSyms_eq]
  exact List.length_filter_le _ _

/-- The leaves of step 1 of 42 R141. -/
def leafNodes (freq : Table (BitVec 32)) : List Node :=
  (countedSyms freq).map (Node.leafOf freq)

/-- The sum of the counts. -/
def totalCount (freq : Table (BitVec 32)) : Nat :=
  ((countedSyms freq).map fun s => (freq.get s).toNat).sum

theorem sum_map_le {α : Type} (l : List α) (f : α → Nat) (c : Nat) (h : ∀ x ∈ l, f x ≤ c) :
    (l.map f).sum ≤ l.length * c := by
  induction l with
  | nil => simp
  | cons x rest ih =>
    have h1 := h x (by simp)
    have h2 := ih fun y hy => h y (by simp [hy])
    simp only [List.map_cons, List.sum_cons, List.length_cons, Nat.succ_mul]
    omega

/-- 00_scope R10: no sum of counts reaches 2^40. -/
theorem totalCount_lt (freq : Table (BitVec 32)) : totalCount freq < 2 ^ 40 := by
  have h := sum_map_le (countedSyms freq) (fun s => (freq.get s).toNat) (2 ^ 32 - 1)
    (fun s _ => by have := (freq.get s).isLt; omega)
  have hl := countedSyms_length_le freq
  have : (countedSyms freq).length * (2 ^ 32 - 1) ≤ 256 * (2 ^ 32 - 1) := Nat.mul_le_mul_right _ hl
  unfold totalCount
  omega

theorem mem_leafNodes {freq : Table (BitVec 32)} {n : Node} (h : n ∈ leafNodes freq) :
    n.kind = .leaf ∧ n.left = 0 ∧ n.right = 0 ∧ n.minSym ∈ countedSyms freq ∧
      n.nfreq = (freq.get n.minSym).setWidth 40 := by
  obtain ⟨s, hs, rfl⟩ := List.mem_map.1 h
  exact ⟨rfl, rfl, rfl, hs, rfl⟩

theorem leafNodes_kind {freq : Table (BitVec 32)} {i : Nat} {n : Node}
    (h : (leafNodes freq)[i]? = some n) : n.kind = .leaf :=
  (mem_leafNodes (List.mem_of_getElem? h)).1

theorem not_isChild_leafNodes (freq : Table (BitVec 32)) (p i : Nat) : ¬IsChild (leafNodes freq) p i := by
  rintro ⟨n, hn, hk, -⟩
  rw [leafNodes_kind hn] at hk
  exact absurd hk (by decide)

theorem LoopInv.start (freq : Table (BitVec 32)) :
    LoopInv (countedSyms freq) (totalCount freq) (leafNodes freq) (withIndex 0 (leafNodes freq)) := by
  have hat : ∀ e ∈ withIndex 0 (leafNodes freq), (leafNodes freq)[e.1]? = some e.2 := by
    intro e he
    simpa using (mem_withIndex he).2
  have hsnd : ∀ {β : Type} (f : Node → β),
      (withIndex 0 (leafNodes freq)).map (fun e => f e.2) = (leafNodes freq).map f := by
    intro β f
    rw [← withIndex_map_snd 0 (leafNodes freq), List.map_map, withIndex_map_snd]
    rfl
  refine ⟨?_, hat, ?_, ?_, ?_, ?_, ?_, ?_, ?_, ?_, ?_⟩
  · rw [withIndex_map_fst]; exact List.nodup_range'
  · rw [hsnd Node.minSym, leafNodes, List.map_map]
    have : (Node.minSym ∘ Node.leafOf freq) = id := rfl
    rw [this, List.map_id]
    exact nodup_countedSyms freq
  · intro i n hi
    have := mem_leafNodes (List.mem_of_getElem? hi)
    simp only [NodeOk, this.1]
    exact ⟨this.2.1, this.2.2.1⟩
  · simp [leafNodes]; omega
  · rw [hsnd fun n => n.nfreq.toNat, leafNodes, List.map_map, totalCount]
    congr 1
  · intro i n l r hi hk
    rw [leafNodes_kind hi] at hk
    exact absurd hk (by decide)
  · intro i
    rw [withIndex_map_fst]
    constructor
    · intro hi
      refine ⟨by simpa [List.mem_range'_1] using hi, fun p _ => not_isChild_leafNodes freq p i⟩
    · rintro ⟨hi, -⟩
      simpa [List.mem_range'_1] using hi
  · intro i p p' hp
    exact absurd hp (not_isChild_leafNodes freq p i)
  · intro m n hm hk
    rw [leafNodes_kind hm] at hk
    exact absurd hk (by decide)
  · refine ⟨fun i => match (leafNodes freq)[i]? with | some n => .leaf n.minSym | none => .leaf 0, ?_, ?_⟩
    · intro e he
      simp only [hat e he]
      exact .leaf (hat e he) (leafNodes_kind (hat e he))
    · have : (withIndex 0 (leafNodes freq)).flatMap
          (fun e => (match (leafNodes freq)[e.1]? with
            | some n => HTree.leaf n.minSym | none => .leaf 0).leaves) =
          (withIndex 0 (leafNodes freq)).flatMap fun e => [e.2.minSym] := by
        apply List.flatMap_congr
        intro e he
        simp only [hat e he, HTree.leaves]
      rw [this, ← List.map_eq_flatMap, hsnd Node.minSym, leafNodes, List.map_map]
      have : (Node.minSym ∘ Node.leafOf freq) = id := rfl
      rw [this, List.map_id]

/-- The loop invariant at the end of BuildTree, where Q holds the root alone. -/
theorem buildTree_inv {freq : Table (BitVec 32)} (h : countedSyms freq ≠ []) :
    ∃ root : QEntry, (buildTree freq).2 = [root] ∧
      LoopInv (countedSyms freq) (totalCount freq) (treeNodes freq) [root] ∧
      ∃ more, treeNodes freq = leafNodes freq ++ more ∧ ∀ n ∈ more, n.kind = .internal := by
  obtain ⟨hinv, hone, hmore⟩ := LoopInv.loop (countedSyms_length_le freq) (totalCount_lt freq)
    (leafNodes freq).length (LoopInv.start freq) (by simp)
  have hne : withIndex 0 (leafNodes freq) ≠ [] := by
    intro e
    have := congrArg List.length e
    simp [leafNodes, h] at this
  obtain ⟨root, hroot⟩ := List.length_eq_one_iff.1 (hone hne)
  refine ⟨root, hroot, ?_, hmore⟩
  rw [hroot] at hinv
  exact hinv

end Sys2Proof.Machine
end

