-- ==== Sys2Proof/Laws/Decode.lean ====
section
/-! SUPPORT. Laws of the decoder and the encoder (30_encoding R90 – R93). -/

namespace Sys2Proof

theorem decodeOp_eq_ok {op : BitVec 8} {i : Instr} : decodeOp op = .ok i ↔ op = i.opcode := by
  have h : ∀ op : BitVec 8, ∀ i : Instr, decodeOp op = .ok i ↔ op = i.opcode := by
    intro op i
    unfold decodeOp
    split <;> rename_i hn
    all_goals cases i <;> simp [Instr.opcode, ← BitVec.toNat_inj, hn]
    all_goals assumption
  exact h op i

/-- The opcode lies in 0x01 … 0x07. -/
theorem Instr.opcode_range (i : Instr) : 1 ≤ i.opcode.toNat ∧ i.opcode.toNat ≤ 7 := by
  cases i <;> decide

theorem decodeOp_isOk {op : BitVec 8} : (∃ i, decodeOp op = .ok i) ↔ 1 ≤ op.toNat ∧ op.toNat ≤ 7 := by
  constructor
  · rintro ⟨i, hi⟩
    rw [decodeOp_eq_ok.1 hi]
    exact i.opcode_range
  · rintro ⟨h1, h2⟩
    have : op.toNat = 1 ∨ op.toNat = 2 ∨ op.toNat = 3 ∨ op.toNat = 4 ∨ op.toNat = 5 ∨ op.toNat = 6 ∨
        op.toNat = 7 := by omega
    unfold decodeOp
    rcases this with h | h | h | h | h | h | h <;> rw [h] <;> exact ⟨_, rfl⟩

/-- A word decodes to i exactly when RSV = 0 and OP is i's opcode. -/
theorem decode_eq_ok {v : Word} {i : Instr} :
    decode v = .ok i ↔ v.extractLsb' 8 24 = 0 ∧ v.extractLsb' 0 8 = i.opcode := by
  by_cases h : v.extractLsb' 8 24 = 0
  · have hd : decode v = decodeOp (v.extractLsb' 0 8) := if_pos h
    rw [hd, decodeOp_eq_ok]
    exact (and_iff_right h).symm
  · have hd : decode v = .error (.reservedBits (v.extractLsb' 8 24)) := if_neg h
    rw [hd]
    simp only [reduceCtorEq, false_iff, not_and]
    exact fun h0 => absurd h0 h

theorem encode_rsv (i : Instr) : (encode i).extractLsb' 8 24 = 0 := by
  cases i <;> decide

theorem encode_op (i : Instr) : (encode i).extractLsb' 0 8 = i.opcode := by
  cases i <;> decide

end Sys2Proof
end

