-- ==== Sys2Proof/Laws/State.lean ====
section
/-! SUPPORT. One lemma per field per update of the state, and the fields of the reset state: later proofs do
not unfold a record update. -/

namespace Sys2Proof.Machine

/-! `State.completed` -/

@[simp] theorem State.completed_params (s : State) (c g : BitVec 8) : (s.completed c g).params = s.params := rfl
@[simp] theorem State.completed_irqEn (s : State) (c g : BitVec 8) : (s.completed c g).irqEn = s.irqEn := rfl
@[simp] theorem State.completed_busy (s : State) (c g : BitVec 8) : (s.completed c g).busy = false := rfl
@[simp] theorem State.completed_done (s : State) (c g : BitVec 8) : (s.completed c g).done = true := rfl
@[simp] theorem State.completed_ovr (s : State) (c g : BitVec 8) : (s.completed c g).ovr = s.ovr := rfl
@[simp] theorem State.completed_aerr (s : State) (c g : BitVec 8) : (s.completed c g).aerr = s.aerr := rfl
@[simp] theorem State.completed_errCode (s : State) (c g : BitVec 8) : (s.completed c g).errCode = c := rfl
@[simp] theorem State.completed_errStage (s : State) (c g : BitVec 8) : (s.completed c g).errStage = g := rfl
@[simp] theorem State.completed_pending (s : State) (c g : BitVec 8) : (s.completed c g).pending = s.pending := rfl
@[simp] theorem State.completed_inLen (s : State) (c g : BitVec 8) : (s.completed c g).inLen = s.inLen := rfl
@[simp] theorem State.completed_inBuf (s : State) (c g : BitVec 8) : (s.completed c g).inBuf = s.inBuf := rfl
@[simp] theorem State.completed_freq (s : State) (c g : BitVec 8) : (s.completed c g).freq = s.freq := rfl
@[simp] theorem State.completed_nodeCount (s : State) (c g : BitVec 8) : (s.completed c g).nodeCount = s.nodeCount := rfl
@[simp] theorem State.completed_root (s : State) (c g : BitVec 8) : (s.completed c g).root = s.root := rfl
@[simp] theorem State.completed_node (s : State) (c g : BitVec 8) : (s.completed c g).node = s.node := rfl
@[simp] theorem State.completed_len (s : State) (c g : BitVec 8) : (s.completed c g).len = s.len := rfl
@[simp] theorem State.completed_clen (s : State) (c g : BitVec 8) : (s.completed c g).clen = s.clen := rfl
@[simp] theorem State.completed_code (s : State) (c g : BitVec 8) : (s.completed c g).code = s.code := rfl
@[simp] theorem State.completed_bitCount (s : State) (c g : BitVec 8) : (s.completed c g).bitCount = s.bitCount := rfl
@[simp] theorem State.completed_outLen (s : State) (c g : BitVec 8) : (s.completed c g).outLen = s.outLen := rfl
@[simp] theorem State.completed_outBuf (s : State) (c g : BitVec 8) : (s.completed c g).outBuf = s.outBuf := rfl
@[simp] theorem State.completed_rst (s : State) (c g : BitVec 8) : (s.completed c g).rst = s.rst := rfl
@[simp] theorem State.completed_hostOps (s : State) (c g : BitVec 8) : (s.completed c g).hostOps = s.hostOps := rfl
@[simp] theorem State.completed_turns (s : State) (c g : BitVec 8) : (s.completed c g).turns = s.turns := rfl
@[simp] theorem State.completed_responses (s : State) (c g : BitVec 8) : (s.completed c g).responses = s.responses := rfl
@[simp] theorem State.completed_draws (s : State) (c g : BitVec 8) : (s.completed c g).draws = s.draws := rfl

/-! `State.accept` -/

@[simp] theorem State.accept_params (s : State) (i : Instr) : (s.accept i).params = s.params := rfl
@[simp] theorem State.accept_irqEn (s : State) (i : Instr) : (s.accept i).irqEn = s.irqEn := rfl
@[simp] theorem State.accept_busy (s : State) (i : Instr) : (s.accept i).busy = true := rfl
@[simp] theorem State.accept_done (s : State) (i : Instr) : (s.accept i).done = false := rfl
@[simp] theorem State.accept_ovr (s : State) (i : Instr) : (s.accept i).ovr = s.ovr := rfl
@[simp] theorem State.accept_aerr (s : State) (i : Instr) : (s.accept i).aerr = s.aerr := rfl
@[simp] theorem State.accept_errCode (s : State) (i : Instr) : (s.accept i).errCode = 0 := rfl
@[simp] theorem State.accept_errStage (s : State) (i : Instr) : (s.accept i).errStage = 0 := rfl
@[simp] theorem State.accept_pending (s : State) (i : Instr) : (s.accept i).pending = i := rfl
@[simp] theorem State.accept_inLen (s : State) (i : Instr) : (s.accept i).inLen = s.inLen := rfl
@[simp] theorem State.accept_inBuf (s : State) (i : Instr) : (s.accept i).inBuf = s.inBuf := rfl
@[simp] theorem State.accept_freq (s : State) (i : Instr) : (s.accept i).freq = s.freq := rfl
@[simp] theorem State.accept_nodeCount (s : State) (i : Instr) : (s.accept i).nodeCount = s.nodeCount := rfl
@[simp] theorem State.accept_root (s : State) (i : Instr) : (s.accept i).root = s.root := rfl
@[simp] theorem State.accept_node (s : State) (i : Instr) : (s.accept i).node = s.node := rfl
@[simp] theorem State.accept_len (s : State) (i : Instr) : (s.accept i).len = s.len := rfl
@[simp] theorem State.accept_clen (s : State) (i : Instr) : (s.accept i).clen = s.clen := rfl
@[simp] theorem State.accept_code (s : State) (i : Instr) : (s.accept i).code = s.code := rfl
@[simp] theorem State.accept_bitCount (s : State) (i : Instr) : (s.accept i).bitCount = s.bitCount := rfl
@[simp] theorem State.accept_outLen (s : State) (i : Instr) : (s.accept i).outLen = s.outLen := rfl
@[simp] theorem State.accept_outBuf (s : State) (i : Instr) : (s.accept i).outBuf = s.outBuf := rfl
@[simp] theorem State.accept_rst (s : State) (i : Instr) : (s.accept i).rst = s.rst := rfl
@[simp] theorem State.accept_hostOps (s : State) (i : Instr) : (s.accept i).hostOps = s.hostOps := rfl
@[simp] theorem State.accept_turns (s : State) (i : Instr) : (s.accept i).turns = s.turns := rfl
@[simp] theorem State.accept_responses (s : State) (i : Instr) : (s.accept i).responses = s.responses := rfl
@[simp] theorem State.accept_draws (s : State) (i : Instr) : (s.accept i).draws = s.draws := rfl

/-! `State.rejectCommand` -/

@[simp] theorem State.rejectCommand_params (s : State) (v : Word) : (s.rejectCommand v).params = s.params := rfl
@[simp] theorem State.rejectCommand_irqEn (s : State) (v : Word) : (s.rejectCommand v).irqEn = s.irqEn := rfl
@[simp] theorem State.rejectCommand_busy (s : State) (v : Word) : (s.rejectCommand v).busy = s.busy := rfl
@[simp] theorem State.rejectCommand_done (s : State) (v : Word) : (s.rejectCommand v).done = true := rfl
@[simp] theorem State.rejectCommand_ovr (s : State) (v : Word) : (s.rejectCommand v).ovr = s.ovr := rfl
@[simp] theorem State.rejectCommand_aerr (s : State) (v : Word) : (s.rejectCommand v).aerr = s.aerr := rfl
@[simp] theorem State.rejectCommand_errCode (s : State) (v : Word) : (s.rejectCommand v).errCode = 7 := rfl
@[simp] theorem State.rejectCommand_errStage (s : State) (v : Word) : (s.rejectCommand v).errStage = v.extractLsb' 0 8 := rfl
@[simp] theorem State.rejectCommand_pending (s : State) (v : Word) : (s.rejectCommand v).pending = s.pending := rfl
@[simp] theorem State.rejectCommand_inLen (s : State) (v : Word) : (s.rejectCommand v).inLen = s.inLen := rfl
@[simp] theorem State.rejectCommand_inBuf (s : State) (v : Word) : (s.rejectCommand v).inBuf = s.inBuf := rfl
@[simp] theorem State.rejectCommand_freq (s : State) (v : Word) : (s.rejectCommand v).freq = s.freq := rfl
@[simp] theorem State.rejectCommand_nodeCount (s : State) (v : Word) : (s.rejectCommand v).nodeCount = s.nodeCount := rfl
@[simp] theorem State.rejectCommand_root (s : State) (v : Word) : (s.rejectCommand v).root = s.root := rfl
@[simp] theorem State.rejectCommand_node (s : State) (v : Word) : (s.rejectCommand v).node = s.node := rfl
@[simp] theorem State.rejectCommand_len (s : State) (v : Word) : (s.rejectCommand v).len = s.len := rfl
@[simp] theorem State.rejectCommand_clen (s : State) (v : Word) : (s.rejectCommand v).clen = s.clen := rfl
@[simp] theorem State.rejectCommand_code (s : State) (v : Word) : (s.rejectCommand v).code = s.code := rfl
@[simp] theorem State.rejectCommand_bitCount (s : State) (v : Word) : (s.rejectCommand v).bitCount = s.bitCount := rfl
@[simp] theorem State.rejectCommand_outLen (s : State) (v : Word) : (s.rejectCommand v).outLen = s.outLen := rfl
@[simp] theorem State.rejectCommand_outBuf (s : State) (v : Word) : (s.rejectCommand v).outBuf = s.outBuf := rfl
@[simp] theorem State.rejectCommand_rst (s : State) (v : Word) : (s.rejectCommand v).rst = s.rst := rfl
@[simp] theorem State.rejectCommand_hostOps (s : State) (v : Word) : (s.rejectCommand v).hostOps = s.hostOps := rfl
@[simp] theorem State.rejectCommand_turns (s : State) (v : Word) : (s.rejectCommand v).turns = s.turns := rfl
@[simp] theorem State.rejectCommand_responses (s : State) (v : Word) : (s.rejectCommand v).responses = s.responses := rfl
@[simp] theorem State.rejectCommand_draws (s : State) (v : Word) : (s.rejectCommand v).draws = s.draws := rfl

/-! `State.resetBlock` -/

@[simp] theorem State.resetBlock_params (s : State) : s.resetBlock.params = s.params := rfl
@[simp] theorem State.resetBlock_irqEn (s : State) : s.resetBlock.irqEn = State.reset.irqEn := rfl
@[simp] theorem State.resetBlock_busy (s : State) : s.resetBlock.busy = State.reset.busy := rfl
@[simp] theorem State.resetBlock_done (s : State) : s.resetBlock.done = State.reset.done := rfl
@[simp] theorem State.resetBlock_ovr (s : State) : s.resetBlock.ovr = State.reset.ovr := rfl
@[simp] theorem State.resetBlock_aerr (s : State) : s.resetBlock.aerr = State.reset.aerr := rfl
@[simp] theorem State.resetBlock_errCode (s : State) : s.resetBlock.errCode = State.reset.errCode := rfl
@[simp] theorem State.resetBlock_errStage (s : State) : s.resetBlock.errStage = State.reset.errStage := rfl
@[simp] theorem State.resetBlock_pending (s : State) : s.resetBlock.pending = State.reset.pending := rfl
@[simp] theorem State.resetBlock_inLen (s : State) : s.resetBlock.inLen = State.reset.inLen := rfl
@[simp] theorem State.resetBlock_inBuf (s : State) : s.resetBlock.inBuf = State.reset.inBuf := rfl
@[simp] theorem State.resetBlock_freq (s : State) : s.resetBlock.freq = State.reset.freq := rfl
@[simp] theorem State.resetBlock_nodeCount (s : State) : s.resetBlock.nodeCount = State.reset.nodeCount := rfl
@[simp] theorem State.resetBlock_root (s : State) : s.resetBlock.root = State.reset.root := rfl
@[simp] theorem State.resetBlock_node (s : State) : s.resetBlock.node = State.reset.node := rfl
@[simp] theorem State.resetBlock_len (s : State) : s.resetBlock.len = State.reset.len := rfl
@[simp] theorem State.resetBlock_clen (s : State) : s.resetBlock.clen = State.reset.clen := rfl
@[simp] theorem State.resetBlock_code (s : State) : s.resetBlock.code = State.reset.code := rfl
@[simp] theorem State.resetBlock_bitCount (s : State) : s.resetBlock.bitCount = State.reset.bitCount := rfl
@[simp] theorem State.resetBlock_outLen (s : State) : s.resetBlock.outLen = State.reset.outLen := rfl
@[simp] theorem State.resetBlock_outBuf (s : State) : s.resetBlock.outBuf = State.reset.outBuf := rfl
@[simp] theorem State.resetBlock_rst (s : State) : s.resetBlock.rst = s.rst := rfl
@[simp] theorem State.resetBlock_hostOps (s : State) : s.resetBlock.hostOps = s.hostOps := rfl
@[simp] theorem State.resetBlock_turns (s : State) : s.resetBlock.turns = s.turns := rfl
@[simp] theorem State.resetBlock_responses (s : State) : s.resetBlock.responses = s.responses := rfl
@[simp] theorem State.resetBlock_draws (s : State) : s.resetBlock.draws = s.draws := rfl

/-! `State.drawAny` -/

@[simp] theorem State.drawAny_params (s : State) : s.drawAny.2.params = s.params := rfl
@[simp] theorem State.drawAny_irqEn (s : State) : s.drawAny.2.irqEn = s.irqEn := rfl
@[simp] theorem State.drawAny_busy (s : State) : s.drawAny.2.busy = s.busy := rfl
@[simp] theorem State.drawAny_done (s : State) : s.drawAny.2.done = s.done := rfl
@[simp] theorem State.drawAny_ovr (s : State) : s.drawAny.2.ovr = s.ovr := rfl
@[simp] theorem State.drawAny_aerr (s : State) : s.drawAny.2.aerr = s.aerr := rfl
@[simp] theorem State.drawAny_errCode (s : State) : s.drawAny.2.errCode = s.errCode := rfl
@[simp] theorem State.drawAny_errStage (s : State) : s.drawAny.2.errStage = s.errStage := rfl
@[simp] theorem State.drawAny_pending (s : State) : s.drawAny.2.pending = s.pending := rfl
@[simp] theorem State.drawAny_inLen (s : State) : s.drawAny.2.inLen = s.inLen := rfl
@[simp] theorem State.drawAny_inBuf (s : State) : s.drawAny.2.inBuf = s.inBuf := rfl
@[simp] theorem State.drawAny_freq (s : State) : s.drawAny.2.freq = s.freq := rfl
@[simp] theorem State.drawAny_nodeCount (s : State) : s.drawAny.2.nodeCount = s.nodeCount := rfl
@[simp] theorem State.drawAny_root (s : State) : s.drawAny.2.root = s.root := rfl
@[simp] theorem State.drawAny_node (s : State) : s.drawAny.2.node = s.node := rfl
@[simp] theorem State.drawAny_len (s : State) : s.drawAny.2.len = s.len := rfl
@[simp] theorem State.drawAny_clen (s : State) : s.drawAny.2.clen = s.clen := rfl
@[simp] theorem State.drawAny_code (s : State) : s.drawAny.2.code = s.code := rfl
@[simp] theorem State.drawAny_bitCount (s : State) : s.drawAny.2.bitCount = s.bitCount := rfl
@[simp] theorem State.drawAny_outLen (s : State) : s.drawAny.2.outLen = s.outLen := rfl
@[simp] theorem State.drawAny_outBuf (s : State) : s.drawAny.2.outBuf = s.outBuf := rfl
@[simp] theorem State.drawAny_rst (s : State) : s.drawAny.2.rst = s.rst := rfl
@[simp] theorem State.drawAny_hostOps (s : State) : s.drawAny.2.hostOps = s.hostOps := rfl
@[simp] theorem State.drawAny_turns (s : State) : s.drawAny.2.turns = s.turns := rfl
@[simp] theorem State.drawAny_responses (s : State) : s.drawAny.2.responses = s.responses := rfl
@[simp] theorem State.drawAny_draws (s : State) : s.drawAny.2.draws = s.draws + 1 := rfl

/-! `State.writeStatus` -/

@[simp] theorem State.writeStatus_params (s : State) (v : Word) : (s.writeStatus v).params = s.params := rfl
@[simp] theorem State.writeStatus_irqEn (s : State) (v : Word) : (s.writeStatus v).irqEn = s.irqEn := rfl
@[simp] theorem State.writeStatus_busy (s : State) (v : Word) : (s.writeStatus v).busy = s.busy := rfl
@[simp] theorem State.writeStatus_done (s : State) (v : Word) : (s.writeStatus v).done = (s.done && !v.getLsbD 1) := rfl
@[simp] theorem State.writeStatus_ovr (s : State) (v : Word) : (s.writeStatus v).ovr = (s.ovr && !v.getLsbD 3) := rfl
@[simp] theorem State.writeStatus_aerr (s : State) (v : Word) : (s.writeStatus v).aerr = (s.aerr && !v.getLsbD 4) := rfl
@[simp] theorem State.writeStatus_errCode (s : State) (v : Word) : (s.writeStatus v).errCode = s.errCode := rfl
@[simp] theorem State.writeStatus_errStage (s : State) (v : Word) : (s.writeStatus v).errStage = s.errStage := rfl
@[simp] theorem State.writeStatus_pending (s : State) (v : Word) : (s.writeStatus v).pending = s.pending := rfl
@[simp] theorem State.writeStatus_inLen (s : State) (v : Word) : (s.writeStatus v).inLen = s.inLen := rfl
@[simp] theorem State.writeStatus_inBuf (s : State) (v : Word) : (s.writeStatus v).inBuf = s.inBuf := rfl
@[simp] theorem State.writeStatus_freq (s : State) (v : Word) : (s.writeStatus v).freq = s.freq := rfl
@[simp] theorem State.writeStatus_nodeCount (s : State) (v : Word) : (s.writeStatus v).nodeCount = s.nodeCount := rfl
@[simp] theorem State.writeStatus_root (s : State) (v : Word) : (s.writeStatus v).root = s.root := rfl
@[simp] theorem State.writeStatus_node (s : State) (v : Word) : (s.writeStatus v).node = s.node := rfl
@[simp] theorem State.writeStatus_len (s : State) (v : Word) : (s.writeStatus v).len = s.len := rfl
@[simp] theorem State.writeStatus_clen (s : State) (v : Word) : (s.writeStatus v).clen = s.clen := rfl
@[simp] theorem State.writeStatus_code (s : State) (v : Word) : (s.writeStatus v).code = s.code := rfl
@[simp] theorem State.writeStatus_bitCount (s : State) (v : Word) : (s.writeStatus v).bitCount = s.bitCount := rfl
@[simp] theorem State.writeStatus_outLen (s : State) (v : Word) : (s.writeStatus v).outLen = s.outLen := rfl
@[simp] theorem State.writeStatus_outBuf (s : State) (v : Word) : (s.writeStatus v).outBuf = s.outBuf := rfl
@[simp] theorem State.writeStatus_rst (s : State) (v : Word) : (s.writeStatus v).rst = s.rst := rfl
@[simp] theorem State.writeStatus_hostOps (s : State) (v : Word) : (s.writeStatus v).hostOps = s.hostOps := rfl
@[simp] theorem State.writeStatus_turns (s : State) (v : Word) : (s.writeStatus v).turns = s.turns := rfl
@[simp] theorem State.writeStatus_responses (s : State) (v : Word) : (s.writeStatus v).responses = s.responses := rfl
@[simp] theorem State.writeStatus_draws (s : State) (v : Word) : (s.writeStatus v).draws = s.draws := rfl

/-! `State.respond` -/

@[simp] theorem State.respond_params (s : State) (w : Word) (ops : List HostOp) : (s.respond w ops).params = s.params := rfl
@[simp] theorem State.respond_irqEn (s : State) (w : Word) (ops : List HostOp) : (s.respond w ops).irqEn = s.irqEn := rfl
@[simp] theorem State.respond_busy (s : State) (w : Word) (ops : List HostOp) : (s.respond w ops).busy = s.busy := rfl
@[simp] theorem State.respond_done (s : State) (w : Word) (ops : List HostOp) : (s.respond w ops).done = s.done := rfl
@[simp] theorem State.respond_ovr (s : State) (w : Word) (ops : List HostOp) : (s.respond w ops).ovr = s.ovr := rfl
@[simp] theorem State.respond_aerr (s : State) (w : Word) (ops : List HostOp) : (s.respond w ops).aerr = s.aerr := rfl
@[simp] theorem State.respond_errCode (s : State) (w : Word) (ops : List HostOp) : (s.respond w ops).errCode = s.errCode := rfl
@[simp] theorem State.respond_errStage (s : State) (w : Word) (ops : List HostOp) : (s.respond w ops).errStage = s.errStage := rfl
@[simp] theorem State.respond_pending (s : State) (w : Word) (ops : List HostOp) : (s.respond w ops).pending = s.pending := rfl
@[simp] theorem State.respond_inLen (s : State) (w : Word) (ops : List HostOp) : (s.respond w ops).inLen = s.inLen := rfl
@[simp] theorem State.respond_inBuf (s : State) (w : Word) (ops : List HostOp) : (s.respond w ops).inBuf = s.inBuf := rfl
@[simp] theorem State.respond_freq (s : State) (w : Word) (ops : List HostOp) : (s.respond w ops).freq = s.freq := rfl
@[simp] theorem State.respond_nodeCount (s : State) (w : Word) (ops : List HostOp) : (s.respond w ops).nodeCount = s.nodeCount := rfl
@[simp] theorem State.respond_root (s : State) (w : Word) (ops : List HostOp) : (s.respond w ops).root = s.root := rfl
@[simp] theorem State.respond_node (s : State) (w : Word) (ops : List HostOp) : (s.respond w ops).node = s.node := rfl
@[simp] theorem State.respond_len (s : State) (w : Word) (ops : List HostOp) : (s.respond w ops).len = s.len := rfl
@[simp] theorem State.respond_clen (s : State) (w : Word) (ops : List HostOp) : (s.respond w ops).clen = s.clen := rfl
@[simp] theorem State.respond_code (s : State) (w : Word) (ops : List HostOp) : (s.respond w ops).code = s.code := rfl
@[simp] theorem State.respond_bitCount (s : State) (w : Word) (ops : List HostOp) : (s.respond w ops).bitCount = s.bitCount := rfl
@[simp] theorem State.respond_outLen (s : State) (w : Word) (ops : List HostOp) : (s.respond w ops).outLen = s.outLen := rfl
@[simp] theorem State.respond_outBuf (s : State) (w : Word) (ops : List HostOp) : (s.respond w ops).outBuf = s.outBuf := rfl
@[simp] theorem State.respond_rst (s : State) (w : Word) (ops : List HostOp) : (s.respond w ops).rst = s.rst := rfl
@[simp] theorem State.respond_hostOps (s : State) (w : Word) (ops : List HostOp) : (s.respond w ops).hostOps = ops := rfl
@[simp] theorem State.respond_turns (s : State) (w : Word) (ops : List HostOp) : (s.respond w ops).turns = s.turns := rfl
@[simp] theorem State.respond_responses (s : State) (w : Word) (ops : List HostOp) : (s.respond w ops).responses = w :: s.responses := rfl
@[simp] theorem State.respond_draws (s : State) (w : Word) (ops : List HostOp) : (s.respond w ops).draws = s.draws := rfl

/-! `State.assertRst` -/

@[simp] theorem State.assertRst_params (s : State) : s.assertRst.params = s.params := rfl
@[simp] theorem State.assertRst_irqEn (s : State) : s.assertRst.irqEn = State.reset.irqEn := rfl
@[simp] theorem State.assertRst_busy (s : State) : s.assertRst.busy = State.reset.busy := rfl
@[simp] theorem State.assertRst_done (s : State) : s.assertRst.done = State.reset.done := rfl
@[simp] theorem State.assertRst_ovr (s : State) : s.assertRst.ovr = State.reset.ovr := rfl
@[simp] theorem State.assertRst_aerr (s : State) : s.assertRst.aerr = State.reset.aerr := rfl
@[simp] theorem State.assertRst_errCode (s : State) : s.assertRst.errCode = State.reset.errCode := rfl
@[simp] theorem State.assertRst_errStage (s : State) : s.assertRst.errStage = State.reset.errStage := rfl
@[simp] theorem State.assertRst_pending (s : State) : s.assertRst.pending = State.reset.pending := rfl
@[simp] theorem State.assertRst_inLen (s : State) : s.assertRst.inLen = State.reset.inLen := rfl
@[simp] theorem State.assertRst_inBuf (s : State) : s.assertRst.inBuf = State.reset.inBuf := rfl
@[simp] theorem State.assertRst_freq (s : State) : s.assertRst.freq = State.reset.freq := rfl
@[simp] theorem State.assertRst_nodeCount (s : State) : s.assertRst.nodeCount = State.reset.nodeCount := rfl
@[simp] theorem State.assertRst_root (s : State) : s.assertRst.root = State.reset.root := rfl
@[simp] theorem State.assertRst_node (s : State) : s.assertRst.node = State.reset.node := rfl
@[simp] theorem State.assertRst_len (s : State) : s.assertRst.len = State.reset.len := rfl
@[simp] theorem State.assertRst_clen (s : State) : s.assertRst.clen = State.reset.clen := rfl
@[simp] theorem State.assertRst_code (s : State) : s.assertRst.code = State.reset.code := rfl
@[simp] theorem State.assertRst_bitCount (s : State) : s.assertRst.bitCount = State.reset.bitCount := rfl
@[simp] theorem State.assertRst_outLen (s : State) : s.assertRst.outLen = State.reset.outLen := rfl
@[simp] theorem State.assertRst_outBuf (s : State) : s.assertRst.outBuf = State.reset.outBuf := rfl
@[simp] theorem State.assertRst_rst (s : State) : s.assertRst.rst = true := rfl
@[simp] theorem State.assertRst_hostOps (s : State) : s.assertRst.hostOps = s.hostOps := rfl
@[simp] theorem State.assertRst_turns (s : State) : s.assertRst.turns = s.turns := rfl
@[simp] theorem State.assertRst_responses (s : State) : s.assertRst.responses = s.responses := rfl
@[simp] theorem State.assertRst_draws (s : State) : s.assertRst.draws = s.draws := rfl

/-! `State.releaseRst` -/

@[simp] theorem State.releaseRst_params (s : State) : s.releaseRst.params = s.params := rfl
@[simp] theorem State.releaseRst_irqEn (s : State) : s.releaseRst.irqEn = s.irqEn := rfl
@[simp] theorem State.releaseRst_busy (s : State) : s.releaseRst.busy = s.busy := rfl
@[simp] theorem State.releaseRst_done (s : State) : s.releaseRst.done = s.done := rfl
@[simp] theorem State.releaseRst_ovr (s : State) : s.releaseRst.ovr = s.ovr := rfl
@[simp] theorem State.releaseRst_aerr (s : State) : s.releaseRst.aerr = s.aerr := rfl
@[simp] theorem State.releaseRst_errCode (s : State) : s.releaseRst.errCode = s.errCode := rfl
@[simp] theorem State.releaseRst_errStage (s : State) : s.releaseRst.errStage = s.errStage := rfl
@[simp] theorem State.releaseRst_pending (s : State) : s.releaseRst.pending = s.pending := rfl
@[simp] theorem State.releaseRst_inLen (s : State) : s.releaseRst.inLen = s.inLen := rfl
@[simp] theorem State.releaseRst_inBuf (s : State) : s.releaseRst.inBuf = s.inBuf := rfl
@[simp] theorem State.releaseRst_freq (s : State) : s.releaseRst.freq = s.freq := rfl
@[simp] theorem State.releaseRst_nodeCount (s : State) : s.releaseRst.nodeCount = s.nodeCount := rfl
@[simp] theorem State.releaseRst_root (s : State) : s.releaseRst.root = s.root := rfl
@[simp] theorem State.releaseRst_node (s : State) : s.releaseRst.node = s.node := rfl
@[simp] theorem State.releaseRst_len (s : State) : s.releaseRst.len = s.len := rfl
@[simp] theorem State.releaseRst_clen (s : State) : s.releaseRst.clen = s.clen := rfl
@[simp] theorem State.releaseRst_code (s : State) : s.releaseRst.code = s.code := rfl
@[simp] theorem State.releaseRst_bitCount (s : State) : s.releaseRst.bitCount = s.bitCount := rfl
@[simp] theorem State.releaseRst_outLen (s : State) : s.releaseRst.outLen = s.outLen := rfl
@[simp] theorem State.releaseRst_outBuf (s : State) : s.releaseRst.outBuf = s.outBuf := rfl
@[simp] theorem State.releaseRst_rst (s : State) : s.releaseRst.rst = false := rfl
@[simp] theorem State.releaseRst_hostOps (s : State) : s.releaseRst.hostOps = s.hostOps := rfl
@[simp] theorem State.releaseRst_turns (s : State) : s.releaseRst.turns = s.turns := rfl
@[simp] theorem State.releaseRst_responses (s : State) : s.releaseRst.responses = s.responses := rfl
@[simp] theorem State.releaseRst_draws (s : State) : s.releaseRst.draws = s.draws := rfl

/-! `State.reset` -/

@[simp] theorem State.reset_params : State.reset.params = Params.ref := rfl
@[simp] theorem State.reset_irqEn : State.reset.irqEn = false := rfl
@[simp] theorem State.reset_busy : State.reset.busy = false := rfl
@[simp] theorem State.reset_done : State.reset.done = false := rfl
@[simp] theorem State.reset_ovr : State.reset.ovr = false := rfl
@[simp] theorem State.reset_aerr : State.reset.aerr = false := rfl
@[simp] theorem State.reset_errCode : State.reset.errCode = 0 := rfl
@[simp] theorem State.reset_errStage : State.reset.errStage = 0 := rfl
@[simp] theorem State.reset_pending : State.reset.pending = .clear := rfl
@[simp] theorem State.reset_inLen : State.reset.inLen = 0 := rfl
@[simp] theorem State.reset_inBuf : State.reset.inBuf = [] := rfl
@[simp] theorem State.reset_freq : State.reset.freq = Table.fill 0 := rfl
@[simp] theorem State.reset_nodeCount : State.reset.nodeCount = 0 := rfl
@[simp] theorem State.reset_root : State.reset.root = 0 := rfl
@[simp] theorem State.reset_node : State.reset.node = [] := rfl
@[simp] theorem State.reset_len : State.reset.len = Table.fill 0 := rfl
@[simp] theorem State.reset_clen : State.reset.clen = Table.fill 0 := rfl
@[simp] theorem State.reset_code : State.reset.code = Table.fill 0 := rfl
@[simp] theorem State.reset_bitCount : State.reset.bitCount = 0 := rfl
@[simp] theorem State.reset_outLen : State.reset.outLen = 0 := rfl
@[simp] theorem State.reset_outBuf : State.reset.outBuf = [] := rfl
@[simp] theorem State.reset_rst : State.reset.rst = false := rfl
@[simp] theorem State.reset_hostOps : State.reset.hostOps = [] := rfl
@[simp] theorem State.reset_turns : State.reset.turns = [] := rfl
@[simp] theorem State.reset_responses : State.reset.responses = [] := rfl
@[simp] theorem State.reset_draws : State.reset.draws = 0 := rfl

end Sys2Proof.Machine
end

