-- ==== Sys2Proof/Laws/Bus.lean ====
section
/-! SUPPORT. Everything a host access can do (20_memory R64 – R71), as one inversion lemma each. -/

namespace Sys2Proof.Machine

/-- A command word is accepted, or rejected as BAD_CMD (20_memory R70). -/
theorem submitCommand_cases (s : State) (v : Word) :
    (∃ i, decode v = .ok i ∧ s.submitCommand v = s.accept i) ∨
    ((∀ i, decode v ≠ .ok i) ∧ s.submitCommand v = s.rejectCommand v) := by
  unfold State.submitCommand
  cases h : decode v with
  | ok i => exact .inl ⟨i, rfl, rfl⟩
  | error e => exact .inr ⟨by simp, rfl⟩

/-- What a write can do to the state (20_memory R64, R65, R67 – R70). -/
theorem memWrite_cases (s : State) (addr v : Word) :
    s.memWrite addr v = s ∨
    (decodeAddr s.params addr = none ∧ s.memWrite addr v = { s with aerr := true }) ∨
    (s.busy = true ∧ s.memWrite addr v = { s with ovr := true }) ∨
    s.memWrite addr v = { s with irqEn := v.getLsbD 0 } ∨
    s.memWrite addr v = s.writeStatus v ∨
    (s.busy = false ∧
      ((∃ i, decode v = .ok i ∧ s.memWrite addr v = s.accept i) ∨
       ((∀ i, decode v ≠ .ok i) ∧ s.memWrite addr v = s.rejectCommand v) ∨
       (v.toNat ≤ s.params.maxInput ∧ s.memWrite addr v = { s with inLen := v }) ∨
       (∃ x, s.memWrite addr v = { s with freq := s.freq.set x v }) ∨
       (∃ x, s.memWrite addr v = { s with len := s.len.set x (v.extractLsb' 0 8) }) ∨
       (∃ i, decodeAddr s.params addr = some (.inBuf i) ∧
         s.memWrite addr v = { s with inBuf := s.inBuf.write i (v.extractLsb' 0 8) }))) := by
  unfold State.memWrite
  cases hd : decodeAddr s.params addr with
  | none => exact .inr (.inl ⟨rfl, rfl⟩)
  | some t =>
    simp only []
    by_cases hb : (s.busy && !t.writableWhileBusy) = true
    · rw [if_pos hb]
      simp only [Bool.and_eq_true] at hb
      exact .inr (.inr (.inl ⟨hb.1, rfl⟩))
    · rw [if_neg hb]
      have hidle : t.writableWhileBusy = false → s.busy = false := fun h => by simpa [h] using hb
      cases t with
      | reg r =>
        cases r with
        | ctrl => exact .inr (.inr (.inr (.inl rfl)))
        | status => exact .inr (.inr (.inr (.inr (.inl rfl))))
        | cmd =>
          refine .inr (.inr (.inr (.inr (.inr ⟨hidle (by decide), ?_⟩))))
          rcases submitCommand_cases s v with ⟨i, hi, he⟩ | ⟨hi, he⟩
          · exact .inl ⟨i, hi, he⟩
          · exact .inr (.inl ⟨hi, he⟩)
        | inLen =>
          simp only [State.writeMapped, State.writeReg, State.writeInLen]
          split
          · rename_i hle
            exact .inr (.inr (.inr (.inr (.inr ⟨hidle (by decide), .inr (.inr (.inl ⟨hle, rfl⟩))⟩))))
          · exact .inl rfl
        | id => exact .inl rfl
        | err => exact .inl rfl
        | bitCount => exact .inl rfl
        | outLen => exact .inl rfl
        | nodeCount => exact .inl rfl
        | root => exact .inl rfl
        | paramMaxInput => exact .inl rfl
        | paramOutCap => exact .inl rfl
        | paramMaxCodeLen => exact .inl rfl
      | freq x =>
        exact .inr (.inr (.inr (.inr (.inr ⟨hidle (by simp [Target.writableWhileBusy]),
          .inr (.inr (.inr (.inl ⟨x, rfl⟩)))⟩))))
      | len x =>
        exact .inr (.inr (.inr (.inr (.inr ⟨hidle (by simp [Target.writableWhileBusy]),
          .inr (.inr (.inr (.inr (.inl ⟨x, rfl⟩))))⟩))))
      | inBuf i =>
        exact .inr (.inr (.inr (.inr (.inr ⟨hidle (by simp [Target.writableWhileBusy]),
          .inr (.inr (.inr (.inr (.inr ⟨i, rfl, rfl⟩))))⟩))))
      | tree i w => exact .inl rfl
      | code x w => exact .inl rfl
      | outBuf b => exact .inl rfl

/-- What a read can do to the state: nothing, set AERR, or draw an `ANY` value (20_memory R66). -/
theorem memRead_cases (s : State) (addr : Word) :
    (decodeAddr s.params addr = none ∧ s.memRead addr = (0, { s with aerr := true })) ∨
    (s.memRead addr).2 = s ∨
    (s.memRead addr).2 = { s with draws := s.draws + 1 } := by
  unfold State.memRead
  cases hd : decodeAddr s.params addr with
  | none => exact .inl ⟨rfl, rfl⟩
  | some t =>
    right
    simp only [State.readMapped]
    split
    · exact .inr rfl
    · split
      · exact .inr rfl
      · split
        · exact .inl rfl
        · exact .inr rfl

theorem regAt_offset (r : Reg) : regAt r.offset = some r := by
  cases r <;> rfl

theorem Reg.offset_lt (r : Reg) : r.offset < 0x400 ∧ r.offset % 4 = 0 := by
  cases r <;> decide

/-- A window entry's address reads back through the map: the ranges of 20_memory R61 below its own do not hold it,
its own does, and the index is the entry's. -/
theorem decodeAddr_window {p : Params} (hp : p.legal = true) {t : Target} (hr : t.inRange p)
    (hreg : ∀ r, t ≠ .reg r) {addr : Word} (ha : t.addr = addr.toNat) : decodeAddr p addr = some t := by
  have hin : p.maxInput ≤ 2 ^ 20 := by
    simp only [Params.legal, Bool.and_eq_true, decide_eq_true_eq] at hp
    exact hp.1.1.2
  have index : ∀ (s : Sym) (n : Nat), n = s.toNat → BitVec.ofNat 8 n = s := by
    rintro s _ rfl
    simp
  unfold decodeAddr
  cases t with
  | reg r => exact absurd rfl (hreg r)
  | freq s | len s | code s w =>
    have := s.isLt
    simp only [Target.addr, Target.inRange] at ha hr
    dsimp only
    repeat rw [if_neg (by omega)]
    rw [if_pos (by omega), index s _ (by omega)]
    try rw [show addr.toNat / 4 % 16 = w by omega]
  | tree i w =>
    simp only [Target.addr, Target.inRange] at ha hr
    dsimp only
    repeat rw [if_neg (by omega)]
    rw [if_pos (by omega), show (addr.toNat - 0x2000) / 16 = i by omega, show addr.toNat / 4 % 4 = w by omega]
  | inBuf i | outBuf i =>
    simp only [Target.addr, Target.inRange] at ha hr
    dsimp only
    repeat rw [if_neg (by omega)]
    rw [if_pos (by omega)]
    congr 2
    omega

/-- The entry address of an existing register or window entry decodes to it (20_memory R61). -/
theorem decodeAddr_of_addr {p : Params} (hp : p.legal = true) {t : Target} (hr : t.inRange p) {addr : Word}
    (ha : t.addr = addr.toNat) : decodeAddr p addr = some t := by
  by_cases h : ∃ r, t = .reg r
  · obtain ⟨r, rfl⟩ := h
    have ha' : addr.toNat = r.offset := ha.symm
    unfold decodeAddr
    dsimp only
    rw [ha', if_neg (not_not.2 r.offset_lt.2), if_pos r.offset_lt.1, regAt_offset]
    rfl
  · exact decodeAddr_window hp hr (fun r hr => h ⟨r, hr⟩) ha

/-- An IN entry the address map names lies below MAX_INPUT (20_memory R61). -/
theorem decodeAddr_inBuf {p : Params} {addr : Word} {i : Nat} (h : decodeAddr p addr = some (.inBuf i)) :
    i < p.maxInput := by
  unfold decodeAddr at h
  dsimp only at h
  repeat' split at h
  all_goals simp only [Option.some.injEq, Target.inBuf.injEq, Option.map_eq_some_iff, reduceCtorEq, and_false,
    exists_false] at h
  omega

/-- Only the address 0x018 names CMD (20_memory R61). -/
theorem decodeAddr_cmd {p : Params} {addr : Word} (h : decodeAddr p addr = some (.reg .cmd)) : addr = 0x018 := by
  have hreg : ∀ a, regAt a = some .cmd → a = 0x018 := by
    intro a ha
    unfold regAt at ha
    split at ha <;> simp_all
  unfold decodeAddr at h
  dsimp only at h
  repeat' split at h
  all_goals simp only [Option.some.injEq, Option.map_eq_some_iff, Target.reg.injEq, exists_eq_right,
    reduceCtorEq] at h
  exact BitVec.eq_of_toNat_eq (hreg _ h)

/-- Only a write to CMD changes ERR (60_exceptions R216). -/
theorem memWrite_err {s : State} {addr v : Word} (h : addr ≠ 0x018) :
    (s.memWrite addr v).errCode = s.errCode ∧ (s.memWrite addr v).errStage = s.errStage := by
  unfold State.memWrite
  cases hd : decodeAddr s.params addr with
  | none => exact ⟨rfl, rfl⟩
  | some t =>
    simp only []
    split
    · exact ⟨rfl, rfl⟩
    · cases t with
      | reg r =>
        cases r with
        | cmd => exact absurd (decodeAddr_cmd hd) h
        | inLen =>
          simp only [State.writeMapped, State.writeReg, State.writeInLen]
          split <;> exact ⟨rfl, rfl⟩
        | _ => exact ⟨rfl, rfl⟩
      | _ => exact ⟨rfl, rfl⟩

/-- The conflict of log 21, whatever a model does: no layout of TREE word 0 shows KIND in bit 0 (30_encoding R97)
and the symbol in bits 7:0 (20_memory R72) of every node. -/
theorem treeWord_kind_excludes_low_symbol :
    ¬ ∃ word0 : Node → Word,
      (∀ n, (word0 n).getLsbD 0 = decide (n.kind = .internal)) ∧ ∀ n, (word0 n).extractLsb' 0 8 = n.minSym := by
  rintro ⟨word0, hkind, hsym⟩
  let n : Node := ⟨.internal, 0, 0, 0, 0⟩
  have hbit := congrArg (BitVec.getLsbD · 0) (hsym n)
  rw [BitVec.getLsbD_extractLsb', hkind n] at hbit
  exact absurd hbit (by decide)

end Sys2Proof.Machine
end

