-- ==== Sys2Proof/Laws/Depths.lean ====
section
/-! SUPPORT. What BUILD's tree is (42 R142) and what EXTRACT's traversal answers on it (42 R145, R147). -/

namespace Sys2Proof.Machine

variable {freq : Table (BitVec 32)}

/-- 42 R142: n = 2k − 1. -/
theorem treeNodes_length (h : countedSyms freq ≠ []) :
    (treeNodes freq).length = 2 * (countedSyms freq).length - 1 := by
  obtain ⟨root, -, hinv, -⟩ := buildTree_inv h
  have := hinv.count
  simp only [List.length_cons, List.length_nil] at this
  omega

theorem countedSyms_pos (h : countedSyms freq ≠ []) : 0 < (countedSyms freq).length :=
  List.length_pos_iff.2 h

theorem treeNodes_length_le (h : countedSyms freq ≠ []) : (treeNodes freq).length ≤ 511 := by
  have := treeNodes_length h
  have := countedSyms_length_le freq
  omega

theorem treeNodes_ne_nil (h : countedSyms freq ≠ []) : 0 < (treeNodes freq).length := by
  have := treeNodes_length h
  have := countedSyms_pos h
  omega

/-- 42 R142: the root index is 2k − 2, the last one. -/
theorem treeRoot_eq (h : countedSyms freq ≠ []) : treeRoot freq = (treeNodes freq).length - 1 := by
  obtain ⟨root, hq, hinv, -⟩ := buildTree_inv h
  have hpos := treeNodes_ne_nil h
  have hlast : Available (treeNodes freq) (treeNodes freq).length ((treeNodes freq).length - 1) := by
    refine ⟨by omega, fun p hp hc => ?_⟩
    have := isChild_lt hinv.ok hc
    omega
  have := (hinv.available _).2 hlast
  simp only [List.map_cons, List.map_nil, List.mem_singleton] at this
  simp only [treeRoot, hq]
  exact this.symm

/-- The tree at the root has the counted symbols as its leaves, each once. -/
theorem treeRoot_rep (h : countedSyms freq ≠ []) :
    ∃ t, Rep (treeNodes freq) (treeRoot freq) t ∧ t.leaves.Perm (countedSyms freq) := by
  obtain ⟨root, hq, hinv, -⟩ := buildTree_inv h
  obtain ⟨T, hT, hp⟩ := hinv.trees
  refine ⟨T root.1, ?_, by simpa using hp⟩
  have := hT root (by simp)
  simpa only [treeRoot, hq] using this

/-- What the traversal of 42 R145 answers on BUILD's tree: `leaves` lists each counted symbol once; for one
symbol its length is 1; for more, the depths are 1 … k − 1 and satisfy Kraft's equality (42 R147). -/
theorem leafDepths_tree (h : countedSyms freq ≠ []) :
    ∃ leaves, leafDepths (treeNodes freq) (treeRoot freq) = some leaves ∧
      (leaves.map Prod.fst).Perm (countedSyms freq) ∧
      (∀ x ∈ leaves, 1 ≤ x.2 ∧ x.2 ≤ 255) ∧
      ((countedSyms freq).length = 1 → ∀ x ∈ leaves, x.2 = 1) ∧
      (2 ≤ (countedSyms freq).length →
        (∀ x ∈ leaves, x.2 ≤ (countedSyms freq).length - 1) ∧
        (leaves.map fun x => (1 / 2 : ℚ) ^ x.2).sum = 1) := by
  obtain ⟨t, ht, hperm⟩ := treeRoot_rep h
  have hk := countedSyms_length_le freq
  have hlen := hperm.length_eq
  have hroot := treeRoot_eq h
  have hpos := treeNodes_ne_nil h
  cases ht with
  | leaf at_i kind =>
    rename_i n
    simp only [HTree.leaves, List.length_cons, List.length_nil] at hlen
    refine ⟨[(n.minSym, 1)], by simp [leafDepths, at_i, kind], by simpa [HTree.leaves] using hperm, by simp, by simp, ?_⟩
    intro h2
    omega
  | node at_i kind hl hr htl htr =>
    rename_i n l r
    have hwalk := walk_eq_depths (.node at_i kind hl hr htl htr) (fuel := (treeNodes freq).length) 0
      (by omega)
    have h1 := l.leaves_length_pos
    have h2 := r.leaves_length_pos
    simp only [HTree.leaves, List.length_append] at hlen
    have hb : ∀ x ∈ (HTree.node l r).depths 0, 1 ≤ x.2 ∧ x.2 ≤ (countedSyms freq).length - 1 := by
      intro x hx
      have hu := HTree.depth_le hx
      simp only [HTree.leaves, List.length_append] at hu
      simp only [HTree.depths, List.mem_append] at hx
      refine ⟨?_, by omega⟩
      rcases hx with hx | hx
      · exact HTree.le_depth hx
      · exact HTree.le_depth hx
    refine ⟨(HTree.node l r).depths 0, by simpa [leafDepths, at_i, kind] using hwalk, by simpa using hperm,
      ?_, ?_, ?_⟩
    · intro x hx
      have := hb x hx
      omega
    · intro h1'; omega
    · intro _
      exact ⟨fun x hx => (hb x hx).2, by simpa using HTree.kraft (.node l r) 0⟩

/-! ### Depths as levels below the root -/

/-- A level below a level below the root. -/
theorem AtDepth.trans {nodes : List Node} {r p i d e : Nat} (h : AtDepth nodes r p d) (g : AtDepth nodes p i e) :
    AtDepth nodes r i (d + e) := by
  induction g with
  | root => exact h
  | left _ hn hk ih => exact .left ih hn hk
  | right _ hn hk ih => exact .right ih hn hk

/-- Every leaf of the tree an index stands for is a Leaf of the arena at that depth. -/
theorem atDepth_of_mem_depths {nodes : List Node} {i : Nat} {t : HTree} (h : Rep nodes i t) :
    ∀ {d : Nat} {e : Sym × Nat}, e ∈ t.depths d →
      ∃ (j : Nat) (n : Node) (d' : Nat), AtDepth nodes i j d' ∧ nodes[j]? = some n ∧ n.kind = .leaf ∧
        n.minSym = e.1 ∧ e.2 = d + d' := by
  induction h with
  | leaf at_i kind =>
    intro d e he
    simp only [HTree.depths, List.mem_singleton] at he
    subst he
    exact ⟨_, _, 0, .root, at_i, kind, rfl, rfl⟩
  | node at_i kind _ _ _ _ ihl ihr =>
    intro d e he
    simp only [HTree.depths, List.mem_append] at he
    rcases he with he | he
    · obtain ⟨j, n, d', h1, h2, h3, h4, h5⟩ := ihl he
      exact ⟨j, n, 1 + d', AtDepth.trans (.left .root at_i kind) h1, h2, h3, h4, by omega⟩
    · obtain ⟨j, n, d', h1, h2, h3, h4, h5⟩ := ihr he
      exact ⟨j, n, 1 + d', AtDepth.trans (.right .root at_i kind) h1, h2, h3, h4, by omega⟩

/-- What stands below a level of a tree has its leaves among the tree's. -/
theorem depths_of_atDepth {nodes : List Node} {i : Nat} {t : HTree} (h : Rep nodes i t) {j d : Nat}
    (hd : AtDepth nodes i j d) : ∃ t', Rep nodes j t' ∧ ∀ e ∈ t'.depths d, e ∈ t.depths 0 := by
  induction hd with
  | root => exact ⟨t, h, fun _ he => he⟩
  | left _ hn hk ih =>
    obtain ⟨t', hr, hs⟩ := ih
    cases hr with
    | leaf at_i kind =>
      rw [hn] at at_i
      rw [← Option.some.inj at_i, hk] at kind
      exact absurd kind (by simp)
    | node at_i kind hl hr htl htr =>
      rw [hn] at at_i
      obtain rfl := Option.some.inj at_i
      exact ⟨_, htl, fun e he => hs e (by simp only [HTree.depths, List.mem_append]; exact .inl he)⟩
  | right _ hn hk ih =>
    obtain ⟨t', hr, hs⟩ := ih
    cases hr with
    | leaf at_i kind =>
      rw [hn] at at_i
      rw [← Option.some.inj at_i, hk] at kind
      exact absurd kind (by simp)
    | node at_i kind hl hr htl htr =>
      rw [hn] at at_i
      obtain rfl := Option.some.inj at_i
      exact ⟨_, htr, fun e he => hs e (by simp only [HTree.depths, List.mem_append]; exact .inr he)⟩

/-- What the traversal answers, read as levels of the arena: each Leaf with its depth, the single leaf with 1
(42 R145). -/
theorem mem_leafDepths (h : countedSyms freq ≠ []) {leaves : List (Sym × Nat)}
    (hl : leafDepths (treeNodes freq) (treeRoot freq) = some leaves) :
    (∀ (i : Nat) (n : Node) (d : Nat), AtDepth (treeNodes freq) (treeRoot freq) i d →
      (treeNodes freq)[i]? = some n → n.kind = .leaf →
      (n.minSym, if i = treeRoot freq then 1 else d) ∈ leaves) ∧
    (∀ e ∈ leaves, ∃ (i : Nat) (n : Node) (d : Nat), AtDepth (treeNodes freq) (treeRoot freq) i d ∧
      (treeNodes freq)[i]? = some n ∧ n.kind = .leaf ∧ n.minSym = e.1 ∧
      e.2 = if i = treeRoot freq then 1 else d) := by
  obtain ⟨t, ht, -⟩ := treeRoot_rep h
  have hroot := treeRoot_eq h
  have hpos := treeNodes_ne_nil h
  cases ht with
  | leaf at_i kind =>
    rename_i n
    obtain rfl : [(n.minSym, 1)] = leaves := by simpa [leafDepths, at_i, kind] using hl
    constructor
    · intro i m d hd hm hk
      obtain ⟨t', hr, hs⟩ := depths_of_atDepth (.leaf at_i kind) hd
      cases hr with
      | leaf at_j kj =>
        rw [hm] at at_j
        obtain rfl := Option.some.inj at_j
        have := hs (m.minSym, d) (by simp [HTree.depths])
        simp only [HTree.depths, List.mem_singleton, Prod.mk.injEq] at this
        have hi : i = treeRoot freq := by
          cases hd with
          | root => rfl
          | left => omega
          | right => omega
        simp [hi, this.1]
      | node at_j kj =>
        rw [hm] at at_j
        rw [← Option.some.inj at_j, hk] at kj
        exact absurd kj (by simp)
    · intro e he
      simp only [List.mem_singleton] at he
      subst he
      exact ⟨_, n, 0, .root, at_i, kind, rfl, by simp⟩
  | node at_i kind hlt hrt htl htr =>
    rename_i n l r
    have hwalk := walk_eq_depths (.node at_i kind hlt hrt htl htr) (fuel := (treeNodes freq).length) 0 (by omega)
    obtain rfl : (HTree.node l r).depths 0 = leaves := by simpa [leafDepths, at_i, kind, hwalk] using hl
    have hne : ∀ (i : Nat) (m : Node), (treeNodes freq)[i]? = some m → m.kind = .leaf → i ≠ treeRoot freq := by
      rintro i m hm hk rfl
      rw [at_i] at hm
      rw [← Option.some.inj hm, kind] at hk
      exact absurd hk (by simp)
    constructor
    · intro i m d hd hm hk
      obtain ⟨t', hr, hs⟩ := depths_of_atDepth (.node at_i kind hlt hrt htl htr) hd
      rw [if_neg (hne i m hm hk)]
      cases hr with
      | leaf at_j kj =>
        rw [hm] at at_j
        obtain rfl := Option.some.inj at_j
        exact hs _ (by simp [HTree.depths])
      | node at_j kj =>
        rw [hm] at at_j
        rw [← Option.some.inj at_j, hk] at kj
        exact absurd kj (by simp)
    · intro e he
      obtain ⟨j, m, d', h1, h2, h3, h4, h5⟩ := atDepth_of_mem_depths (.node at_i kind hlt hrt htl htr) he
      exact ⟨j, m, d', h1, h2, h3, h4, by rw [if_neg (hne j m h2 h3)]; omega⟩

/-! ### The length table EXTRACT writes -/

/-- The LEN table of a list of leaves (42 R144). -/
def lengthsOf (leaves : List (Sym × Nat)) : Table (BitVec 8) :=
  (depthTable leaves).mapEntries (BitVec.ofNat 8)

theorem lengthsOf_of_mem {leaves : List (Sym × Nat)} (hn : (leaves.map Prod.fst).Nodup) {x : Sym} {d : Nat}
    (hx : (x, d) ∈ leaves) (hd : d ≤ 255) : ((lengthsOf leaves).get x).toNat = d := by
  rw [lengthsOf, Table.get_mapEntries, depthTable_of_mem hn hx, BitVec.toNat_ofNat]
  omega

theorem lengthsOf_of_not_mem {leaves : List (Sym × Nat)} {x : Sym} (hx : x ∉ leaves.map Prod.fst) :
    (lengthsOf leaves).get x = 0 := by
  rw [lengthsOf, Table.get_mapEntries, depthTable_of_not_mem hx]
  rfl

theorem lengthSyms_eq (len : Table (BitVec 8)) : lengthSyms len = allSyms.filter fun s => decide (len.get s ≠ 0) :=
  Table.symsWith_eq _ len

theorem mem_lengthSyms {len : Table (BitVec 8)} {s : Sym} : s ∈ lengthSyms len ↔ len.get s ≠ 0 := by
  simp [lengthSyms_eq]

theorem nodup_lengthSyms (len : Table (BitVec 8)) : (lengthSyms len).Nodup := by
  rw [lengthSyms_eq]
  exact nodup_allSyms.filter _

/-- The symbols with a length are the leaves. -/
theorem lengthSyms_lengthsOf {leaves : List (Sym × Nat)} (hn : (leaves.map Prod.fst).Nodup)
    (hd : ∀ x ∈ leaves, 1 ≤ x.2 ∧ x.2 ≤ 255) : (lengthSyms (lengthsOf leaves)).Perm (leaves.map Prod.fst) := by
  refine (List.perm_ext_iff_of_nodup (nodup_lengthSyms _) hn).2 fun s => ?_
  rw [mem_lengthSyms]
  constructor
  · intro hne
    by_contra hs
    exact hne (lengthsOf_of_not_mem hs)
  · intro hs
    obtain ⟨⟨x, d⟩, hx, rfl⟩ := List.mem_map.1 hs
    intro h0
    have h1 := lengthsOf_of_mem hn hx (hd _ hx).2
    have h2 := (hd _ hx).1
    rw [h0] at h1
    simp at h1
    omega

/-- Kraft's sum of the length table is that of the leaves. -/
theorem kraftSum_lengthsOf {leaves : List (Sym × Nat)} (hn : (leaves.map Prod.fst).Nodup)
    (hd : ∀ x ∈ leaves, 1 ≤ x.2 ∧ x.2 ≤ 255) :
    kraftSum (lengthsOf leaves) = (leaves.map fun x => (1 / 2 : ℚ) ^ x.2).sum := by
  rw [kraftSum, ((lengthSyms_lengthsOf hn hd).map _).sum_eq, List.map_map]
  refine congrArg List.sum (List.map_congr_left ?_)
  rintro ⟨x, d⟩ hx
  simp only [Function.comp]
  rw [lengthsOf_of_mem hn hx (hd _ hx).2]

theorem depthTable_le {leaves : List (Sym × Nat)} (hn : (leaves.map Prod.fst).Nodup) {m : Nat}
    (h : ∀ x ∈ leaves, x.2 ≤ m) (x : Sym) : (depthTable leaves).get x ≤ m := by
  by_cases hx : x ∈ leaves.map Prod.fst
  · obtain ⟨⟨y, d⟩, hy, rfl⟩ := List.mem_map.1 hx
    rw [depthTable_of_mem hn hy]
    exact h _ hy
  · rw [depthTable_of_not_mem hx]
    exact Nat.zero_le _

end Sys2Proof.Machine
end

