-- ==== Sys2Proof/Laws/Codes.lean ====
section
/-! SUPPORT. What ASSIGN's loop answers (43 R171 – R173, R177): when it stops, and the codes it gives. -/

namespace Sys2Proof.Machine

/-! ### The sorted symbols (43 R171) -/

theorem sortedSymbols_perm (len : Table (BitVec 8)) : (sortedSymbols len).Perm (lengthSyms len) :=
  List.perm_insertionSort _ _

theorem mem_sortedSymbols {len : Table (BitVec 8)} {s : Sym} : s ∈ sortedSymbols len ↔ len.get s ≠ 0 :=
  (sortedSymbols_perm len).mem_iff.trans mem_lengthSyms

theorem nodup_sortedSymbols (len : Table (BitVec 8)) : (sortedSymbols len).Nodup :=
  (sortedSymbols_perm len).nodup_iff.2 (nodup_lengthSyms len)

theorem lengthLe_total (len : Table (BitVec 8)) (a b : Sym) : lengthLe len a b ∨ lengthLe len b a := by
  unfold lengthLe
  simp only [BitVec.lt_def, BitVec.le_def, ← BitVec.toNat_inj]
  omega

theorem lengthLe_trans (len : Table (BitVec 8)) (a b c : Sym) (h1 : lengthLe len a b) (h2 : lengthLe len b c) :
    lengthLe len a c := by
  unfold lengthLe at *
  simp only [BitVec.lt_def, BitVec.le_def, ← BitVec.toNat_inj] at *
  omega

theorem sortedSymbols_sorted (len : Table (BitVec 8)) : (sortedSymbols len).Pairwise (lengthLe len) := by
  have : Std.Total (lengthLe len) := ⟨lengthLe_total len⟩
  have : IsTrans Sym (lengthLe len) := ⟨lengthLe_trans len⟩
  exact List.pairwise_insertionSort _ _

theorem lengthLe_toNat {len : Table (BitVec 8)} {a b : Sym} (h : lengthLe len a b) :
    (len.get a).toNat ≤ (len.get b).toNat := by
  unfold lengthLe at h
  rcases h with h | ⟨h, -⟩
  · exact Nat.le_of_lt h
  · rw [h]

theorem sortedSymbols_lengths (len : Table (BitVec 8)) :
    (sortedSymbols len).Pairwise fun a b => (len.get a).toNat ≤ (len.get b).toNat :=
  (sortedSymbols_sorted len).imp lengthLe_toNat

theorem kraftSum_sorted (len : Table (BitVec 8)) :
    kraftSum len = ((sortedSymbols len).map fun x => (1 / 2 : ℚ) ^ (len.get x).toNat).sum :=
  (((sortedSymbols_perm len).map _).sum_eq).symm

/-! ### The loop (43 R172) -/

theorem shiftedCode_eq {code cur l : Nat} (h : cur ≤ l) : shiftedCode code cur l = code * 2 ^ (l - cur) := by
  unfold shiftedCode
  split
  · exact Nat.shiftLeft_eq _ _
  · rw [show l - cur = 0 by omega]
    simp

theorem shiftedCode_div {code cur l : Nat} (h : cur ≤ l) :
    ((shiftedCode code cur l : Nat) : ℚ) / 2 ^ l = (code : ℚ) / 2 ^ cur := by
  rw [shiftedCode_eq h]
  obtain ⟨d, rfl⟩ := Nat.exists_eq_add_of_le h
  rw [Nat.add_sub_cancel_left]
  push_cast
  rw [pow_add, mul_div_mul_right _ _ (by positivity)]

/-- 43 R173: the loop stops with OVERSUBSCRIBED exactly when Kraft's sum exceeds 1. -/
theorem assignLoop_eq_none {len : Table (BitVec 8)} {syms : List Sym} {code cur : Nat}
    {clen : Table (BitVec 8)} {codes : Table (BitVec 256)}
    (hs : syms.Pairwise fun a b => (len.get a).toNat ≤ (len.get b).toNat)
    (hcur : ∀ x ∈ syms, cur ≤ (len.get x).toNat) (hcode : code ≤ 2 ^ cur) :
    assignLoop len syms code cur clen codes = none ↔
      1 < (code : ℚ) / 2 ^ cur + (syms.map fun x => (1 / 2 : ℚ) ^ (len.get x).toNat).sum := by
  induction syms generalizing code cur clen codes with
  | nil =>
    have : (code : ℚ) / 2 ^ cur ≤ 1 := by
      rw [div_le_one (by positivity)]
      exact_mod_cast hcode
    simp [assignLoop, this]
  | cons s rest ih =>
    have hp := List.pairwise_cons.1 hs
    have hl : cur ≤ (len.get s).toNat := hcur s (by simp)
    have hdiv := shiftedCode_div (code := code) hl
    have hle : shiftedCode code cur (len.get s).toNat ≤ 2 ^ (len.get s).toNat := by
      rw [shiftedCode_eq hl]
      calc code * 2 ^ ((len.get s).toNat - cur) ≤ 2 ^ cur * 2 ^ ((len.get s).toNat - cur) :=
            Nat.mul_le_mul_right _ hcode
        _ = 2 ^ (len.get s).toNat := by rw [← pow_add, Nat.add_sub_cancel' hl]
    simp only [assignLoop, List.map_cons, List.sum_cons]
    rw [← hdiv]
    generalize shiftedCode code cur (len.get s).toNat = c at *
    have hpow : (0 : ℚ) < 2 ^ (len.get s).toNat := by positivity
    have hinv : (1 / 2 : ℚ) ^ (len.get s).toNat = 1 / 2 ^ (len.get s).toNat := by
      rw [div_pow, one_pow]
    split
    · rename_i hge
      have hc : c = 2 ^ (len.get s).toNat := le_antisymm hle hge
      have h1 : ((c : Nat) : ℚ) / 2 ^ (len.get s).toNat = 1 := by
        rw [hc]; push_cast; exact div_self hpow.ne'
      have hnn : (0 : ℚ) ≤ (rest.map fun x => (1 / 2 : ℚ) ^ (len.get x).toNat).sum := by
        apply List.sum_nonneg
        intro y hy
        obtain ⟨x, -, rfl⟩ := List.mem_map.1 hy
        positivity
      rw [h1]
      have : (0 : ℚ) < (1 / 2) ^ (len.get s).toNat := by positivity
      constructor
      · intro _; linarith
      · intro _; rfl
    · rename_i hlt
      have hmax : max cur (len.get s).toNat = (len.get s).toNat := max_eq_right hl
      rw [hmax, ih hp.2 hp.1 (by omega), hinv]
      push_cast
      rw [add_div, add_assoc]

/-- What the loop leaves alone, and what it gives each symbol: its length; a code that fits; codes that leave
room for every earlier codeword's extensions (so the code is prefix-free and increasing); and the value
`2^L · (partial Kraft sum)` of 43 R173. -/
theorem assignLoop_eq_some {len : Table (BitVec 8)} {syms : List Sym} {code cur : Nat}
    {clen clen' : Table (BitVec 8)} {codes codes' : Table (BitVec 256)}
    (hs : syms.Pairwise fun a b => (len.get a).toNat ≤ (len.get b).toNat)
    (hcur : ∀ x ∈ syms, cur ≤ (len.get x).toNat) (hn : syms.Nodup)
    (h : assignLoop len syms code cur clen codes = some (clen', codes')) :
    (∀ x, x ∉ syms → clen'.get x = clen.get x ∧ codes'.get x = codes.get x) ∧
    (∀ x ∈ syms, clen'.get x = len.get x ∧ (codes'.get x).toNat < 2 ^ (len.get x).toNat ∧
      code * 2 ^ ((len.get x).toNat - cur) ≤ (codes'.get x).toNat) ∧
    (syms.Pairwise fun x y => ((codes'.get x).toNat + 1) * 2 ^ ((len.get y).toNat - (len.get x).toNat) ≤
      (codes'.get y).toNat) ∧
    (∀ pre x post, syms = pre ++ x :: post →
      ((codes'.get x).toNat : ℚ) = 2 ^ (len.get x).toNat *
        ((code : ℚ) / 2 ^ cur + (pre.map fun y => (1 / 2 : ℚ) ^ (len.get y).toNat).sum)) := by
  induction syms generalizing code cur clen codes with
  | nil =>
    simp only [assignLoop, Option.some.injEq, Prod.mk.injEq] at h
    obtain ⟨rfl, rfl⟩ := h
    refine ⟨fun x _ => ⟨rfl, rfl⟩, by simp, List.Pairwise.nil, ?_⟩
    intro pre x post he
    exact absurd he (by simp)
  | cons s rest ih =>
    have hp := List.pairwise_cons.1 hs
    have hnd := List.nodup_cons.1 hn
    have hl : cur ≤ (len.get s).toNat := hcur s (by simp)
    have hdiv := shiftedCode_div (code := code) hl
    have hmul := shiftedCode_eq (code := code) hl
    simp only [assignLoop] at h
    generalize hc : shiftedCode code cur (len.get s).toNat = c at *
    split at h
    · exact absurd h (by simp)
    rename_i hlt
    have hlt' : c < 2 ^ (len.get s).toNat := by omega
    have hmax : max cur (len.get s).toNat = (len.get s).toNat := max_eq_right hl
    rw [hmax] at h
    obtain ⟨hout, hin, hpw, hval⟩ := ih hp.2 hp.1 hnd.2 h
    have hfit : (BitVec.ofNat 256 c).toNat = c := by
      rw [BitVec.toNat_ofNat]
      apply Nat.mod_eq_of_lt
      calc c < 2 ^ (len.get s).toNat := hlt'
        _ ≤ 2 ^ 256 := Nat.pow_le_pow_right (by norm_num) (by have := (len.get s).isLt; omega)
    have hs1 : clen'.get s = len.get s := by
      rw [(hout s hnd.1).1, Table.get_set, if_pos rfl]
    have hs2 : (codes'.get s).toNat = c := by
      rw [(hout s hnd.1).2, Table.get_set, if_pos rfl, hfit]
    refine ⟨?_, ?_, ?_, ?_⟩
    · intro x hx
      simp only [List.mem_cons, not_or] at hx
      have hne : s ≠ x := fun e => hx.1 e.symm
      have := hout x hx.2
      simpa [hne] using this
    · intro x hx
      rcases List.mem_cons.1 hx with rfl | hx
      · exact ⟨hs1, by rw [hs2]; exact hlt', by rw [hs2, hmul]⟩
      · obtain ⟨h1, h2, h3⟩ := hin x hx
        refine ⟨h1, h2, le_trans ?_ h3⟩
        have hlx := hp.1 x hx
        calc code * 2 ^ ((len.get x).toNat - cur)
            = c * 2 ^ ((len.get x).toNat - (len.get s).toNat) := by
              rw [hmul, mul_assoc, ← pow_add]
              congr 2
              omega
          _ ≤ (c + 1) * 2 ^ ((len.get x).toNat - (len.get s).toNat) :=
              Nat.mul_le_mul_right _ (Nat.le_succ c)
    · refine List.pairwise_cons.2 ⟨?_, hpw⟩
      intro y hy
      rw [hs2]
      exact (hin y hy).2.2
    · intro pre x post he
      cases pre with
      | nil =>
        simp only [List.nil_append, List.cons.injEq] at he
        obtain ⟨rfl, -⟩ := he
        rw [hs2]
        simp only [List.map_nil, List.sum_nil, add_zero]
        rw [← hdiv, mul_div_cancel₀]
        positivity
      | cons p pre =>
        simp only [List.cons_append, List.cons.injEq] at he
        obtain ⟨rfl, he⟩ := he
        rw [hval pre x post he]
        congr 1
        simp only [List.map_cons, List.sum_cons]
        rw [← hdiv, ← add_assoc]
        congr 1
        push_cast
        rw [add_div, div_pow, one_pow]

/-! ### The whole assignment -/

theorem canonicalAssign_eq_none {len : Table (BitVec 8)} :
    canonicalAssign len (sortedSymbols len) = none ↔ 1 < kraftSum len := by
  rw [kraftSum_sorted]
  have hs := sortedSymbols_lengths len
  cases hS : sortedSymbols len with
  | nil => simp [canonicalAssign]
  | cons s rest =>
    rw [hS] at hs
    have hp := List.pairwise_cons.1 hs
    simp only [canonicalAssign]
    rw [assignLoop_eq_none hs ?_ (by simp)]
    · simp
    · intro x hx
      rcases List.mem_cons.1 hx with rfl | hx
      · exact le_refl _
      · exact hp.1 x hx

/-- The tables of an accepted assignment (43 R170 – R173, R177). -/
theorem canonicalAssign_eq_some {len clen : Table (BitVec 8)} {code : Table (BitVec 256)}
    (h : canonicalAssign len (sortedSymbols len) = some (clen, code)) :
    clen = len ∧ (∀ x, len.get x = 0 → code.get x = 0) ∧
    (∀ x, (code.get x).toNat < 2 ^ (len.get x).toNat) ∧
    ((sortedSymbols len).Pairwise fun x y =>
      ((code.get x).toNat + 1) * 2 ^ ((len.get y).toNat - (len.get x).toNat) ≤ (code.get y).toNat) ∧
    (∀ pre x post, sortedSymbols len = pre ++ x :: post →
      ((code.get x).toNat : ℚ) =
        2 ^ (len.get x).toNat * (pre.map fun y => (1 / 2 : ℚ) ^ (len.get y).toNat).sum) := by
  have hs := sortedSymbols_lengths len
  have hn := nodup_sortedSymbols len
  have hmem := fun s => mem_sortedSymbols (len := len) (s := s)
  cases hS : sortedSymbols len with
  | nil =>
    rw [hS] at h hmem
    simp only [canonicalAssign, Option.some.injEq, Prod.mk.injEq] at h
    obtain ⟨rfl, rfl⟩ := h
    have hz : ∀ x, len.get x = 0 := fun x => by
      by_contra hx
      exact absurd ((hmem x).2 hx) (by simp)
    refine ⟨Table.ext_get fun x => by simp [hz x], fun x _ => by simp, fun x => by simp, List.Pairwise.nil, ?_⟩
    intro pre x post he
    exact absurd he (by simp)
  | cons s rest =>
    rw [hS] at h hs hn hmem
    simp only [canonicalAssign] at h
    have hp := List.pairwise_cons.1 hs
    have hcur : ∀ x ∈ s :: rest, (len.get s).toNat ≤ (len.get x).toNat := by
      intro x hx
      rcases List.mem_cons.1 hx with rfl | hx
      · exact le_refl _
      · exact hp.1 x hx
    obtain ⟨hout, hin, hpw, hval⟩ := assignLoop_eq_some hs hcur hn h
    have hzero : ∀ x, len.get x = 0 → x ∉ s :: rest := fun x hx hm => (hmem x).1 hm hx
    refine ⟨?_, ?_, ?_, hpw, ?_⟩
    · apply Table.ext_get
      intro x
      by_cases hx : x ∈ s :: rest
      · exact (hin x hx).1
      · rw [(hout x hx).1, Table.get_fill]
        by_contra h0
        exact hx ((hmem x).2 fun e => h0 e.symm)
    · intro x hx
      rw [(hout x (hzero x hx)).2, Table.get_fill]
    · intro x
      by_cases hx : x ∈ s :: rest
      · exact (hin x hx).2.1
      · rw [(hout x hx).2, Table.get_fill]
        simp
    · intro pre x post he
      simpa using hval pre x post he

end Sys2Proof.Machine
end

