-- ==== Sys2Proof/Laws/Memory.lean ====
section
/-! SUPPORT. Laws of the byte buffers: read after write, the canonical form and the capacity are kept, equal
contents are equal data. -/

namespace Sys2Proof.Machine

@[simp] theorem Memory.read_nil (i : Nat) : Memory.read [] i = none := rfl

theorem Memory.read_cons (k : Nat) (b : Byte) (m : Memory) (i : Nat) :
    Memory.read ((k, b) :: m) i = if k = i then some b else Memory.read m i := rfl

theorem Memory.read_write (m : Memory) (i j : Nat) (b : Byte) :
    (Memory.write m i b).read j = if i = j then some b else Memory.read m j := by
  induction m with
  | nil => simp [Memory.write, Memory.read_cons]
  | cons c m ih =>
    obtain ⟨k, c⟩ := c
    simp only [Memory.write]
    split
    · simp [Memory.read_cons]
    · split
      · subst_vars
        simp only [Memory.read_cons]
        split <;> rfl
      · simp only [Memory.read_cons, ih]
        split <;> split <;> simp_all

@[simp] theorem Memory.read_write_same (m : Memory) (i : Nat) (b : Byte) :
    (Memory.write m i b).read i = some b := by
  simp [Memory.read_write]

theorem Memory.read_write_other (m : Memory) {i j : Nat} (b : Byte) (h : i ≠ j) :
    (Memory.write m i b).read j = Memory.read m j := by
  simp [Memory.read_write, h]

theorem Memory.mem_write {m : Memory} {i : Nat} {b : Byte} {c : Host.Cell}
    (h : c ∈ Memory.write m i b) : c = (i, b) ∨ c ∈ m := by
  induction m with
  | nil => simpa [Memory.write] using h
  | cons d m ih =>
    obtain ⟨k, d⟩ := d
    simp only [Memory.write] at h
    split at h
    · simpa using h
    · split at h
      · simp at h; tauto
      · rcases List.mem_cons.1 h with h | h
        · simp [h]
        · rcases ih h with h | h <;> simp [h]

/-- A write keeps the canonical form. -/
theorem Memory.wf_write {m : Memory} (h : m.wf) (i : Nat) (b : Byte) : (Memory.write m i b).wf := by
  induction m with
  | nil => simp [Memory.write]
  | cons c m ih =>
    obtain ⟨k, c⟩ := c
    have hc := List.pairwise_cons.1 h
    simp only [Memory.write]
    split
    · rename_i hik
      refine List.pairwise_cons.2 ⟨?_, h⟩
      intro x hx
      rcases List.mem_cons.1 hx with rfl | hx
      · exact hik
      · exact hik.trans (hc.1 x hx)
    · split
      · subst_vars
        exact List.pairwise_cons.2 ⟨hc.1, hc.2⟩
      · rename_i h1 h2
        refine List.pairwise_cons.2 ⟨?_, ih hc.2⟩
        intro x hx
        rcases Memory.mem_write hx with rfl | hx
        · show k < i
          omega
        · exact hc.1 x hx

theorem Memory.within_write {m : Memory} {n : Nat} (h : m.within n) {i : Nat} (hi : i < n) (b : Byte) :
    (Memory.write m i b).within n := by
  intro c hc
  rcases Memory.mem_write hc with rfl | hc
  · exact hi
  · exact h c hc

theorem Memory.wf_writeFrom {m : Memory} (h : m.wf) (i : Nat) (bytes : List Byte) :
    (Memory.writeFrom m i bytes).wf := by
  induction bytes generalizing m i with
  | nil => exact h
  | cons b rest ih => exact ih (Memory.wf_write h i b) (i + 1)

theorem Memory.within_writeFrom {m : Memory} {n : Nat} (h : m.within n) (i : Nat) (bytes : List Byte)
    (hi : i + bytes.length ≤ n) : (Memory.writeFrom m i bytes).within n := by
  induction bytes generalizing m i with
  | nil => exact h
  | cons b rest ih =>
    simp only [List.length_cons] at hi
    exact ih (Memory.within_write h (by omega) b) (i + 1) (by omega)

/-- What a run of writes leaves in each entry. -/
theorem Memory.read_writeFrom (m : Memory) (i : Nat) (bytes : List Byte) (j : Nat) :
    (Memory.writeFrom m i bytes).read j =
      if i ≤ j ∧ j < i + bytes.length then bytes[j - i]? else Memory.read m j := by
  induction bytes generalizing m i with
  | nil => simp [Memory.writeFrom]
  | cons b rest ih =>
    simp only [Memory.writeFrom, ih, Memory.read_write, List.length_cons]
    by_cases hj : i = j
    · subst hj; simp
    · by_cases h1 : i + 1 ≤ j ∧ j < i + 1 + rest.length
      · rw [if_pos h1, if_pos (by omega)]
        obtain ⟨d, hd⟩ : ∃ d, j - i = d + 1 := ⟨j - i - 1, by omega⟩
        rw [hd, List.getElem?_cons_succ]
        congr 1
        omega
      · rw [if_neg h1, if_neg hj, if_neg (by omega)]

theorem Memory.read_eq_none_of_lt {m : Memory} {i : Nat} (h : ∀ c ∈ m, i < c.1) : m.read i = none := by
  induction m with
  | nil => rfl
  | cons c m ih =>
    obtain ⟨k, c⟩ := c
    have hk : i < k := h (k, c) (by simp)
    rw [Memory.read_cons, if_neg (by omega)]
    exact ih fun c hc => h c (by simp [hc])

/-- Equal contents are equal data: the canonical form is unique. -/
theorem Memory.ext_read {m n : Memory} (hm : m.wf) (hn : n.wf) (h : ∀ i, m.read i = n.read i) : m = n := by
  induction m generalizing n with
  | nil =>
    cases n with
    | nil => rfl
    | cons c n =>
      obtain ⟨k, c⟩ := c
      have := h k
      simp [Memory.read_cons] at this
  | cons c m ih =>
    obtain ⟨k, c⟩ := c
    have hm' := List.pairwise_cons.1 hm
    cases n with
    | nil =>
      have := h k
      simp [Memory.read_cons] at this
    | cons d n =>
      obtain ⟨l, d⟩ := d
      have hn' := List.pairwise_cons.1 hn
      have hkl : k = l := by
        rcases Nat.lt_trichotomy k l with hlt | heq | hgt
        · have := h k
          rw [Memory.read_cons, if_pos rfl, Memory.read_cons, if_neg (by omega),
            Memory.read_eq_none_of_lt fun c hc => hlt.trans (hn'.1 c hc)] at this
          exact absurd this (by simp)
        · exact heq
        · have := h l
          rw [Memory.read_cons, if_neg (by omega), Memory.read_cons, if_pos rfl,
            Memory.read_eq_none_of_lt fun c hc => Nat.lt_trans hgt (hm'.1 c hc)] at this
          exact absurd this (by simp)
      subst hkl
      have hcd : c = d := by
        have := h k
        simpa [Memory.read_cons] using this
      subst hcd
      congr 1
      refine ih hm'.2 hn'.2 fun i => ?_
      have := h i
      by_cases hi : k = i
      · subst hi
        rw [Memory.read_eq_none_of_lt fun c hc => hm'.1 c hc,
          Memory.read_eq_none_of_lt fun c hc => hn'.1 c hc]
      · simpa [Memory.read_cons, hi] using this

/-- What reading a range of entries answers: every one of them, or nothing. -/
theorem Memory.readFrom_eq_some {m : Memory} {i n : Nat} {l : List Byte} :
    m.readFrom i n = some l ↔ l.length = n ∧ ∀ j, j < n → m.read (i + j) = l[j]? := by
  induction n generalizing i l with
  | zero =>
    simp only [Memory.readFrom, Option.some.injEq]
    constructor
    · rintro rfl; simp
    · rintro ⟨h, -⟩; exact (List.length_eq_zero_iff.1 h).symm
  | succ n ih =>
    simp only [Memory.readFrom]
    constructor
    · intro h
      split at h
      · rename_i b rest hb hrest
        simp only [Option.some.injEq] at h
        subst h
        obtain ⟨h1, h2⟩ := ih.1 hrest
        refine ⟨by simp [h1], fun j hj => ?_⟩
        cases j with
        | zero => simpa using hb
        | succ j =>
          have := h2 j (by omega)
          simpa [Nat.add_assoc, Nat.add_comm 1 j] using this
      · exact absurd h (by simp)
    · rintro ⟨h1, h2⟩
      cases l with
      | nil => simp at h1
      | cons b rest =>
        have h0 := h2 0 (by omega)
        have hr : m.readFrom (i + 1) n = some rest := by
          refine ih.2 ⟨by simpa using h1, fun j hj => ?_⟩
          have := h2 (j + 1) (by omega)
          simpa [Nat.add_assoc, Nat.add_comm 1 j] using this
        simp at h0
        simp [h0, hr]

theorem Memory.readFrom_eq_none {m : Memory} {i n : Nat} :
    m.readFrom i n = none ↔ ∃ j, j < n ∧ m.read (i + j) = none := by
  induction n generalizing i with
  | zero => simp [Memory.readFrom]
  | succ n ih =>
    simp only [Memory.readFrom]
    constructor
    · intro h
      split at h
      · exact absurd h (by simp)
      · rename_i hno
        cases hb : m.read i with
        | none => exact ⟨0, by omega, by simpa using hb⟩
        | some b =>
          cases hr : Memory.readFrom m (i + 1) n with
          | some rest => exact absurd hr (hno b rest hb)
          | none =>
            obtain ⟨j, hj, hjn⟩ := ih.1 hr
            exact ⟨j + 1, by omega, by rw [← hjn]; congr 1; omega⟩
    · rintro ⟨j, hj, hjn⟩
      cases j with
      | zero => simp at hjn; simp [hjn]
      | succ j =>
        have : Memory.readFrom m (i + 1) n = none :=
          ih.2 ⟨j, by omega, by rw [← hjn]; congr 1; omega⟩
        simp [this]

end Sys2Proof.Machine
end

