-- ==== Sys2Proof/Laws/PerInstr.lean ====
section
/-! SUPPORT. The per-instruction family RoundTrip: what holds of every command as syntax (30_encoding R90 – R94). -/

namespace Sys2Proof.Laws.RoundTrip

/-- The command is well-formed, its word is well-formed with RSV = 0 and OP its opcode, the decoder reads the word
back as the command, and so does the decoder of opcode-table rows. -/
def Statement (i : Instr) : Prop :=
  i.wellFormed = true ∧ (CommandWord.ofWord (encode i)).wellFormed = true ∧
    CommandWord.ofWord (encode i) = { op := i.opcode, rsv := 0 } ∧ decode (encode i) = .ok i ∧
    decodeTableWord 32 (encode i).toNat = some i

theorem clear : Statement .clear := by
  unfold Statement
  decide

theorem count : Statement .count := by
  unfold Statement
  decide

theorem build : Statement .build := by
  unfold Statement
  decide

theorem extract : Statement .extract := by
  unfold Statement
  decide

theorem assign : Statement .assign := by
  unfold Statement
  decide

theorem encode : Statement .encode := by
  unfold Statement
  decide

theorem run : Statement .run := by
  unfold Statement
  decide

end Sys2Proof.Laws.RoundTrip
end

