-- ==== Sys2Proof/Laws/Stream.lean ====
section
/-! SUPPORT. Codewords, packing and decoding (43 R174, R177; 44 R190 – R196). -/

namespace Sys2Proof.Machine

variable {clen : Table (BitVec 8)} {code : Table (BitVec 256)}

/-! ### Codewords -/

@[simp] theorem codeword_length (x : Sym) : (codeword clen code x).length = (clen.get x).toNat := by
  simp [codeword]

theorem codeword_getElem {x : Sym} {j : Nat} (hj : j < (codeword clen code x).length) :
    (codeword clen code x)[j] = (code.get x).getLsbD ((clen.get x).toNat - 1 - j) := by
  simp [codeword]

theorem codeword_eq_nil {x : Sym} (h : codeword clen code x = []) : clen.get x = 0 := by
  have := congrArg List.length h
  rw [codeword_length, List.length_nil] at this
  exact BitVec.eq_of_toNat_eq (by simpa using this)

/-- A codeword that begins another is the other's leading bits, as a number. -/
theorem code_div_of_prefix {x y : Sym} (hx : (code.get x).toNat < 2 ^ (clen.get x).toNat)
    (hy : (code.get y).toNat < 2 ^ (clen.get y).toNat) (h : codeword clen code x <+: codeword clen code y) :
    (code.get y).toNat / 2 ^ ((clen.get y).toNat - (clen.get x).toNat) = (code.get x).toNat := by
  have hle : (clen.get x).toNat ≤ (clen.get y).toNat := by simpa using h.length_le
  apply Nat.eq_of_testBit_eq
  intro i
  rw [Nat.testBit_div_two_pow]
  by_cases hi : i < (clen.get x).toNat
  · have hj : (clen.get x).toNat - 1 - i < (codeword clen code x).length := by simp; omega
    have hb := h.getElem hj
    rw [codeword_getElem, codeword_getElem] at hb
    rw [show (clen.get x).toNat - 1 - ((clen.get x).toNat - 1 - i) = i by omega,
      show (clen.get y).toNat - 1 - ((clen.get x).toNat - 1 - i) =
        i + ((clen.get y).toNat - (clen.get x).toNat) by omega] at hb
    exact hb.symm
  · have h1 : (code.get x).toNat < 2 ^ i := lt_of_lt_of_le hx (Nat.pow_le_pow_right (by norm_num) (by omega))
    have h2 : (code.get y).toNat < 2 ^ (i + ((clen.get y).toNat - (clen.get x).toNat)) :=
      lt_of_lt_of_le hy (Nat.pow_le_pow_right (by norm_num) (by omega))
    rw [Nat.testBit_lt_two_pow h1, Nat.testBit_lt_two_pow h2]

/-- 43 R177 (a): codes that leave room for every earlier codeword's extensions are prefix-free. -/
theorem prefixFree_of_gaps {syms : List Sym}
    (hmem : ∀ x, clen.get x ≠ 0 → x ∈ syms)
    (hs : syms.Pairwise fun a b => (clen.get a).toNat ≤ (clen.get b).toNat)
    (hlt : ∀ x, (code.get x).toNat < 2 ^ (clen.get x).toNat)
    (hgap : syms.Pairwise fun x y =>
      ((code.get x).toNat + 1) * 2 ^ ((clen.get y).toNat - (clen.get x).toNat) ≤ (code.get y).toNat) :
    PrefixFree clen code := by
  have key : ∀ x y, (clen.get x).toNat ≤ (clen.get y).toNat →
      ((code.get x).toNat + 1) * 2 ^ ((clen.get y).toNat - (clen.get x).toNat) ≤ (code.get y).toNat →
      ¬codeword clen code x <+: codeword clen code y ∧ ¬codeword clen code y <+: codeword clen code x := by
    intro x y hl hg
    have h1 : ¬codeword clen code x <+: codeword clen code y := by
      intro h
      have hd := code_div_of_prefix (hlt x) (hlt y) h
      have := (Nat.le_div_iff_mul_le (by positivity)).2 hg
      omega
    refine ⟨h1, fun h => h1 ?_⟩
    have hlen : (codeword clen code y).length = (codeword clen code x).length := by
      have := h.length_le
      simp at this
      simp
      omega
    rw [h.eq_of_length hlen]
  intro x y hne hx hy
  obtain ⟨i, hi, rfl⟩ := List.getElem_of_mem (hmem x hx)
  obtain ⟨j, hj, rfl⟩ := List.getElem_of_mem (hmem y hy)
  rcases Nat.lt_trichotomy i j with h | h | h
  · exact (key _ _ (List.pairwise_iff_getElem.1 hs i j hi hj h) (List.pairwise_iff_getElem.1 hgap i j hi hj h)).1
  · subst h; exact absurd rfl hne
  · exact (key _ _ (List.pairwise_iff_getElem.1 hs j i hj hi h) (List.pairwise_iff_getElem.1 hgap j i hj hi h)).2

theorem canonicalAssign_prefixFree {len : Table (BitVec 8)}
    (h : canonicalAssign len (sortedSymbols len) = some (clen, code)) : PrefixFree clen code := by
  obtain ⟨rfl, -, hlt, hgap, -⟩ := canonicalAssign_eq_some h
  exact prefixFree_of_gaps (fun x hx => mem_sortedSymbols.2 hx) (sortedSymbols_lengths _) hlt hgap

/-! ### Packing (44 R192, R193) -/

@[simp] theorem padded_length (bits : List Bool) : (padded bits).length = 8 * byteCount bits.length := by
  simp only [padded, List.length_append, List.length_replicate, byteCount]
  omega

@[simp] theorem packedBytes_length (bits : List Bool) : (packedBytes bits).length = byteCount bits.length := by
  simp [packedBytes]

theorem padded_getD (bits : List Bool) (j : Nat) : (padded bits).getD j false = bits.getD j false := by
  simp only [padded, List.getD_eq_getElem?_getD]
  by_cases h : j < bits.length
  · rw [List.getElem?_append_left h]
  · rw [List.getElem?_append_right (by omega), List.getElem?_eq_none (l := bits) (by omega),
      List.getElem?_replicate]
    split <;> rfl

theorem byte_of_bits : ∀ b0 b1 b2 b3 b4 b5 b6 b7 : Bool, ∀ j : Fin 8,
    (BitVec.ofNat 8 ([if b0 then 2 ^ 7 else 0, if b1 then 2 ^ 6 else 0, if b2 then 2 ^ 5 else 0,
      if b3 then 2 ^ 4 else 0, if b4 then 2 ^ 3 else 0, if b5 then 2 ^ 2 else 0, if b6 then 2 ^ 1 else 0,
      if b7 then 2 ^ 0 else 0].sum)).getLsbD (7 - j.val) = [b0, b1, b2, b3, b4, b5, b6, b7].getD j.val false := by
  decide +kernel

/-- Bit 7 − j of the packed byte b is bit 8b + j of the stream (44 R192). -/
theorem packByte_getLsbD (bits : List Bool) (b j : Nat) (hj : j < 8) :
    (packByte bits b).getLsbD (7 - j) = bits.getD (8 * b + j) false := by
  have h := byte_of_bits (bits.getD (8 * b + 0) false) (bits.getD (8 * b + 1) false)
    (bits.getD (8 * b + 2) false) (bits.getD (8 * b + 3) false) (bits.getD (8 * b + 4) false)
    (bits.getD (8 * b + 5) false) (bits.getD (8 * b + 6) false) (bits.getD (8 * b + 7) false) ⟨j, hj⟩
  have hr : List.range 8 = [0, 1, 2, 3, 4, 5, 6, 7] := by decide
  rw [packByte, hr]
  refine h.trans ?_
  have : j = 0 ∨ j = 1 ∨ j = 2 ∨ j = 3 ∨ j = 4 ∨ j = 5 ∨ j = 6 ∨ j = 7 := by omega
  rcases this with rfl | rfl | rfl | rfl | rfl | rfl | rfl | rfl <;> rfl

theorem mapM_eq_some_map {α β : Type} {f : α → Option β} {g : α → β} {l : List α}
    (h : ∀ x ∈ l, f x = some (g x)) : l.mapM f = some (l.map g) := by
  induction l with
  | nil => rfl
  | cons x rest ih =>
    rw [List.mapM_cons, h x (by simp), ih fun y hy => h y (by simp [hy])]
    rfl

/-- A host reads back from OUT the very bits ENCODE packed (20_memory R73, 44 R192). -/
theorem streamBits_writeFrom (m : Memory) (bits : List Bool) :
    streamBits (m.writeFrom 0 (packedBytes bits)) bits.length = some bits := by
  have h : ∀ j ∈ List.range bits.length,
      streamBit (m.writeFrom 0 (packedBytes bits)) j = some (bits.getD j false) := by
    intro j hj
    rw [List.mem_range] at hj
    have hb : j / 8 < byteCount bits.length := by unfold byteCount; omega
    rw [streamBit, Memory.read_writeFrom, if_pos (by simpa using hb)]
    simp only [packedBytes, Nat.sub_zero, List.getElem?_map, List.getElem?_range hb, Option.map_some]
    rw [packByte_getLsbD _ _ _ (Nat.mod_lt _ (by norm_num)), padded_getD,
      show 8 * (j / 8) + j % 8 = j by omega]
  rw [streamBits, mapM_eq_some_map h]
  congr 1
  apply List.ext_getElem
  · simp
  · intro i h1 h2
    simp [List.getD_eq_getElem?_getD, h2]

/-! ### Decoding (44 R196) -/

theorem bitstream_cons (x : Sym) (rest : List Sym) :
    bitstream clen code (x :: rest) = codeword clen code x ++ bitstream clen code rest := rfl

theorem bitstream_length (syms : List Sym) :
    (bitstream clen code syms).length = (syms.map fun x => (clen.get x).toNat).sum := by
  induction syms with
  | nil => rfl
  | cons x rest ih => simp [bitstream_cons, ih]

/-- The decoder recovers the input of a prefix-free table. -/
theorem decodeStream_bitstream (hpf : PrefixFree clen code) {syms : List Sym}
    (hc : ∀ x ∈ syms, clen.get x ≠ 0) {fuel : Nat} (hf : syms.length ≤ fuel) :
    decodeStream clen code fuel (bitstream clen code syms) = some syms := by
  induction syms generalizing fuel with
  | nil => cases fuel <;> simp [decodeStream, bitstream]
  | cons x rest ih =>
    obtain ⟨f, rfl⟩ : ∃ f, fuel = f + 1 := ⟨fuel - 1, by simp at hf; omega⟩
    have hx := hc x (by simp)
    have hne : bitstream clen code (x :: rest) ≠ [] := by
      rw [bitstream_cons]
      intro h
      exact hx (codeword_eq_nil (List.append_eq_nil_iff.1 h).1)
    have hpre : codeword clen code x <+: bitstream clen code (x :: rest) := ⟨_, rfl⟩
    have hfind : (allSyms.find? fun y =>
        decide (clen.get y ≠ 0) && (codeword clen code y).isPrefixOf (bitstream clen code (x :: rest))) = some x := by
      cases hfd : allSyms.find? fun y =>
          decide (clen.get y ≠ 0) && (codeword clen code y).isPrefixOf (bitstream clen code (x :: rest)) with
      | none =>
        have := List.find?_eq_none.1 hfd x (mem_allSyms x)
        simp [hpre] at this
        exact absurd this hx
      | some y =>
        have hy := List.find?_some hfd
        simp only [Bool.and_eq_true, decide_eq_true_eq, List.isPrefixOf_iff_prefix] at hy
        by_contra hxy
        have hxy' : y ≠ x := fun e => hxy (by rw [e])
        rcases List.prefix_or_prefix_of_prefix hy.2 hpre with h | h
        · exact hpf y x hxy' hy.1 hx h
        · exact hpf x y hxy'.symm hx hy.1 h
    rw [decodeStream, if_neg hne, hfind]
    simp only [bitstream_cons, List.drop_left]
    rw [ih (fun y hy => hc y (by simp [hy])) (by simp at hf; omega)]
    rfl

end Sys2Proof.Machine
end

