-- ==== Sys2Proof/Laws/Stages.lean ====
section
/-! SUPPORT. What each stage of the pipeline can answer, and how an ENGINE step ends. Later proofs cite these
and do not unfold the stages. -/

namespace Sys2Proof.Machine

/-! ### The end of an ENGINE step (41 R120) -/

theorem complete_eq_next {r : StageResult} {t : State} :
    r.complete = .next t ↔
      (∃ s, r = .committed s ∧ t = s.completed 0 0) ∨
      (∃ s c g, r = .error s c g ∧ t = s.completed c.bits g) := by
  cases r with
  | committed s => simp [StageResult.complete, eq_comm]
  | error s c g => simp [StageResult.complete, eq_comm]
  | fault f => simp [StageResult.complete]

theorem complete_eq_fault {r : StageResult} {f : Fault} : r.complete = .fault f ↔ r = .fault f := by
  cases r <;> simp [StageResult.complete]

theorem complete_ne_refused {r : StageResult} {f : Refusal} : r.complete ≠ .refused f := by
  cases r <;> simp [StageResult.complete]

@[simp] theorem andThen_committed (s : State) (f : State → StageResult) :
    (StageResult.committed s).andThen f = f s := rfl

@[simp] theorem andThen_error (s : State) (c : ErrCode) (g : BitVec 8) (f : State → StageResult) :
    (StageResult.error s c g).andThen f = .error s c g := rfl

@[simp] theorem andThen_fault (x : Fault) (f : State → StageResult) :
    (StageResult.fault x).andThen f = .fault x := rfl

/-! ### The input sequence (30_encoding R95) -/

theorem input_eq_some {s : State} {syms : List Sym} :
    s.input = some syms ↔ syms.length = s.inLen.toNat ∧ ∀ j, j < s.inLen.toNat → s.inBuf.read j = syms[j]? := by
  unfold State.input
  rw [Memory.readFrom_eq_some]
  simp

theorem input_eq_none {s : State} :
    s.input = none ↔ ∃ j, j < s.inLen.toNat ∧ s.inBuf.read j = none := by
  unfold State.input
  rw [Memory.readFrom_eq_none]
  simp

/-- Every entry below IN_LEN written is all that reading the input takes. -/
theorem input_of_written {s : State} (h : ∀ j, j < s.inLen.toNat → ∃ b, s.inBuf.read j = some b) :
    ∃ syms, s.input = some syms ∧ syms.length = s.inLen.toNat := by
  cases hi : s.input with
  | some syms => exact ⟨syms, rfl, (input_eq_some.1 hi).1⟩
  | none =>
    obtain ⟨j, hj, hn⟩ := input_eq_none.1 hi
    obtain ⟨b, hb⟩ := h j hj
    rw [hb] at hn
    exact absurd hn (by simp)

/-! ### COUNT (41 R122, R124) -/

theorem foldl_count (syms : List Sym) (t : Table (BitVec 32)) (x : Sym) :
    (syms.foldl (fun t y => t.set y (t.get y + 1)) t).get x = t.get x + BitVec.ofNat 32 (syms.count x) := by
  induction syms generalizing t with
  | nil => simp
  | cons y rest ih =>
    rw [List.foldl_cons, ih, Table.get_set, List.count_cons]
    by_cases h : y = x
    · subst h
      simp only [if_true, beq_self_eq_true]
      rw [BitVec.ofNat_add, BitVec.add_assoc, BitVec.add_comm 1]
      rfl
    · simp [h]

/-- 41 R124: FREQ[s] is the number of times s occurs. -/
theorem frequencies_get (syms : List Sym) (x : Sym) :
    (frequencies syms).get x = BitVec.ofNat 32 (syms.count x) := by
  rw [frequencies, foldl_count, Table.get_fill]
  simp

theorem frequencies_ne_zero {syms : List Sym} (hl : syms.length < 2 ^ 32) {x : Sym} :
    (frequencies syms).get x ≠ 0 ↔ x ∈ syms := by
  rw [frequencies_get, ← List.count_pos_iff]
  have := List.count_le_length (a := x) (l := syms)
  rw [ne_eq, ← BitVec.toNat_inj, BitVec.toNat_ofNat, Nat.mod_eq_of_lt (by omega)]
  exact Nat.pos_iff_ne_zero.symm

theorem countStage_cases (s : State) :
    (s.inLen = 0 ∧ countStage s = .error s .emptyAlphabet 0x02) ∨
    (s.inLen ≠ 0 ∧ s.input = none ∧ countStage s = .fault .unwrittenInput) ∨
    (s.inLen ≠ 0 ∧ ∃ syms, s.input = some syms ∧
      countStage s = .committed { s with freq := frequencies syms }) := by
  unfold countStage
  by_cases h : s.inLen = 0
  · exact .inl ⟨h, if_pos h⟩
  · rw [if_neg h]
    cases s.input with
    | none => exact .inr (.inl ⟨h, rfl, rfl⟩)
    | some syms => exact .inr (.inr ⟨h, syms, rfl, rfl⟩)

/-! ### BUILD (42 R140) -/

/-- The state BUILD commits. -/
def built (s : State) : State :=
  { s with
    node := treeNodes s.freq ++ s.node.drop (treeNodes s.freq).length
    nodeCount := BitVec.ofNat 10 (treeNodes s.freq).length
    root := BitVec.ofNat 9 (treeRoot s.freq) }

theorem buildStage_cases (s : State) :
    (countedSyms s.freq = [] ∧ buildStage s = .error s .emptyAlphabet 0x03) ∨
    (countedSyms s.freq ≠ [] ∧ buildStage s = .committed (built s)) := by
  unfold buildStage
  by_cases h : countedSyms s.freq = []
  · exact .inl ⟨h, if_pos h⟩
  · exact .inr ⟨h, if_neg h⟩

theorem countedSyms_eq_nil {freq : Table (BitVec 32)} : countedSyms freq = [] ↔ ∀ x, freq.get x = 0 := by
  rw [List.eq_nil_iff_forall_not_mem]
  simp only [mem_countedSyms, ne_eq, not_not]

theorem built_nodeCount {s : State} (h : countedSyms s.freq ≠ []) :
    (built s).nodeCount.toNat = (treeNodes s.freq).length := by
  have := treeNodes_length_le h
  simp only [built, BitVec.toNat_ofNat]
  omega

theorem built_root {s : State} (h : countedSyms s.freq ≠ []) : (built s).root.toNat = treeRoot s.freq := by
  have := treeNodes_length_le h
  have := treeRoot_eq h
  simp only [built, BitVec.toNat_ofNat]
  omega

theorem built_liveNodes {s : State} (h : countedSyms s.freq ≠ []) : (built s).liveNodes = treeNodes s.freq := by
  rw [State.liveNodes, built_nodeCount h]
  simp [built]

/-- BUILD leaves a tree as `TreeInv` says. -/
theorem built_treeInv {s : State} (h : countedSyms s.freq ≠ []) (ha : s.node.length ≤ 511) : TreeInv (built s) := by
  have hle := treeNodes_length_le h
  refine ⟨?_, fun _ => ⟨s.freq, h, built_liveNodes h, built_nodeCount h, built_root h⟩, fun h0 => ?_⟩
  · simp only [built, List.length_append, List.length_drop]
    omega
  · have := built_nodeCount h
    have hpos := treeNodes_ne_nil h
    rw [h0] at this
    simp at this
    omega

/-! ### EXTRACT (42 R144) -/

/-- On a tree that BUILD made, the traversal answers as 42 R145 and R147 say. -/
theorem leafDepths_of_treeInv {s : State} (h : TreeInv s) (hc : s.nodeCount ≠ 0) :
    ∃ freq leaves, countedSyms freq ≠ [] ∧ s.liveNodes = treeNodes freq ∧ s.root.toNat = treeRoot freq ∧
      leafDepths s.liveNodes s.root.toNat = some leaves ∧
      (leaves.map Prod.fst).Perm (countedSyms freq) ∧ (∀ x ∈ leaves, 1 ≤ x.2 ∧ x.2 ≤ 255) := by
  obtain ⟨freq, hne, hlive, -, hroot⟩ := h.built hc
  obtain ⟨leaves, hl, hperm, hb, -⟩ := leafDepths_tree hne
  exact ⟨freq, leaves, hne, hlive, hroot, by rw [hlive, hroot]; exact hl, hperm, hb⟩

/-- The state EXTRACT commits. -/
def extracted (s : State) (leaves : List (Sym × Nat)) : State :=
  { s with len := lengthsOf leaves, nodeCount := 0, root := 0 }

theorem extractStage_cases (s : State) :
    (s.nodeCount = 0 ∧ extractStage s = .error s .noTree 0x04) ∨
    (s.nodeCount ≠ 0 ∧ leafDepths s.liveNodes s.root.toNat = none ∧ extractStage s = .fault .malformedTree) ∨
    (s.nodeCount ≠ 0 ∧ ∃ leaves, leafDepths s.liveNodes s.root.toNat = some leaves ∧
      ((∃ x, s.params.maxCodeLen < (depthTable leaves).get x) ∧ extractStage s = .error s .lenOverflow 0x04 ∨
       (∀ x, (depthTable leaves).get x ≤ s.params.maxCodeLen) ∧
        extractStage s = .committed (extracted s leaves))) := by
  unfold extractStage
  by_cases h : s.nodeCount = 0
  · exact .inl ⟨h, if_pos h⟩
  · rw [if_neg h]
    cases leafDepths s.liveNodes s.root.toNat with
    | none => exact .inr (.inl ⟨h, rfl, rfl⟩)
    | some leaves =>
      refine .inr (.inr ⟨h, leaves, rfl, ?_⟩)
      by_cases hx : ∃ x, s.params.maxCodeLen < (depthTable leaves).get x
      · refine .inl ⟨hx, if_pos ?_⟩
        rw [Table.any_toList]
        simpa using hx
      · have hx' : ∀ x, (depthTable leaves).get x ≤ s.params.maxCodeLen := fun x => by
          by_contra hlt
          exact hx ⟨x, by omega⟩
        refine .inr ⟨hx', if_neg ?_⟩
        rw [Table.any_toList]
        simpa using hx'

/-! ### ASSIGN (43 R170) -/

theorem sortedSymbols_eq_nil {len : Table (BitVec 8)} : sortedSymbols len = [] ↔ ∀ x, len.get x = 0 := by
  rw [List.eq_nil_iff_forall_not_mem]
  simp only [mem_sortedSymbols, ne_eq, not_not]

theorem assignStage_cases (s : State) :
    ((∀ x, s.len.get x = 0) ∧ assignStage s = .error s .emptyAlphabet 0x05) ∨
    ((∃ x, s.len.get x ≠ 0) ∧ (∃ x, s.params.maxCodeLen < (s.len.get x).toNat) ∧
      assignStage s = .error s .lenOverflow 0x05) ∨
    ((∃ x, s.len.get x ≠ 0) ∧ (∀ x, (s.len.get x).toNat ≤ s.params.maxCodeLen) ∧ 1 < kraftSum s.len ∧
      assignStage s = .error s .oversubscribed 0x05) ∨
    ((∃ x, s.len.get x ≠ 0) ∧ (∀ x, (s.len.get x).toNat ≤ s.params.maxCodeLen) ∧ kraftSum s.len ≤ 1 ∧
      ∃ clen code, canonicalAssign s.len (sortedSymbols s.len) = some (clen, code) ∧
        assignStage s = .committed { s with clen := clen, code := code }) := by
  unfold assignStage
  by_cases h : sortedSymbols s.len = []
  · exact .inl ⟨sortedSymbols_eq_nil.1 h, if_pos h⟩
  · have hne : ∃ x, s.len.get x ≠ 0 := by
      obtain ⟨x, hx⟩ := List.exists_mem_of_ne_nil _ h
      exact ⟨x, mem_sortedSymbols.1 hx⟩
    right
    by_cases ho : ∃ x, s.params.maxCodeLen < (s.len.get x).toNat
    · refine .inl ⟨hne, ho, ?_⟩
      obtain ⟨x, hx⟩ := ho
      have hx0 : s.len.get x ≠ 0 := fun e => by rw [e] at hx; simp at hx
      have : ((sortedSymbols s.len).any fun x => decide (s.params.maxCodeLen < (s.len.get x).toNat)) = true := by
        rw [List.any_eq_true]
        exact ⟨x, mem_sortedSymbols.2 hx0, by simpa using hx⟩
      rw [if_neg h, if_pos this]
    · have ho' : ∀ x, (s.len.get x).toNat ≤ s.params.maxCodeLen := fun x => by
        by_contra hlt
        exact ho ⟨x, by omega⟩
      have : ¬((sortedSymbols s.len).any fun x => decide (s.params.maxCodeLen < (s.len.get x).toNat)) = true := by
        rw [List.any_eq_true]
        rintro ⟨x, -, hx⟩
        exact absurd (ho' x) (by simpa using hx)
      right
      rw [if_neg h, if_neg this]
      cases hc : canonicalAssign s.len (sortedSymbols s.len) with
      | none => exact .inl ⟨hne, ho', canonicalAssign_eq_none.1 hc, rfl⟩
      | some r =>
        obtain ⟨clen, code⟩ := r
        refine .inr ⟨hne, ho', ?_, clen, code, rfl, rfl⟩
        by_contra hk
        rw [canonicalAssign_eq_none.2 (by linarith)] at hc
        exact absurd hc (by simp)

/-! ### ENCODE (44 R190) -/

/-- The state ENCODE commits for the stream B. -/
def encoded (s : State) (bits : List Bool) : State :=
  { s with
    outBuf := s.outBuf.writeFrom 0 (packedBytes bits)
    bitCount := BitVec.ofNat 32 bits.length
    outLen := BitVec.ofNat 32 (byteCount bits.length) }

theorem encodeStage_cases (s : State) :
    (s.input = none ∧ encodeStage s = .fault .unwrittenInput) ∨
    (∃ syms, s.input = some syms ∧
      ((∃ x ∈ syms, s.clen.get x = 0) ∧ encodeStage s = .error s .noCode 0x06 ∨
       (∀ x ∈ syms, s.clen.get x ≠ 0) ∧
        (s.params.outCap < byteCount (bitstream s.clen s.code syms).length ∧
          encodeStage s = .error s .outOverflow 0x06 ∨
         byteCount (bitstream s.clen s.code syms).length ≤ s.params.outCap ∧
          encodeStage s = .committed (encoded s (bitstream s.clen s.code syms))))) := by
  unfold encodeStage
  cases s.input with
  | none => exact .inl ⟨rfl, rfl⟩
  | some syms =>
    refine .inr ⟨syms, rfl, ?_⟩
    by_cases hx : ∃ x ∈ syms, s.clen.get x = 0
    · refine .inl ⟨hx, if_pos ?_⟩
      simpa using hx
    · have hx' : ∀ x ∈ syms, s.clen.get x ≠ 0 := fun x hm h0 => hx ⟨x, hm, h0⟩
      refine .inr ⟨hx', ?_⟩
      have hany : ¬(syms.any fun x => decide (s.clen.get x = 0)) = true := by
        rw [List.any_eq_true]
        rintro ⟨x, hm, h0⟩
        exact hx' x hm (by simpa using h0)
      simp only []
      rw [if_neg hany]
      by_cases ho : s.params.outCap < byteCount (bitstream s.clen s.code syms).length
      · exact .inl ⟨ho, if_pos ho⟩
      · exact .inr ⟨by omega, if_neg ho⟩

end Sys2Proof.Machine
end

