-- ==== Sys2Proof/Laws/Step.lean ====
section
/-! SUPPORT. Everything one step can do (00_scope R11, 20_memory R75), and what no command changes. -/

namespace Sys2Proof.Machine

@[simp] theorem heldInReset_of_released {s : State} (h : s.rst = false) : s.heldInReset = s := by
  simp [State.heldInReset, h]

theorem heldInReset_of_asserted {s : State} (h : s.rst = true) : s.heldInReset = s.resetBlock := by
  simp [State.heldInReset, h]

/-- What a host turn can do. -/
theorem hostTurn_next {s t : State} (h : hostTurn s = .next t) :
    t = s ∨ ∃ op rest, s.hostOps = op :: rest ∧ op.wellFormed = true ∧ t = s.performOp op rest := by
  unfold hostTurn at h
  split at h
  · simp only [Host.Outcome.next.injEq] at h
    exact .inl h.symm
  · rename_i op rest hops
    split at h
    · rename_i hw
      simp only [Host.Outcome.next.injEq] at h
      exact .inr ⟨op, rest, hops, hw, h.symm⟩
    · exact absurd h (by simp)

/-- What an ENGINE turn can do. -/
theorem engineTurn_next {s t : State} (h : engineTurn s = .next t) :
    t = s ∨ (s.busy = true ∧ exec s.pending s = .next t) := by
  unfold engineTurn at h
  split at h
  · rename_i hb
    exact .inr ⟨hb, h⟩
  · simp only [Host.Outcome.next.injEq] at h
    exact .inl h.symm

/-- The inversion of a step: where it leads to a next state, it was an idle turn, an ENGINE step, one host
access, or an event of the reset input; each on the state `rst` holds, with the turn taken off. -/
theorem step_next {s t : State} (h : step s = .next t) :
    ∃ later, (t = { s.heldInReset with turns := later }) ∨
      (s.heldInReset.busy = true ∧ exec s.heldInReset.pending { s.heldInReset with turns := later } = .next t) ∨
      (∃ op rest, s.heldInReset.hostOps = op :: rest ∧ op.wellFormed = true ∧
        t = State.performOp { s.heldInReset with turns := later } op rest) ∨
      t = State.assertRst { s.heldInReset with turns := later } ∨
      t = State.releaseRst { s.heldInReset with turns := later } := by
  unfold step State.scheduled State.takeTurn at h
  generalize s.heldInReset = u at *
  split at h
  · rename_i ht
    refine ⟨[], ?_⟩
    have hu : u = { u with turns := [] } := by rw [← ht]
    split at h
    · rcases engineTurn_next h with h | ⟨hb, h⟩
      · exact .inl (h.trans hu)
      · exact .inr (.inl ⟨hb, by rw [← hu]; exact h⟩)
    · rcases hostTurn_next h with h | ⟨op, rest, h1, h2, h3⟩
      · exact .inl (h.trans hu)
      · exact .inr (.inr (.inl ⟨op, rest, h1, h2, by rw [← hu]; exact h3⟩))
  · rename_i later _
    refine ⟨later, ?_⟩
    rcases hostTurn_next h with h | ⟨op, rest, h1, h2, h3⟩
    · exact .inl h
    · exact .inr (.inr (.inl ⟨op, rest, h1, h2, h3⟩))
  · rename_i later _
    refine ⟨later, ?_⟩
    rcases engineTurn_next h with h | ⟨hb, h⟩
    · exact .inl h
    · exact .inr (.inl ⟨hb, h⟩)
  · rename_i later _
    simp only [Host.Outcome.next.injEq] at h
    exact ⟨later, .inr (.inr (.inr (.inl h.symm)))⟩
  · rename_i later _
    simp only [Host.Outcome.next.injEq] at h
    exact ⟨later, .inr (.inr (.inr (.inr h.symm)))⟩

/-! ### What no command changes -/

/-- The fields that are in no command's write set (30_encoding R96). -/
structure SameShell (s t : State) : Prop where
  params : t.params = s.params
  irqEn : t.irqEn = s.irqEn
  ovr : t.ovr = s.ovr
  aerr : t.aerr = s.aerr
  pending : t.pending = s.pending
  inLen : t.inLen = s.inLen
  inBuf : t.inBuf = s.inBuf
  rst : t.rst = s.rst
  hostOps : t.hostOps = s.hostOps
  turns : t.turns = s.turns
  responses : t.responses = s.responses
  draws : t.draws = s.draws

theorem SameShell.refl (s : State) : SameShell s s :=
  by constructor <;> rfl

theorem SameShell.trans {s t u : State} (h : SameShell s t) (g : SameShell t u) : SameShell s u :=
  ⟨g.params.trans h.params, g.irqEn.trans h.irqEn, g.ovr.trans h.ovr, g.aerr.trans h.aerr,
    g.pending.trans h.pending, g.inLen.trans h.inLen, g.inBuf.trans h.inBuf, g.rst.trans h.rst,
    g.hostOps.trans h.hostOps, g.turns.trans h.turns, g.responses.trans h.responses, g.draws.trans h.draws⟩

/-- The state a stage hands on, if it hands one on. -/
def StageResult.state? : StageResult → Option State
  | .committed s => some s
  | .error s _ _ => some s
  | .fault _ => none

theorem clearStage_shell {s t : State} (h : (clearStage s).state? = some t) : SameShell s t := by
  simp only [clearStage, StageResult.state?, Option.some.injEq] at h
  subst h
  constructor <;> rfl

theorem countStage_shell {s t : State} (h : (countStage s).state? = some t) : SameShell s t := by
  rcases countStage_cases s with ⟨-, he⟩ | ⟨-, -, he⟩ | ⟨-, _, -, he⟩ <;> rw [he] at h <;>
    simp only [StageResult.state?, Option.some.injEq, reduceCtorEq] at h
  all_goals subst h
  all_goals constructor <;> rfl

theorem buildStage_shell {s t : State} (h : (buildStage s).state? = some t) : SameShell s t := by
  rcases buildStage_cases s with ⟨-, he⟩ | ⟨-, he⟩ <;> rw [he] at h <;>
    simp only [StageResult.state?, Option.some.injEq] at h
  all_goals subst h
  all_goals constructor <;> rfl

theorem extractStage_shell {s t : State} (h : (extractStage s).state? = some t) : SameShell s t := by
  rcases extractStage_cases s with ⟨-, he⟩ | ⟨-, -, he⟩ | ⟨-, _, -, ⟨-, he⟩ | ⟨-, he⟩⟩ <;> rw [he] at h <;>
    simp only [StageResult.state?, Option.some.injEq, reduceCtorEq] at h
  all_goals subst h
  all_goals constructor <;> rfl

theorem assignStage_shell {s t : State} (h : (assignStage s).state? = some t) : SameShell s t := by
  rcases assignStage_cases s with ⟨-, he⟩ | ⟨-, -, he⟩ | ⟨-, -, -, he⟩ | ⟨-, -, -, _, _, -, he⟩ <;> rw [he] at h <;>
    simp only [StageResult.state?, Option.some.injEq] at h
  all_goals subst h
  all_goals constructor <;> rfl

theorem encodeStage_shell {s t : State} (h : (encodeStage s).state? = some t) : SameShell s t := by
  rcases encodeStage_cases s with ⟨-, he⟩ | ⟨_, -, ⟨-, he⟩ | ⟨-, ⟨-, he⟩ | ⟨-, he⟩⟩⟩ <;> rw [he] at h <;>
    simp only [StageResult.state?, Option.some.injEq, reduceCtorEq] at h
  all_goals subst h
  all_goals constructor <;> rfl

/-- A stage chained on another hands on a state of its own or the other's. -/
theorem andThen_shell {r : StageResult} {f : State → StageResult} {s t : State}
    (hr : ∀ u, r.state? = some u → SameShell s u)
    (hf : ∀ u, ∀ v, (f u).state? = some v → SameShell u v)
    (h : (r.andThen f).state? = some t) : SameShell s t := by
  cases r with
  | committed u => exact (hr u rfl).trans (hf u t h)
  | error u c g => exact hr t h
  | fault x => simp [StageResult.state?] at h

theorem runStage_shell {s t : State} (h : (runStage s).state? = some t) : SameShell s t :=
  andThen_shell (fun _ => andThen_shell (fun _ => andThen_shell (fun _ => andThen_shell
    (fun _ => countStage_shell) fun _ _ => buildStage_shell) fun _ _ => extractStage_shell)
    fun _ _ => assignStage_shell) (fun _ _ => encodeStage_shell) h

end Sys2Proof.Machine
end

