-- ==== Sys2Proof/Laws/Run.lean ====
section
/-! SUPPORT. What a RUN can answer (41 R123), and what holds of every command's next state. -/

namespace Sys2Proof.Machine

/-! ### Every command -/

/-- An ENGINE step that completes ends idle with DONE set and touches nothing outside the write sets. -/
theorem exec_next {i : Instr} {s t : State} (h : exec i s = .next t) :
    SameShell s t ∧ t.busy = false ∧ t.done = true := by
  have key : ∀ r : StageResult, (∀ u, r.state? = some u → SameShell s u) → r.complete = .next t →
      SameShell s t ∧ t.busy = false ∧ t.done = true := by
    intro r hr h
    rcases complete_eq_next.1 h with ⟨u, rfl, rfl⟩ | ⟨u, c, g, rfl, rfl⟩
    all_goals exact ⟨(hr u rfl).trans (by constructor <;> rfl), rfl, rfl⟩
  cases i with
  | clear => exact key _ (fun _ => clearStage_shell) h
  | count => exact key _ (fun _ => countStage_shell) h
  | build => exact key _ (fun _ => buildStage_shell) h
  | extract => exact key _ (fun _ => extractStage_shell) h
  | assign => exact key _ (fun _ => assignStage_shell) h
  | encode => exact key _ (fun _ => encodeStage_shell) h
  | run => exact key _ (fun _ => runStage_shell) h

/-! ### One induction for every invariant -/

/-- What a step keeps: a property that the environment's fields do not enter, that reset gives, and that commands,
host writes and the setting of AERR keep. -/
theorem step_keeps {P : State → Prop}
    (henv : ∀ s t : State, P s → t = { s with
      rst := t.rst, hostOps := t.hostOps, turns := t.turns, responses := t.responses, draws := t.draws } → P t)
    (hreset : ∀ s : State, P s → P s.resetBlock)
    (hexec : ∀ i s t, P s → exec i s = .next t → P t)
    (hwrite : ∀ s addr v, P s → P (s.memWrite addr v))
    (haerr : ∀ s : State, P s → P { s with aerr := true })
    {s t : State} (h : P s) (hs : step s = .next t) : P t := by
  have hheld : P s.heldInReset := by
    unfold State.heldInReset
    split
    · exact hreset s h
    · exact h
  obtain ⟨later, hx | ⟨-, hx⟩ | ⟨op, rest, -, -, hx⟩ | hx | hx⟩ := step_next hs
  · rw [hx]; exact henv _ _ hheld rfl
  · exact hexec _ _ _ (henv _ _ hheld rfl) hx
  · have hu : P ({ s.heldInReset with turns := later } : State) := henv _ _ hheld rfl
    rw [hx]
    revert hu
    generalize ({ s.heldInReset with turns := later } : State) = u
    intro hu
    have hread : ∀ addr, P (u.busRead addr).2 := by
      intro addr
      unfold State.busRead
      split
      · exact henv _ _ hu rfl
      · rcases memRead_cases u addr with ⟨-, h⟩ | h | h <;> rw [h]
        · exact haerr _ hu
        · exact hu
        · exact henv _ _ hu rfl
    cases op with
    | read addr w => exact henv _ _ (hread addr) rfl
    | write addr w v =>
      refine henv (u.busWrite addr v) _ ?_ rfl
      unfold State.busWrite
      split
      · exact hu
      · exact hwrite _ _ _ hu
    | poll addr m v => exact henv _ _ (hread addr) rfl
  · rw [hx]; exact hreset _ (henv _ _ hheld rfl)
  · rw [hx]; exact henv _ _ hheld rfl

/-! ### The five stages of RUN -/

/-- After COUNT of a nonempty input some symbol is counted. -/
theorem countedSyms_frequencies {syms : List Sym} (hl : syms.length < 2 ^ 32) (hne : syms ≠ []) :
    countedSyms (frequencies syms) ≠ [] := by
  obtain ⟨x, hx⟩ := List.exists_mem_of_ne_nil _ hne
  intro h
  have := countedSyms_eq_nil.1 h x
  exact (frequencies_ne_zero hl).2 hx this

theorem mem_countedSyms_frequencies {syms : List Sym} (hl : syms.length < 2 ^ 32) {x : Sym} :
    x ∈ countedSyms (frequencies syms) ↔ x ∈ syms := by
  rw [mem_countedSyms, frequencies_ne_zero hl]

/-- Kraft's sum of a table that EXTRACT wrote is at most 1 (43 R175). -/
theorem kraftSum_lengthsOf_le {freq : Table (BitVec 32)} (h : countedSyms freq ≠ []) {leaves : List (Sym × Nat)}
    (hl : leafDepths (treeNodes freq) (treeRoot freq) = some leaves) : kraftSum (lengthsOf leaves) ≤ 1 := by
  obtain ⟨leaves', hl', hperm, hb, h1, h2⟩ := leafDepths_tree h
  obtain rfl : leaves = leaves' := by rw [hl] at hl'; exact Option.some.inj hl'
  have hn : (leaves.map Prod.fst).Nodup := hperm.nodup_iff.2 (nodup_countedSyms freq)
  rw [kraftSum_lengthsOf hn hb]
  by_cases hk : 2 ≤ (countedSyms freq).length
  · exact le_of_eq (h2 hk).2
  · have hpos := countedSyms_pos h
    have hone : (countedSyms freq).length = 1 := by omega
    have hlen : leaves.length = 1 := by
      have := hperm.length_eq
      rw [List.length_map] at this
      omega
    obtain ⟨e, rfl⟩ := List.length_eq_one_iff.1 hlen
    have := h1 hone e (by simp)
    simp only [List.map_cons, List.map_nil, List.sum_cons, List.sum_nil, this]
    norm_num

/-- The state after COUNT, BUILD and EXTRACT of a RUN. -/
def runExtracted (s : State) (syms : List Sym) (leaves : List (Sym × Nat)) : State :=
  extracted (built { s with freq := frequencies syms }) leaves

/-- The inversion of RUN (41 R123, 60_exceptions R213): EMPTY_ALPHABET at COUNT, the fault, LEN_OVERFLOW at
EXTRACT, OUT_OVERFLOW at ENCODE, or success; with what each stage committed. -/
theorem runStage_cases (s : State) :
    (s.inLen = 0 ∧ runStage s = .error s .emptyAlphabet 0x02) ∨
    (s.inLen ≠ 0 ∧ s.input = none ∧ runStage s = .fault .unwrittenInput) ∨
    (s.inLen ≠ 0 ∧ ∃ syms, s.input = some syms ∧ syms ≠ [] ∧ syms.length < 2 ^ 32 ∧
      ∃ leaves, leafDepths (treeNodes (frequencies syms)) (treeRoot (frequencies syms)) = some leaves ∧
        ((∃ x, s.params.maxCodeLen < (depthTable leaves).get x) ∧
          runStage s = .error (built { s with freq := frequencies syms }) .lenOverflow 0x04 ∨
        (∀ x, (depthTable leaves).get x ≤ s.params.maxCodeLen) ∧
          ∃ code, canonicalAssign (lengthsOf leaves) (sortedSymbols (lengthsOf leaves)) =
              some (lengthsOf leaves, code) ∧
            (∀ x ∈ syms, (lengthsOf leaves).get x ≠ 0) ∧
            (s.params.outCap < byteCount (bitstream (lengthsOf leaves) code syms).length ∧
              runStage s = .error { runExtracted s syms leaves with clen := lengthsOf leaves, code := code }
                .outOverflow 0x06 ∨
            byteCount (bitstream (lengthsOf leaves) code syms).length ≤ s.params.outCap ∧
              runStage s = .committed
                (encoded { runExtracted s syms leaves with clen := lengthsOf leaves, code := code }
                  (bitstream (lengthsOf leaves) code syms))))) := by
  unfold runStage
  rcases countStage_cases s with ⟨h0, he⟩ | ⟨h0, hn, he⟩ | ⟨h0, syms, hs, he⟩
  · exact .inl ⟨h0, by rw [he]; rfl⟩
  · exact .inr (.inl ⟨h0, hn, by rw [he]; rfl⟩)
  right; right
  rw [he]
  simp only [andThen_committed]
  have hlen := (input_eq_some.1 hs).1
  have hlt : syms.length < 2 ^ 32 := by rw [hlen]; exact s.inLen.isLt
  have hne : syms ≠ [] := by
    rintro rfl
    apply h0
    apply BitVec.eq_of_toNat_eq
    simpa using hlen.symm
  have hcs := countedSyms_frequencies hlt hne
  obtain ⟨leaves, hl, hperm, hb, -⟩ := leafDepths_tree hcs
  have hn : (leaves.map Prod.fst).Nodup := hperm.nodup_iff.2 (nodup_countedSyms _)
  refine ⟨h0, syms, hs, hne, hlt, leaves, hl, ?_⟩
  set t : State := { s with freq := frequencies syms } with ht
  have hbuild : buildStage t = .committed (built t) := by
    rcases buildStage_cases t with ⟨h, -⟩ | ⟨-, h⟩
    · exact absurd h hcs
    · exact h
  rw [hbuild]
  simp only [andThen_committed]
  have hct : countedSyms t.freq ≠ [] := hcs
  have hleaf : leafDepths (built t).liveNodes (built t).root.toNat = some leaves := by
    rw [built_liveNodes hct, built_root hct]
    exact hl
  rcases extractStage_cases (built t) with ⟨h, -⟩ | ⟨-, h, -⟩ | ⟨-, leaves', h, hx⟩
  · have hc := built_nodeCount hct
    have := treeNodes_ne_nil hct
    rw [h] at hc
    have h0 : (0 : BitVec 10).toNat = 0 := rfl
    omega
  · rw [hleaf] at h
    exact absurd h (by simp)
  obtain rfl : leaves = leaves' := by rw [hleaf] at h; exact Option.some.inj h
  rcases hx with ⟨hx, he⟩ | ⟨hx, he⟩
  · exact .inl ⟨hx, by rw [he]; rfl⟩
  refine .inr ⟨hx, ?_⟩
  rw [he]
  simp only [andThen_committed]
  have hmem : ∀ x ∈ syms, (lengthsOf leaves).get x ≠ 0 := fun x hm => by
    have : x ∈ lengthSyms (lengthsOf leaves) := by
      rw [(lengthSyms_lengthsOf hn hb).mem_iff, hperm.mem_iff, mem_countedSyms_frequencies hlt]
      exact hm
    exact mem_lengthSyms.1 this
  obtain ⟨x0, hx0⟩ := List.exists_mem_of_ne_nil _ hne
  rcases assignStage_cases (extracted (built t) leaves) with ⟨h, -⟩ | ⟨-, ⟨x, h⟩, -⟩ | ⟨-, -, h, -⟩ | ⟨-, -, -, clen, code, hc, he⟩
  · exact absurd (h x0) (hmem x0 hx0)
  · exfalso
    have h' : s.params.maxCodeLen < ((lengthsOf leaves).get x).toNat := h
    by_cases hm : x ∈ leaves.map Prod.fst
    · obtain ⟨e, he, rfl⟩ := List.mem_map.1 hm
      rw [lengthsOf_of_mem hn (d := e.2) he (hb e he).2] at h'
      have hle : (depthTable leaves).get e.1 ≤ s.params.maxCodeLen := hx e.1
      rw [depthTable_of_mem hn (d := e.2) he] at hle
      omega
    · rw [lengthsOf_of_not_mem hm] at h'
      simp at h'
  · have : kraftSum (lengthsOf leaves) ≤ 1 := kraftSum_lengthsOf_le hcs hl
    exact absurd h (by simpa [extracted] using this)
  obtain ⟨rfl, -⟩ := canonicalAssign_eq_some hc
  refine ⟨code, hc, hmem, ?_⟩
  rw [he]
  simp only [andThen_committed]
  rcases encodeStage_cases { extracted (built t) leaves with clen := (extracted (built t) leaves).len, code := code }
    with ⟨h, -⟩ | ⟨syms', h, hx⟩
  · have : s.input = none := h
    rw [hs] at this
    exact absurd this (by simp)
  obtain rfl : syms = syms' := by
    have : s.input = some syms' := h
    rw [hs] at this
    exact Option.some.inj this
  rcases hx with ⟨⟨x, hm, h⟩, -⟩ | ⟨-, ⟨h, he⟩ | ⟨h, he⟩⟩
  · exact absurd h (hmem x hm)
  · exact .inl ⟨h, he⟩
  · exact .inr ⟨h, he⟩

/-! ### The four stages as commands of their own (00_scope R18) -/

/-- A command that ends without an error ends as its stage commits. -/
theorem committed_of_complete {r : StageResult} {t : State} (h : r.complete = .next t) (h0 : t.errCode = 0) :
    ∃ u, r = .committed u ∧ t = u.completed 0 0 := by
  rcases complete_eq_next.1 h with ⟨u, hr, ht⟩ | ⟨u, c, g, -, ht⟩
  · exact ⟨u, hr, ht⟩
  · rw [ht] at h0
    cases c <;> simp [ErrCode.bits] at h0

/-- The inversion of a successful COUNT, BUILD, EXTRACT and ASSIGN in sequence: the input was written, and the code
table is the canonical one of the depths of the tree of its counts. -/
theorem codeSequence_cases {s s1 t : State} (h : CodeSequence s s1 t) :
    ∃ syms leaves, s.input = some syms ∧ syms ≠ [] ∧ syms.length < 2 ^ 32 ∧ s1.freq = frequencies syms ∧
      leafDepths (treeNodes s1.freq) (treeRoot s1.freq) = some leaves ∧ t.clen = lengthsOf leaves ∧
      canonicalAssign (lengthsOf leaves) (sortedSymbols (lengthsOf leaves)) = some (lengthsOf leaves, t.code) ∧
      t.params = s.params ∧ t.inLen = s.inLen ∧ t.inBuf = s.inBuf := by
  obtain ⟨s2, s3, ⟨h1, e1⟩, ⟨h2, e2⟩, ⟨h3, e3⟩, ⟨h4, e4⟩⟩ := h
  obtain ⟨k1, -, -⟩ := exec_next h1
  obtain ⟨k2, -, -⟩ := exec_next h2
  obtain ⟨k3, -, -⟩ := exec_next h3
  obtain ⟨k4, -, -⟩ := exec_next h4
  obtain ⟨u1, c1, rfl⟩ := committed_of_complete (show (countStage s).complete = _ from h1) e1
  obtain ⟨u2, c2, rfl⟩ := committed_of_complete (show (buildStage _).complete = _ from h2) e2
  obtain ⟨u3, c3, rfl⟩ := committed_of_complete (show (extractStage _).complete = _ from h3) e3
  obtain ⟨u4, c4, rfl⟩ := committed_of_complete (show (assignStage _).complete = _ from h4) e4
  rcases countStage_cases s with ⟨-, he⟩ | ⟨-, -, he⟩ | ⟨hn0, syms, hs, he⟩ <;> rw [he] at c1 <;> cases c1
  rcases buildStage_cases (State.accept (State.completed { s with freq := frequencies syms } 0 0) .build) with
    ⟨-, he⟩ | ⟨hne, he⟩ <;> rw [he] at c2 <;> cases c2
  have hlen := (input_eq_some.1 hs).1
  rcases extractStage_cases (State.accept (State.completed (built (State.accept (State.completed
      { s with freq := frequencies syms } 0 0) .build)) 0 0) .extract) with
    ⟨-, he⟩ | ⟨-, -, he⟩ | ⟨-, leaves, hl, ⟨-, he⟩ | ⟨-, he⟩⟩ <;> rw [he] at c3 <;> cases c3
  rcases assignStage_cases (State.accept (State.completed (extracted (State.accept (State.completed (built
      (State.accept (State.completed { s with freq := frequencies syms } 0 0) .build)) 0 0) .extract) leaves) 0 0)
      .assign) with ⟨-, he⟩ | ⟨-, -, he⟩ | ⟨-, -, -, he⟩ | ⟨-, -, -, clen, code, hc, he⟩ <;> rw [he] at c4 <;> cases c4
  have hc' : canonicalAssign (lengthsOf leaves) (sortedSymbols (lengthsOf leaves)) = some (clen, code) := hc
  have hcl : clen = lengthsOf leaves := (canonicalAssign_eq_some hc').1
  have hlive := built_liveNodes hne
  have hroot := built_root hne
  refine ⟨syms, leaves, hs, ?_, by rw [hlen]; exact s.inLen.isLt, rfl, ?_, hcl, ?_,
    k4.params.trans (k3.params.trans (k2.params.trans k1.params)),
    k4.inLen.trans (k3.inLen.trans (k2.inLen.trans k1.inLen)),
    k4.inBuf.trans (k3.inBuf.trans (k2.inBuf.trans k1.inBuf))⟩
  · rintro rfl
    exact hn0 (BitVec.eq_of_toNat_eq (by simpa using hlen.symm))
  · rw [← hl]
    exact congrArg₂ leafDepths hlive.symm hroot.symm
  · rw [hc', hcl]
    rfl

end Sys2Proof.Machine
end

