-- ==== Sys2Proof/Tests/Slice0.lean ====
section
/-! SUPPORT. The model's own tests. Expected values are the spec's: the encodings of 30_encoding R90 – R93 and the
vectors of 95_test_vectors, named in each comment. After them, for each obligation that has hypotheses, a theorem
that shows a state and operands meeting them. -/

namespace Sys2Proof.Tests

set_option Elab.async false

open Sys2Proof Sys2Proof.Machine

/-! ### Helpers -/

/-- The block after reset with `syms` in IN and IN_LEN set. -/
def loaded (syms : List Sym) : State :=
  { State.reset with inBuf := Memory.writeFrom [] 0 syms, inLen := BitVec.ofNat 32 syms.length }

/-- A table with the given entries, every other one 0. -/
def tableOf {n : Nat} (entries : List (Sym × BitVec n)) : Table (BitVec n) :=
  entries.foldl (fun t e => t.set e.1 e.2) (Table.fill 0)

/-- The block after reset with FREQ as given. -/
def counted (entries : List (Sym × BitVec 32)) : State :=
  { State.reset with freq := tableOf entries }

/-- The block after reset with LEN as given. -/
def lengthed (entries : List (Sym × BitVec 8)) : State :=
  { State.reset with len := tableOf entries }

/-- Whether an outcome is a next state that meets `p`. -/
def answers (o : Host.Outcome State Fault Refusal) (p : State → Bool) : Bool :=
  match o with
  | .next t => p t
  | .fault _ => false
  | .refused _ => false

/-- The next state of an outcome that has one. -/
def nextOf (o : Host.Outcome State Fault Refusal) : State :=
  match o with
  | .next t => t
  | .fault _ => State.reset
  | .refused _ => State.reset

theorem of_answers {o : Host.Outcome State Fault Refusal} {p : State → Bool} (h : answers o p = true) :
    ∃ t, o = .next t ∧ p t = true := by
  cases o with
  | next t => exact ⟨t, rfl, h⟩
  | fault f => exact absurd h (by simp [answers])
  | refused r => exact absurd h (by simp [answers])

theorem eq_nextOf {o : Host.Outcome State Fault Refusal} {p : State → Bool} (h : answers o p = true) :
    o = .next (nextOf o) ∧ p (nextOf o) = true := by
  obtain ⟨t, rfl, ht⟩ := of_answers h
  exact ⟨rfl, ht⟩

/-- Words written to CMD, run by the next step. -/
abbrev runWord (s : State) (w : Nat) : Host.Outcome State Fault Refusal :=
  step (s.withFetchWord 32 w)

/-! ### Well-formedness: each check refuses an ill-formed term -/

theorem test_wellFormed_reserved : (CommandWord.mk 0x02 0x000001).wellFormed = false := by decide
theorem test_wellFormed_opcode_zero : (CommandWord.mk 0x00 0).wellFormed = false := by decide
theorem test_wellFormed_opcode_eight : (CommandWord.mk 0x08 0).wellFormed = false := by decide
theorem test_wellFormed_seven : (CommandWord.mk 0x07 0).wellFormed = true := by decide
theorem test_wellFormed_width : (HostOp.read 0x000 2).wellFormed = false := by decide
theorem test_legal_ref : Params.ref.legal = true := by decide
theorem test_legal_maxInput : ({ Params.ref with maxInput := 2 ^ 20 + 1 } : Params).legal = false := by decide
theorem test_legal_outCap : ({ Params.ref with outCap := 0 } : Params).legal = false := by decide
theorem test_legal_maxCodeLen : ({ Params.ref with maxCodeLen := 256 } : Params).legal = false := by decide

/-! ### Decoding: every command's word, written out bit by bit (30_encoding R90, R91), and illegal words (R93) -/

theorem test_decode_clear : decode 0b00000000000000000000000000000001#32 = .ok .clear := by decide
theorem test_decode_count : decode 0b00000000000000000000000000000010#32 = .ok .count := by decide
theorem test_decode_build : decode 0b00000000000000000000000000000011#32 = .ok .build := by decide
theorem test_decode_extract : decode 0b00000000000000000000000000000100#32 = .ok .extract := by decide
theorem test_decode_assign : decode 0b00000000000000000000000000000101#32 = .ok .assign := by decide
theorem test_decode_encode : decode 0b00000000000000000000000000000110#32 = .ok .encode := by decide
theorem test_decode_run : decode 0b00000000000000000000000000000111#32 = .ok .run := by decide
theorem test_decode_zero : decode 0x00000000 = .error (.illegalOpcode 0x00) := by decide
theorem test_decode_eight : decode 0x00000008 = .error (.illegalOpcode 0x08) := by decide
/-- BU-9: 0x102 is not a COUNT. -/
theorem test_decode_reserved : decode 0x00000102 = .error (.reservedBits 0x000001) := by decide
theorem test_decodeTableWord : decodeTableWord 32 0x00000007 = some .run ∧ decodeTableWord 32 0x10000007 = none := by
  decide

/-! ### One step of each command -/

/-- CO-4: FREQ z = 1, the old count of a overwritten. -/
theorem test_count_overwrites :
    answers (runWord { loaded [0x7A] with freq := tableOf [(0x61, 7)] } 0x2)
      (fun t => t.freq.get 0x7A = 1 && t.freq.get 0x61 = 0 && t.errCode = 0 && t.done && !t.busy) = true := by
  decide +kernel

/-- CO-3: IN_LEN = 0 gives ERR = 0x0201, FREQ unchanged, STATUS = 0x06. -/
theorem test_count_empty :
    answers (runWord (counted [(0x61, 7)]) 0x2)
      (fun t => t.freq.get 0x61 = 7 && t.errWord = 0x0201 && t.statusWord t.treeValid = 0x06) = true := by
  decide +kernel

/-- CL-1: CLEAR keeps IN_LEN, IRQ_EN and OVR, and raises irq. -/
theorem test_clear :
    answers (runWord { loaded [0x61, 0x61, 0x62] with
        irqEn := true, ovr := true, freq := tableOf [(0x61, 2)], bitCount := 3, outLen := 1 } 0x1)
      (fun t => t.freq.get 0x61 = 0 && t.inLen = 3 && t.bitCount = 0 && t.outLen = 0 && t.ovr && t.irq) = true := by
  decide +kernel

/-- TB-7: the Internal node (2, a) is ordered before the leaves c and d. -/
theorem test_build_tb7 :
    answers (runWord (counted [(0x61, 1), (0x62, 1), (0x63, 2), (0x64, 2)]) 0x3)
      (fun t => t.nodeCount = 7 && t.root = 6 && decide (t.node.drop 4 =
        [⟨.internal, 0x61, 2, 0, 1⟩, ⟨.internal, 0x61, 4, 4, 2⟩, ⟨.internal, 0x61, 6, 3, 5⟩])) = true := by
  decide +kernel

/-- TB-13: node sums above 32 bits, and the TREE words of node 2 (MIN_SYM in bits 15:8 of word 0, log 21). -/
theorem test_build_tb13 :
    answers (runWord (counted [(0x41, 0xFFFFFFFF), (0x42, 0xFFFFFFFF)]) 0x3)
      (fun t => (t.memRead 0x2020).1 = 0x00004101 && (t.memRead 0x2024).1 = 0xFFFFFFFE &&
        (t.memRead 0x2028).1 = 0x00000001 && (t.memRead 0x202C).1 = 0x00010000) = true := by
  decide +kernel

/-- EX-5: the lengths of TB-7 are d 1, c 2, a 3, b 3; the tree is discarded. -/
theorem test_extract_ex5 :
    answers (runWord (built (counted [(0x61, 1), (0x62, 1), (0x63, 2), (0x64, 2)])) 0x4)
      (fun t => t.len.get 0x64 = 1 && t.len.get 0x63 = 2 && t.len.get 0x61 = 3 && t.len.get 0x62 = 3 &&
        t.len.get 0x65 = 0 && t.nodeCount = 0 && t.root = 0) = true := by
  decide +kernel

/-- EX-7: with MAX_CODE_LEN = 3 the tree TB-14 gives ERR = 0x0403 and is kept. -/
theorem test_extract_ex7 :
    answers (runWord { built (counted [(0x61, 1), (0x62, 1), (0x63, 2), (0x64, 3), (0x65, 5)]) with
        params := { Params.ref with maxCodeLen := 3 } } 0x4)
      (fun t => t.errWord = 0x0403 && t.nodeCount = 9 && t.len.get 0x65 = 0) = true := by
  decide +kernel

/-- P3: lengths a 1, b 2, c 2 give the codes 0, 10, 11. -/
theorem test_assign_p3 :
    answers (runWord (lengthed [(0x61, 1), (0x62, 2), (0x63, 2)]) 0x5)
      (fun t => t.clen.get 0x62 = 2 && t.code.get 0x61 = 0 && t.code.get 0x62 = 2 && t.code.get 0x63 = 3) = true := by
  decide +kernel

/-- P3: with d 1 added the table is oversubscribed; nothing is committed. -/
theorem test_assign_oversubscribed :
    answers (runWord (lengthed [(0x61, 1), (0x62, 2), (0x63, 2), (0x64, 1)]) 0x5)
      (fun t => t.errWord = 0x0504 && t.clen.get 0x64 = 0 && t.clen.get 0x61 = 0) = true := by
  decide +kernel

/-- The code table of another state. -/
def withCode (s t : State) : State := { s with clen := t.clen, code := t.code }

/-- The code table of P3 with input "cab". -/
def codedCab : State :=
  { loaded [0x63, 0x61, 0x62] with
    clen := tableOf [(0x61, 1), (0x62, 2), (0x63, 2)], code := tableOf [(0x62, 2), (0x63, 3)] }

/-- EN-5: "cab" encodes to 11010, so BITCOUNT = 5 and OUT = D0. -/
theorem test_encode_en5 :
    answers (runWord codedCab 0x6)
      (fun t => t.bitCount = 5 && t.outLen = 1 && decide (t.outBuf.read 0 = some 0xD0)) = true := by
  decide +kernel

/-- EN-8: NO_CODE is checked before OUT_OVERFLOW. -/
theorem test_encode_en8 :
    answers (runWord { loaded [0x61, 0x61, 0x62, 0x62, 0x61, 0x61, 0x62, 0x62, 0x61, 0x63] with
        clen := tableOf [(0x61, 1), (0x62, 1)], code := tableOf [(0x62, 1)]
        params := { Params.ref with outCap := 1 } } 0x6)
      (fun t => t.errWord = 0x0605 && t.bitCount = 0 && t.outLen = 0) = true := by
  decide +kernel

/-- RU-1: RUN on "aab". -/
theorem test_run_ru1 :
    answers (runWord (loaded [0x61, 0x61, 0x62]) 0x7)
      (fun t => t.freq.get 0x61 = 2 && t.len.get 0x62 = 1 && t.code.get 0x62 = 1 && t.bitCount = 3 &&
        decide (t.outBuf.read 0 = some 0x20) && t.errWord = 0 && t.statusWord t.treeValid = 0x02) = true := by
  decide +kernel

/-- RU-6: with MAX_CODE_LEN = 3, RUN stops at EXTRACT; COUNT and BUILD have committed; STATUS = 0x26. -/
theorem test_run_ru6 :
    answers (runWord { loaded [0x61, 0x62, 0x63, 0x63, 0x64, 0x64, 0x64, 0x65, 0x65, 0x65, 0x65, 0x65] with
        params := { Params.ref with maxCodeLen := 3 } } 0x7)
      (fun t => t.errWord = 0x0403 && t.freq.get 0x65 = 5 && t.nodeCount = 9 && t.statusWord t.treeValid = 0x26 &&
        t.bitCount = 0) = true := by
  decide +kernel

/-- CO-6: only IN[0] written, IN_LEN = 2. -/
theorem test_count_fault :
    (match runWord { loaded [0x61] with inLen := 2 } 0x2 with
      | .fault .unwrittenInput => true
      | _ => false) = true := by
  decide +kernel

/-- BU-9 as a step: 0x102 is the host's next access, rejected with ERR = 0x0207. -/
theorem test_step_bad_command :
    answers (runWord State.reset 0x102) (fun t => t.errWord = 0x0207 && t.done && !t.busy) = true := by
  decide +kernel

/-! ### Witnesses: states and operands that meet the hypotheses of each obligation -/

/-- The block with a command accepted and not yet performed. -/
def busyWith (i : Instr) : State := State.reset.accept i

/-- The block with turns and host operations to come. -/
def scheduledWith (s : State) (turns : List Turn) (ops : List HostOp) : State :=
  { s with turns := turns, hostOps := ops }

/-- The tree of FREQ a 2, b 1 (TB-1). -/
def treeAB : State := built (counted [(0x61, 2), (0x62, 1)])

/-- The single-leaf tree (TB-2). -/
def treeX : State := built (counted [(0x78, 40)])

theorem counted_ne_nil {entries : List (Sym × BitVec 32)} (x : Sym)
    (h : (tableOf entries).get x ≠ 0) : countedSyms (counted entries).freq ≠ [] := by
  intro e
  exact h (countedSyms_eq_nil.1 e x)

theorem treeAB_counted : countedSyms (counted [(0x61, 2), (0x62, 1)]).freq ≠ [] :=
  counted_ne_nil 0x61 (by decide +kernel)

theorem treeX_counted : countedSyms (counted [(0x78, 40)]).freq ≠ [] :=
  counted_ne_nil 0x78 (by decide +kernel)

theorem treeAB_inv : TreeInv treeAB := built_treeInv treeAB_counted (by simp [counted, State.reset])

theorem treeX_inv : TreeInv treeX := built_treeInv treeX_counted (by simp [counted, State.reset])

theorem reset_treeInv : TreeInv State.reset :=
  ⟨by simp [State.reset], fun h => absurd rfl h, fun _ => rfl⟩

theorem reset_codeInv : CodeInv State.reset :=
  ⟨fun x => by simp [State.reset], fun x => by simp [State.reset]⟩

theorem busy_protocol (i : Instr) : ProtocolInv (busyWith i) :=
  ⟨fun _ => ⟨rfl, rfl⟩, by simp [busyWith, State.accept], fun _ => rfl⟩

theorem witness_LegalCommandWordsExactly : decode 0x00000007 = .ok .run := by decide

theorem witness_EngineStepRunsPendingCommand :
    ((scheduledWith (busyWith .clear) [.engine] []).rst = false ∧
      (scheduledWith (busyWith .clear) [.engine] []).busy = true ∧
      (scheduledWith (busyWith .clear) [.engine] []).turns = .engine :: []) ∧
    ((scheduledWith State.reset [.engine] []).busy = false ∧
      (scheduledWith State.reset [.engine] []).turns = .engine :: []) ∧
    ((busyWith .clear).busy = true ∧ (busyWith .clear).turns = []) :=
  ⟨⟨rfl, rfl, rfl⟩, ⟨rfl, rfl⟩, rfl, rfl⟩

theorem witness_AcceptedWordRunsDecodedCommand :
    ∃ s : State, decode 0x00000003 = .ok .build ∧ s.rst = false ∧ s.busy = false ∧
      s.turns = .host :: .engine :: [] ∧ s.hostOps = .write 0x018 4 0x00000003 :: [] :=
  ⟨scheduledWith State.reset [.host, .engine] [.write 0x018 4 0x00000003], by decide, rfl, rfl, rfl, rfl⟩

/-- A read, a write and a poll with HOST's turn given; a read and an idle HOST with no turn given. -/
theorem witness_HostTurnPerformsOneAccess :
    ∃ s t u v w : State, (s.rst = false ∧ HostMoves s [] ∧ s.hostOps = .read 0x000 4 :: []) ∧
      (t.rst = false ∧ HostMoves t [] ∧ t.hostOps = .write 0x010 4 1 :: []) ∧
      (u.rst = false ∧ HostMoves u [] ∧ u.hostOps = .poll 0x014 0x1 0x0 :: []) ∧
      (v.rst = false ∧ v.turns = [] ∧ HostMoves v [] ∧ v.hostOps = .read 0x000 4 :: []) ∧
      (w.rst = false ∧ HostMoves w [] ∧ w.hostOps = []) :=
  ⟨scheduledWith State.reset [.host] [.read 0x000 4], scheduledWith State.reset [.host] [.write 0x010 4 1],
    scheduledWith State.reset [.host] [HostOp.wait], scheduledWith State.reset [] [.read 0x000 4], State.reset,
    ⟨rfl, .inl rfl, rfl⟩, ⟨rfl, .inl rfl, rfl⟩, ⟨rfl, .inl rfl, rfl⟩, ⟨rfl, rfl, .inr ⟨rfl, rfl, .inl rfl⟩, rfl⟩,
    rfl, .inr ⟨rfl, rfl, .inl rfl⟩, rfl⟩

/-- With HOST's turn given; and with no turn given, the reset input asserted on a busy block. -/
theorem witness_SubWordAccessIsTheOnlyRefusal :
    ∃ s t : State, (HostMoves s [] ∧ s.hostOps = .read 0x000 3 :: [] ∧ step s = .refused .subWordAccess) ∧
      (HostMoves t [] ∧ t.turns = [] ∧ t.hostOps = .read 0x000 3 :: []) ∧ (HostOp.read 0x000 3).width ≠ 4 :=
  ⟨scheduledWith State.reset [.host] [.read 0x000 3],
    scheduledWith { busyWith .run with rst := true } [] [.read 0x000 3],
    ⟨.inl rfl, rfl, rfl⟩, ⟨.inr ⟨rfl, rfl, .inr rfl⟩, rfl, rfl⟩, by decide⟩

theorem witness_UnwrittenInputIsTheOnlyFault :
    ∃ s : State, TreeInv s ∧ 0 < s.inLen.toNat ∧ s.inBuf.read 0 = none ∧ step s = .fault .unwrittenInput :=
  ⟨{ busyWith .count with inLen := 1 }, ⟨by simp [busyWith, State.accept, State.reset], fun h => absurd rfl h, fun _ => rfl⟩,
    by decide, rfl, rfl⟩

theorem witness_ParametersAreConstant : step State.reset = .next State.reset := rfl

/-- With a command pending, idle, and held in reset already. -/
theorem witness_ResetAbortsPendingCommand :
    ((busyWith .run).busy = true ∧ (scheduledWith (busyWith .run) [.assertRst] []).turns = .assertRst :: []) ∧
    (treeAB.busy = false ∧ (scheduledWith treeAB [.assertRst] []).turns = .assertRst :: []) ∧
    (scheduledWith { State.reset with rst := true } [.assertRst] []).turns = .assertRst :: [] :=
  ⟨⟨rfl, rfl⟩, ⟨rfl, rfl⟩, rfl⟩

theorem witness_AssertedResetHoldsTheBlock :
    ∃ s t u v : State, (s.rst = true ∧ s.turns = .releaseRst :: [] ∧ ∃ s', step s = .next s') ∧
      (t.rst = true ∧ HostMoves t [] ∧ t.hostOps = .write 0x018 4 7 :: []) ∧
      (u.rst = true ∧ HostMoves u [] ∧ u.hostOps = .read 0x000 4 :: []) ∧
      (v.rst = true ∧ v.turns = [] ∧ HostMoves v [] ∧ v.hostOps = .read 0x000 4 :: []) :=
  ⟨scheduledWith { State.reset with rst := true } [.releaseRst] [],
    scheduledWith { State.reset with rst := true } [.host] [.write 0x018 4 7],
    scheduledWith { State.reset with rst := true } [.host] [.read 0x000 4],
    scheduledWith { State.reset with rst := true } [] [.read 0x000 4],
    ⟨rfl, rfl, _, rfl⟩, ⟨rfl, .inl rfl, rfl⟩, ⟨rfl, .inl rfl, rfl⟩, rfl, rfl, .inr ⟨rfl, rfl, .inr rfl⟩, rfl⟩

/-- The last IN entry is mapped and the word after it is not; likewise the last OUT entry and the word after. -/
theorem witness_AddressMapIsExact :
    Params.ref.legal = true ∧ decodeAddr Params.ref 0x0043FFFC = some (.inBuf 65535) ∧
    decodeAddr Params.ref 0x00440000 = none ∧ decodeAddr Params.ref 0x00FFFFFC = some (.outBuf (2 ^ 21 - 1)) ∧
    decodeAddr Params.ref 0x01000000 = none ∧ decodeAddr Params.ref 0x03FC = none ∧
    decodeAddr Params.ref 0x0048 = some (.reg .paramMaxCodeLen) ∧ decodeAddr Params.ref 0x004C = none := by
  decide

/-- Misaligned (BU-3); unmapped on the control page (BU-4) and above the block (BU-5). -/
theorem witness_MisalignedOrUnmappedSetsAerr :
    State.reset.params.legal = true ∧ (0x00000002 : Word).toNat % 4 ≠ 0 ∧
    (∀ t : Target, t.inRange State.reset.params → t.addr ≠ (0x0000000C : Word).toNat) ∧
    (∀ t : Target, t.inRange State.reset.params → t.addr ≠ (0x01000000 : Word).toNat) := by
  have hp : State.reset.params.legal = true := by decide
  refine ⟨hp, by decide, fun t hr ha => ?_, fun t hr ha => ?_⟩
  · have := decodeAddr_of_addr hp hr ha
    exact absurd this (by rw [show decodeAddr State.reset.params 0x0000000C = none from by decide]; simp)
  · have := decodeAddr_of_addr hp hr ha
    exact absurd this (by rw [show decodeAddr State.reset.params 0x01000000 = none from by decide]; simp)

/-- The last OUT entry, read-only, while BUSY. -/
theorem witness_BusyWritesAreDropped :
    (busyWith .count).params.legal = true ∧ (busyWith .count).busy = true ∧
    Target.inRange (busyWith .count).params (.outBuf (2 ^ 21 - 1)) ∧
    (Target.outBuf (2 ^ 21 - 1)).addr = (0x00FFFFFC : Word).toNat ∧
    Target.outBuf (2 ^ 21 - 1) ≠ .reg .ctrl ∧ Target.outBuf (2 ^ 21 - 1) ≠ .reg .status := by
  refine ⟨by decide, rfl, ?_, by decide, by decide, by decide⟩
  simp [Target.inRange, busyWith, State.accept, State.reset, Params.ref]

theorem witness_PendingCommandInputsAreStable : (busyWith .encode).busy = true := rfl

/-- IN_LEN at MAX_INPUT and one above it (BU-11). -/
theorem witness_ControlPageWrites :
    State.reset.busy = false ∧ (0x00010000 : Word).toNat ≤ State.reset.params.maxInput ∧
    State.reset.params.maxInput < (0x00010001 : Word).toNat := by
  decide

theorem witness_IdleTableWrites :
    State.reset.params.legal = true ∧ State.reset.busy = false ∧ 65535 < State.reset.params.maxInput := by decide

theorem witness_ReadOnlyWritesAreIgnored :
    State.reset.params.legal = true ∧ Target.inRange State.reset.params (.tree 511 3) ∧
    (Target.tree 511 3).addr = (0x3FFC : Word).toNat ∧ (Target.tree 511 3).readOnly = true ∧
    State.reset.busy = false ∧ (busyWith .build).busy = true ∧
    Target.inRange (busyWith .build).params (.tree 511 3) :=
  ⟨by decide, ⟨by decide, by decide⟩, by decide, rfl, rfl, rfl, ⟨by decide, by decide⟩⟩

/-- Each reason for BAD_CMD alone, the first and last legal opcode, ENGINE's turn next, and the address beside
CMD's. -/
theorem witness_SubmitCommandAcceptsOrRejects :
    (busyWith .run).busy = true ∧ State.reset.busy = false ∧
    (0x00000101 : Word).extractLsb' 8 24 ≠ 0 ∧ ((0x00000000 : Word).extractLsb' 0 8).toNat = 0 ∧
    7 < ((0x00000008 : Word).extractLsb' 0 8).toNat ∧
    ((0x00000007 : Word).extractLsb' 8 24 = 0 ∧ 1 ≤ ((0x00000007 : Word).extractLsb' 0 8).toNat ∧
      ((0x00000007 : Word).extractLsb' 0 8).toNat ≤ 7) ∧
    ((0x00000001 : Word).extractLsb' 8 24 = 0 ∧ 1 ≤ ((0x00000001 : Word).extractLsb' 0 8).toNat ∧
      ((0x00000001 : Word).extractLsb' 0 8).toNat ≤ 7) ∧
    ((scheduledWith State.reset [.engine] []).rst = false ∧ (scheduledWith State.reset [.engine] []).busy = false ∧
      (scheduledWith State.reset [.engine] []).turns = .engine :: []) ∧ (0x0000001C : Word) ≠ 0x018 := by
  decide

theorem witness_IdleRegisterReads : State.reset.busy = false := rfl

theorem witness_StatusBits : treeAB.busy = false := rfl

/-- The last slot, without a tree; the last live slot of a tree. -/
theorem witness_TreeWindowReads :
    (State.reset.params.legal = true ∧ State.reset.busy = false ∧ TreeInv State.reset ∧
      State.reset.nodeCount.toNat ≤ 511 ∧ 3 < 4) ∧
    (treeAB.params.legal = true ∧ treeAB.busy = false ∧ TreeInv treeAB ∧ 2 < treeAB.nodeCount.toNat ∧
      ∃ n, treeAB.node[2]? = some n) :=
  ⟨⟨by decide, rfl, reset_treeInv, by decide, by decide⟩, by decide, rfl, treeAB_inv, by decide +kernel,
    ⟨.internal, 0x61, 3, 1, 0⟩, by decide +kernel⟩

theorem witness_CodeWindowReads :
    State.reset.busy = false ∧ CodeInv State.reset ∧ State.reset.params.maxCodeLen ≤ 255 ∧
    (State.reset.clen.get 0xFF).toNat ≤ 0 :=
  ⟨rfl, reset_codeInv, by decide, by decide +kernel⟩

/-- The last IN entry written and unwritten; an OUT entry that is valid and the first one that is not. -/
theorem witness_DataWindowReads :
    ∃ s : State, s.params.legal = true ∧ s.busy = false ∧ 65535 < s.params.maxInput ∧
      s.inBuf.read 65535 = some 0x61 ∧ s.inBuf.read 0 = none ∧ 0 < s.params.outCap ∧ 0 < s.outLen.toNat ∧
      s.outBuf.read 0 = some 0x20 ∧ 1 < s.params.outCap ∧ s.outLen.toNat ≤ 1 :=
  ⟨{ State.reset with inBuf := [(65535, 0x61)], outBuf := [(0, 0x20)], outLen := 1 },
    by decide, rfl, by decide, rfl, rfl, by decide, by decide, rfl, by decide, by decide⟩

/-- An entry in the write set, one outside it, an IN entry never written, ERR and STATUS. -/
theorem witness_BusyReadsOfTheWriteSet :
    (busyWith .count).params.legal = true ∧ ProtocolInv (busyWith .count) ∧ (busyWith .count).busy = true ∧
    (Target.freq 0xFF).addr = (0x000007FC : Word).toNat ∧ writeSetCovers (busyWith .count).pending (.freq 0xFF) = true ∧
    (Target.len 0x00).addr = (0x00000800 : Word).toNat ∧ writeSetCovers (busyWith .count).pending (.len 0x00) = false ∧
    (Target.inRange (busyWith .count).params (.inBuf 65535) ∧ (Target.inBuf 65535).addr = (0x0043FFFC : Word).toNat ∧
      (busyWith .count).inBuf.read 65535 = none) ∧
    (Target.reg .err).addr = (0x0000001C : Word).toNat ∧ (Target.reg .status).addr = (0x00000014 : Word).toNat ∧
    writeSetCovers (busyWith .count).pending (.reg .nodeCount) = false ∧
    writeSetCovers (busyWith .build).pending (.reg .nodeCount) = true :=
  ⟨by decide, busy_protocol .count, rfl, by decide, rfl, by decide, rfl, ⟨show 65535 < 65536 by decide, by decide, rfl⟩,
    rfl, rfl, rfl, rfl⟩

theorem witness_CommandsWriteOnlyTheirWriteSet :
    (∃ u, exec .clear State.reset = .next u) ∧ writeSetCovers .clear (.reg .inLen) = false ∧
    Target.reg .inLen ≠ .reg .status ∧ Target.reg .inLen ≠ .reg .err :=
  ⟨⟨_, rfl⟩, rfl, by decide, by decide⟩

theorem witness_InterruptIsALevel :
    (∃ t, exec .clear State.reset = .next t) ∧ State.reset.busy = false ∧
    (∀ i, decode 0x00000008 ≠ .ok i) ∧ decode 0x00000001 = .ok .clear ∧ (0x00000002 : Word).getLsbD 1 = true :=
  ⟨⟨_, rfl⟩, rfl, fun i h => by rw [show decode 0x00000008 = .error (.illegalOpcode 0x08) from by decide] at h; simp at h,
    by decide, by decide⟩

theorem witness_EveryCommandCompletesInItsFrame : ∃ t, exec .clear State.reset = .next t := ⟨_, rfl⟩

theorem witness_EveryCommandCompletes :
    TreeInv State.reset ∧ (∀ j, j < (loaded [0x61]).inLen.toNat → ∃ b, (loaded [0x61]).inBuf.read j = some b) ∧
    TreeInv (loaded [0x61]) := by
  refine ⟨reset_treeInv, fun j hj => ?_, ⟨by simp [loaded, State.reset], fun h => absurd rfl h, fun _ => rfl⟩⟩
  have : j = 0 := by
    have h1 : (loaded [0x61]).inLen.toNat = 1 := rfl
    omega
  subst this
  exact ⟨0x61, rfl⟩

theorem witness_FailingStageCommitsNothing :
    ∃ t, Instr.extract ≠ .run ∧ exec .extract State.reset = .next t ∧ t.errCode ≠ 0 :=
  ⟨State.reset.completed 2 4, by decide, rfl, by decide⟩

theorem witness_ErrorCodesByCommand :
    TreeInv State.reset ∧ ∀ i : Instr, ∃ t, exec i State.reset = .next t := by
  refine ⟨reset_treeInv, fun i => ?_⟩
  have : answers (exec i State.reset) (fun _ => true) = true := by
    revert i
    intro i
    cases i <;> decide +kernel
  obtain ⟨t, ht, -⟩ := of_answers this
  exact ⟨t, ht⟩

/-- CO-1 "abca"; CO-3; CO-6. -/
theorem witness_CountResult :
    ((loaded [0x61, 0x62, 0x63, 0x61]).inLen ≠ 0 ∧
      [0x61, 0x62, 0x63, 0x61].length = (loaded [0x61, 0x62, 0x63, 0x61]).inLen.toNat ∧
      ∀ j, j < (loaded [0x61, 0x62, 0x63, 0x61]).inLen.toNat →
        (loaded [0x61, 0x62, 0x63, 0x61]).inBuf.read j = ([0x61, 0x62, 0x63, 0x61] : List Sym)[j]?) ∧
    State.reset.inLen = 0 ∧
    (1 < ({ loaded [0x61] with inLen := 2 } : State).inLen.toNat ∧ (loaded [0x61]).inBuf.read 1 = none) := by
  decide

theorem witness_BuildIsTheGreedyProcedure :
    (∀ x, State.reset.freq.get x = 0) ∧ ∃ x, (counted [(0x61, 2), (0x62, 1)]).freq.get x ≠ 0 :=
  ⟨fun x => by simp [State.reset], 0x61, by decide +kernel⟩

theorem witness_BuildResultShape :
    (∃ x, (counted [(0x61, 2), (0x62, 1)]).freq.get x ≠ 0) ∧
    ∃ t, exec .build (counted [(0x61, 2), (0x62, 1)]) = .next t ∧ t.nodeCount = 3 := by
  refine ⟨⟨0x61, by decide +kernel⟩, ?_⟩
  obtain ⟨t, ht, h⟩ := of_answers (o := exec .build (counted [(0x61, 2), (0x62, 1)]))
    (p := fun t => decide (t.nodeCount = 3)) (by decide +kernel)
  exact ⟨t, ht, by simpa using h⟩

/-- Q after one turn of the loop of TB-5 holds three elements. -/
theorem witness_TieBreakIsTotal :
    ∃ (freq : Table (BitVec 32)) (leaves : List Node) (q : List QEntry),
      leaves = (allSyms.filter fun x => decide (freq.get x ≠ 0)).map (Node.leafOf freq) ∧
      q = (buildLoop 1 leaves (withIndex 0 leaves)).2 ∧ q.length = 3 :=
  ⟨tableOf [(0x61, 1), (0x62, 1), (0x63, 1), (0x64, 1)], _, _, rfl, rfl, by rw [← countedSyms_eq]; decide +kernel⟩

theorem witness_TieBreakIsTotal_function :
    ∃ s s' t t' : State, s ≠ s' ∧ s'.freq = s.freq ∧ exec .build s = .next t ∧ exec .build s' = .next t' ∧
      t.errCode = 0 := by
  obtain ⟨t, ht, h⟩ := of_answers (o := exec .build (counted [(0x61, 2), (0x62, 1)]))
    (p := fun t => decide (t.errCode = 0)) (by decide +kernel)
  obtain ⟨t', ht', -⟩ := of_answers (o := exec .build { counted [(0x61, 2), (0x62, 1)] with irqEn := true })
    (p := fun t => decide (t.errCode = 0)) (by decide +kernel)
  exact ⟨counted [(0x61, 2), (0x62, 1)], { counted [(0x61, 2), (0x62, 1)] with irqEn := true }, t, t',
    fun h => absurd (congrArg State.irqEn h) (by decide +kernel), rfl, ht, ht', by simpa using h⟩

theorem witness_BuiltTreesAreStrictlyBinary : TreeInv treeAB ∧ treeAB.nodeCount ≠ 0 :=
  ⟨treeAB_inv, by decide +kernel⟩

theorem treeAB_leaf : treeAB.liveNodes[0]? = some ⟨.leaf, 0x61, 2, 0, 0⟩ := by decide +kernel

theorem treeAB_root : treeAB.liveNodes[2]? = some ⟨.internal, 0x61, 3, 1, 0⟩ := by decide +kernel

theorem treeAB_depth : AtDepth treeAB.liveNodes treeAB.root.toNat 0 1 := by
  have hr : treeAB.root.toNat = 2 := by decide +kernel
  rw [hr]
  exact .right .root treeAB_root rfl

/-- No tree; a leaf at depth 1 with MAX_CODE_LEN = 0, the one bound below it. -/
theorem witness_ExtractErrors :
    (TreeInv State.reset ∧ State.reset.nodeCount = 0) ∧
    ∃ (s : State) (n : Node), TreeInv s ∧ s.nodeCount ≠ 0 ∧ AtDepth s.liveNodes s.root.toNat 0 1 ∧
      s.liveNodes[0]? = some n ∧ n.kind = .leaf ∧ s.params.maxCodeLen < max 1 1 :=
  ⟨⟨reset_treeInv, rfl⟩, { treeAB with params := { Params.ref with maxCodeLen := 0 } }, _,
    ⟨treeAB_inv.arena_le, treeAB_inv.built, treeAB_inv.no_tree⟩, witness_BuiltTreesAreStrictlyBinary.2,
    treeAB_depth, treeAB_leaf, rfl, by decide⟩

/-- The single-leaf tree, whose leaf is its root. -/
theorem witness_ExtractGivesDepths :
    TreeInv treeX ∧ treeX.nodeCount ≠ 0 ∧ 1 ≤ treeX.params.maxCodeLen ∧
    ∀ (i : Nat) (n : Node) (d : Nat), AtDepth treeX.liveNodes treeX.root.toNat i d → treeX.liveNodes[i]? = some n →
      n.kind = .leaf → d ≤ treeX.params.maxCodeLen := by
  have hl : treeX.liveNodes = [⟨.leaf, 0x78, 40, 0, 0⟩] := by decide +kernel
  refine ⟨treeX_inv, by decide +kernel, by decide, fun i n d hd _ _ => ?_⟩
  cases hd with
  | root => exact Nat.zero_le _
  | left _ hn hk =>
    rw [hl] at hn
    rw [List.mem_singleton.1 (List.mem_of_getElem? hn)] at hk
    exact absurd hk (by decide)
  | right _ hn hk =>
    rw [hl] at hn
    rw [List.mem_singleton.1 (List.mem_of_getElem? hn)] at hk
    exact absurd hk (by decide)

/-- SRC-A (k = 2) and SRC-B (k = 1) through BUILD and EXTRACT. -/
theorem witness_BuildThenExtractLaws :
    (∃ t u, (allSyms.filter fun x => decide ((counted [(0x61, 2), (0x62, 1)]).freq.get x ≠ 0)).length = 2 ∧
      exec .build (counted [(0x61, 2), (0x62, 1)]) = .next t ∧ exec .extract t = .next u ∧ u.errCode = 0) ∧
    (∃ t u, (allSyms.filter fun x => decide ((counted [(0x78, 40)]).freq.get x ≠ 0)).length = 1 ∧
      exec .build (counted [(0x78, 40)]) = .next t ∧ exec .extract t = .next u ∧ u.errCode = 0) := by
  constructor
  · obtain ⟨ht, -⟩ := eq_nextOf (o := exec .build (counted [(0x61, 2), (0x62, 1)])) (p := fun _ => true)
      (by decide +kernel)
    obtain ⟨hu, he⟩ := eq_nextOf (o := exec .extract (nextOf (exec .build (counted [(0x61, 2), (0x62, 1)]))))
      (p := fun u => decide (u.errCode = 0)) (by decide +kernel)
    exact ⟨_, _, by rw [← countedSyms_eq]; decide +kernel, ht, hu, by simpa using he⟩
  · obtain ⟨ht, -⟩ := eq_nextOf (o := exec .build (counted [(0x78, 40)])) (p := fun _ => true) (by decide +kernel)
    obtain ⟨hu, he⟩ := eq_nextOf (o := exec .extract (nextOf (exec .build (counted [(0x78, 40)]))))
      (p := fun u => decide (u.errCode = 0)) (by decide +kernel)
    exact ⟨_, _, by rw [← countedSyms_eq]; decide +kernel, ht, hu, by simpa using he⟩

/-- AS-11 is oversubscribed: a 1, b 1, c 1. -/
theorem oversubscribed_as11 : 1 < kraftSum (lengthed [(0x61, 1), (0x62, 1), (0x63, 1)]).len :=
  canonicalAssign_eq_none.1 (by decide +kernel)

/-- P3 is not: a 1, b 2, c 2. -/
theorem accepted_p3 : kraftSum (lengthed [(0x61, 1), (0x62, 2), (0x63, 2)]).len ≤ 1 := by
  by_contra h
  have := canonicalAssign_eq_none.2 (not_le.1 h)
  exact absurd this (by decide +kernel)

/-- AS-13; AS-14 with MAX_CODE_LEN = 3; AS-11. -/
theorem witness_AssignErrors :
    (∀ x, State.reset.len.get x = 0) ∧
    (∃ x, ({ lengthed [(0x61, 4)] with params := { Params.ref with maxCodeLen := 3 } } : State).params.maxCodeLen <
      ((lengthed [(0x61, 4)]).len.get x).toNat) ∧
    ((∀ x, ((lengthed [(0x61, 1), (0x62, 1), (0x63, 1)]).len.get x).toNat ≤ Params.ref.maxCodeLen) ∧
      1 < kraftSum (lengthed [(0x61, 1), (0x62, 1), (0x63, 1)]).len) :=
  ⟨fun x => by simp [State.reset], ⟨0x61, by decide +kernel⟩, fun x => Nat.le_of_lt_succ (BitVec.isLt _),
    oversubscribed_as11⟩

theorem witness_AssignGivesCanonicalCodes :
    (∃ x, (lengthed [(0x61, 1), (0x62, 2), (0x63, 2)]).len.get x ≠ 0) ∧
    (∀ x, ((lengthed [(0x61, 1), (0x62, 2), (0x63, 2)]).len.get x).toNat ≤ Params.ref.maxCodeLen) ∧
    kraftSum (lengthed [(0x61, 1), (0x62, 2), (0x63, 2)]).len ≤ 1 :=
  ⟨⟨0x61, by decide +kernel⟩, fun x => Nat.le_of_lt_succ (BitVec.isLt _), accepted_p3⟩

theorem witness_AssignedCodesArePrefixFree :
    ∃ t, exec .assign (lengthed [(0x61, 1), (0x62, 2), (0x63, 2)]) = .next t ∧ t.errCode = 0 := by
  obtain ⟨t, ht, h⟩ := of_answers (o := exec .assign (lengthed [(0x61, 1), (0x62, 2), (0x63, 2)]))
    (p := fun t => decide (t.errCode = 0)) (by decide +kernel)
  exact ⟨t, ht, by simpa using h⟩

/-- Symbols of different lengths, and of one length. -/
theorem witness_CanonicalCodesIncrease :
    (∃ t, exec .assign (lengthed [(0x61, 1), (0x62, 2), (0x63, 2)]) = .next t ∧ t.errCode = 0) ∧
    (lengthed [(0x61, 1), (0x62, 2), (0x63, 2)]).len.get 0x61 ≠ 0 ∧
    (lengthed [(0x61, 1), (0x62, 2), (0x63, 2)]).len.get 0x62 ≠ 0 ∧
    (lengthed [(0x61, 1), (0x62, 2), (0x63, 2)]).len.get 0x63 ≠ 0 ∧
    (lengthed [(0x61, 1), (0x62, 2), (0x63, 2)]).len.get 0x61 <
      (lengthed [(0x61, 1), (0x62, 2), (0x63, 2)]).len.get 0x62 ∧
    (lengthed [(0x61, 1), (0x62, 2), (0x63, 2)]).len.get 0x62 =
      (lengthed [(0x61, 1), (0x62, 2), (0x63, 2)]).len.get 0x63 ∧ (0x62 : Sym) < 0x63 :=
  ⟨witness_AssignedCodesArePrefixFree, by decide +kernel⟩

theorem witness_AssignAfterExtractSucceeds :
    ∃ t, TreeInv treeAB ∧ exec .extract treeAB = .next t ∧ t.errCode = 0 ∧ ∃ x, t.len.get x ≠ 0 := by
  obtain ⟨ht, he⟩ := eq_nextOf (o := exec .extract treeAB) (p := fun t => decide (t.errCode = 0 ∧ t.len.get 0x61 ≠ 0))
    (by decide +kernel)
  simp only [decide_eq_true_eq] at he
  exact ⟨_, treeAB_inv, ht, he.1, 0x61, he.2⟩

/-- EN-5, and EN-10, whose 8 bits fill OUT_CAP = 1 exactly. -/
def codedEn10 : State :=
  { loaded [0x61, 0x61, 0x62, 0x62, 0x61, 0x61, 0x62, 0x62] with
    clen := tableOf [(0x61, 1), (0x62, 1)], code := tableOf [(0x62, 1)]
    params := { Params.ref with outCap := 1 } }

theorem witness_EncodePacksTheCodewords :
    ∃ bits : List Bool, codedEn10.params.legal = true ∧
      [0x61, 0x61, 0x62, 0x62, 0x61, 0x61, 0x62, 0x62].length = codedEn10.inLen.toNat ∧
      (∀ j, j < codedEn10.inLen.toNat →
        codedEn10.inBuf.read j = ([0x61, 0x61, 0x62, 0x62, 0x61, 0x61, 0x62, 0x62] : List Sym)[j]?) ∧
      (∀ x ∈ ([0x61, 0x61, 0x62, 0x62, 0x61, 0x61, 0x62, 0x62] : List Sym), codedEn10.clen.get x ≠ 0) ∧
      bits = (([0x61, 0x61, 0x62, 0x62, 0x61, 0x61, 0x62, 0x62] : List Sym).flatMap fun x =>
        (List.range (codedEn10.clen.get x).toNat).map fun j =>
          (codedEn10.code.get x).getLsbD ((codedEn10.clen.get x).toNat - 1 - j)) ∧
      bits.length = 8 ∧ (bits.length + 7) / 8 ≤ codedEn10.params.outCap :=
  ⟨_, by decide, by decide, by decide, by decide +kernel, rfl, by decide +kernel, by decide +kernel⟩

/-- EN-4; EN-6 "abc" without a code for c; EN-7, 9 bits with OUT_CAP = 1. -/
theorem witness_EncodeErrors :
    State.reset.inLen = 0 ∧
    ((∀ j, j < (loaded [0x61, 0x62, 0x63]).inLen.toNat →
        (loaded [0x61, 0x62, 0x63]).inBuf.read j = ([0x61, 0x62, 0x63] : List Sym)[j]?) ∧
      ∃ x ∈ ([0x61, 0x62, 0x63] : List Sym), (loaded [0x61, 0x62, 0x63]).clen.get x = 0) ∧
    ∃ (s : State) (syms : List Sym), syms.length = s.inLen.toNat ∧
      (∀ j, j < s.inLen.toNat → s.inBuf.read j = syms[j]?) ∧ (∀ x ∈ syms, s.clen.get x ≠ 0) ∧
      8 * s.params.outCap < (syms.map fun x => (s.clen.get x).toNat).sum :=
  ⟨rfl, ⟨by decide, 0x63, by decide, by decide +kernel⟩,
    { loaded (List.replicate 9 0x61) with
      clen := tableOf [(0x61, 1)], params := { Params.ref with outCap := 1 } },
    List.replicate 9 0x61, by decide, by decide, by decide +kernel, by decide +kernel⟩

theorem witness_EncodedStreamDecodes :
    ∃ s t u w : State, exec .assign s = .next t ∧ t.errCode = 0 ∧ u.clen = t.clen ∧ u.code = t.code ∧
      u.params.legal = true ∧ [0x63, 0x61, 0x62].length = u.inLen.toNat ∧
      (∀ j, j < u.inLen.toNat → u.inBuf.read j = ([0x63, 0x61, 0x62] : List Sym)[j]?) ∧
      exec .encode u = .next w ∧ w.errCode = 0 := by
  obtain ⟨ht, he⟩ := eq_nextOf (o := exec .assign (lengthed [(0x61, 1), (0x62, 2), (0x63, 2)]))
    (p := fun t => decide (t.errCode = 0)) (by decide +kernel)
  obtain ⟨w, hw, hw0⟩ := of_answers (o := exec .encode (withCode (loaded [0x63, 0x61, 0x62])
      (nextOf (exec .assign (lengthed [(0x61, 1), (0x62, 2), (0x63, 2)]))))) (p := fun w => decide (w.errCode = 0)) (by decide +kernel)
  simp only [decide_eq_true_eq] at he hw0
  exact ⟨_, _, withCode (loaded [0x63, 0x61, 0x62]) _, w, ht, he, rfl, rfl, by decide, by decide, by decide, hw, hw0⟩

/-- RUN on "aab" as five commands (RU-1): every stage succeeds. And one run that stops at COUNT. -/
theorem witness_RunIsTheFiveCommands :
    (∃ s s1 s2 s3 s4 s5 : State, exec .count s = .next s1 ∧ s1.errCode = 0 ∧
      exec .build (s1.accept .build) = .next s2 ∧ s2.errCode = 0 ∧
      exec .extract (s2.accept .extract) = .next s3 ∧ s3.errCode = 0 ∧
      exec .assign (s3.accept .assign) = .next s4 ∧ s4.errCode = 0 ∧
      exec .encode (s4.accept .encode) = .next s5) ∧
    ∃ s1, exec .count State.reset = .next s1 ∧ s1.errCode ≠ 0 := by
  obtain ⟨h1, e1⟩ := eq_nextOf (o := exec .count (loaded [0x61, 0x61, 0x62]))
    (p := fun t => decide (t.errCode = 0)) (by decide +kernel)
  obtain ⟨h2, e2⟩ := eq_nextOf (o := exec .build ((nextOf (exec .count (loaded [0x61, 0x61, 0x62]))).accept .build))
    (p := fun t => decide (t.errCode = 0)) (by decide +kernel)
  obtain ⟨h3, e3⟩ := eq_nextOf (o := exec .extract ((nextOf (exec .build
      ((nextOf (exec .count (loaded [0x61, 0x61, 0x62]))).accept .build))).accept .extract))
    (p := fun t => decide (t.errCode = 0)) (by decide +kernel)
  obtain ⟨h4, e4⟩ := eq_nextOf (o := exec .assign ((nextOf (exec .extract ((nextOf (exec .build
      ((nextOf (exec .count (loaded [0x61, 0x61, 0x62]))).accept .build))).accept .extract))).accept .assign))
    (p := fun t => decide (t.errCode = 0)) (by decide +kernel)
  obtain ⟨h5, -⟩ := eq_nextOf (o := exec .encode ((nextOf (exec .assign ((nextOf (exec .extract ((nextOf (exec .build
      ((nextOf (exec .count (loaded [0x61, 0x61, 0x62]))).accept .build))).accept .extract))).accept .assign))).accept
      .encode)) (p := fun _ => true) (by decide +kernel)
  simp only [decide_eq_true_eq] at e1 e2 e3 e4
  exact ⟨⟨_, _, _, _, _, _, h1, e1, h2, e2, h3, e3, h4, e4, h5⟩, State.reset.completed 1 2, rfl, by decide⟩

/-- RU-1's input through COUNT, BUILD, EXTRACT and ASSIGN in sequence, and ENCODE after them. -/
theorem witness_BuildThenExtractLaws_sequence :
    ∃ s s1 t u : State, CodeSequence s s1 t ∧ s.params.legal = true ∧ [0x61, 0x61, 0x62].length = s.inLen.toNat ∧
      (∀ j, j < s.inLen.toNat → s.inBuf.read j = ([0x61, 0x61, 0x62] : List Sym)[j]?) ∧
      exec .encode (t.accept .encode) = .next u ∧ u.errCode = 0 := by
  obtain ⟨h1, e1⟩ := eq_nextOf (o := exec .count (loaded [0x61, 0x61, 0x62]))
    (p := fun t => decide (t.errCode = 0)) (by decide +kernel)
  generalize hs1 : nextOf (exec .count (loaded [0x61, 0x61, 0x62])) = s1 at h1 e1
  obtain ⟨h2, e2⟩ := eq_nextOf (o := exec .build (s1.accept .build))
    (p := fun t => decide (t.errCode = 0)) (by rw [← hs1]; decide +kernel)
  generalize hs2 : nextOf (exec .build (s1.accept .build)) = s2 at h2 e2
  obtain ⟨h3, e3⟩ := eq_nextOf (o := exec .extract (s2.accept .extract))
    (p := fun t => decide (t.errCode = 0)) (by rw [← hs2, ← hs1]; decide +kernel)
  generalize hs3 : nextOf (exec .extract (s2.accept .extract)) = s3 at h3 e3
  obtain ⟨h4, e4⟩ := eq_nextOf (o := exec .assign (s3.accept .assign))
    (p := fun t => decide (t.errCode = 0)) (by rw [← hs3, ← hs2, ← hs1]; decide +kernel)
  generalize hs4 : nextOf (exec .assign (s3.accept .assign)) = s4 at h4 e4
  obtain ⟨h5, e5⟩ := eq_nextOf (o := exec .encode (s4.accept .encode))
    (p := fun t => decide (t.errCode = 0)) (by rw [← hs4, ← hs3, ← hs2, ← hs1]; decide +kernel)
  simp only [decide_eq_true_eq] at e1 e2 e3 e4 e5
  exact ⟨_, s1, s4, _, ⟨s2, s3, ⟨h1, e1⟩, ⟨h2, e2⟩, ⟨h3, e3⟩, h4, e4⟩, by decide, by decide, by decide, h5, e5⟩

/-- SRC-B: 40 × 'x'. -/
theorem witness_RunOnOneSymbol :
    (loaded (List.replicate 40 0x78)).params.legal = true ∧ (loaded (List.replicate 40 0x78)).inLen ≠ 0 ∧
    (∀ j, j < (loaded (List.replicate 40 0x78)).inLen.toNat →
      (loaded (List.replicate 40 0x78)).inBuf.read j = some 0x78) ∧
    ((loaded (List.replicate 40 0x78)).inLen.toNat + 7) / 8 ≤ (loaded (List.replicate 40 0x78)).params.outCap := by
  decide +kernel

/-- RU-1's input, with the least MAX_CODE_LEN and OUT_CAP that it fits. -/
def tightAab : State :=
  { loaded [0x61, 0x61, 0x62] with params := { Params.ref with maxCodeLen := 1, outCap := 1 } }

/-- In the tree of "aab" each leaf is one level below the root (TB-1). -/
theorem leaves_aab {i d : Nat} {n : Node} (h : AtDepth (treeNodes (frequencies [0x61, 0x61, 0x62]))
      (treeRoot (frequencies [0x61, 0x61, 0x62])) i d)
    (hn : (treeNodes (frequencies [0x61, 0x61, 0x62]))[i]? = some n) (hk : n.kind = .leaf) : d = 1 := by
  have hne : countedSyms (frequencies [0x61, 0x61, 0x62]) ≠ [] := countedSyms_frequencies (by decide) (by simp)
  have hl : leafDepths (treeNodes (frequencies [0x61, 0x61, 0x62])) (treeRoot (frequencies [0x61, 0x61, 0x62])) =
    some [(0x62, 1), (0x61, 1)] := by decide +kernel
  have hroot : (treeNodes (frequencies [0x61, 0x61, 0x62]))[treeRoot (frequencies [0x61, 0x61, 0x62])]? =
    some ⟨.internal, 0x61, 3, 1, 0⟩ := by decide +kernel
  have hm := (mem_leafDepths hne hl).1 i n d h hn hk
  have hi : i ≠ treeRoot (frequencies [0x61, 0x61, 0x62]) := by
    rintro rfl
    rw [hroot] at hn
    rw [← Option.some.inj hn] at hk
    exact absurd hk (by decide)
  rw [if_neg hi] at hm
  rcases List.mem_cons.1 hm with h | h
  · exact (Prod.mk.inj h).2
  · exact (Prod.mk.inj (List.mem_singleton.1 h)).2

theorem witness_RunEncodesEveryInput :
    (tightAab.params.legal = true ∧ tightAab.inLen ≠ 0 ∧ [0x61, 0x61, 0x62].length = tightAab.inLen.toNat ∧
      ∀ j, j < tightAab.inLen.toNat → tightAab.inBuf.read j = ([0x61, 0x61, 0x62] : List Sym)[j]?) ∧
    (∃ (c b : State) (lens : Sym → Nat), (∀ x, (c.freq.get x).toNat = ([0x61, 0x61, 0x62] : List Sym).count x) ∧
      exec .build c = .next b ∧
      (∀ (i : Nat) (n : Node) (d : Nat), AtDepth b.liveNodes b.root.toNat i d → b.liveNodes[i]? = some n →
        n.kind = .leaf → lens n.minSym = max d 1) ∧
      (∀ x ∈ ([0x61, 0x61, 0x62] : List Sym), lens x ≤ tightAab.params.maxCodeLen) ∧
      (([0x61, 0x61, 0x62] : List Sym).map lens).sum ≤ 8 * tightAab.params.outCap) ∧
    ((loaded [0x61, 0x61, 0x62]).params.maxCodeLen = 255 ∧
      255 * (loaded [0x61, 0x61, 0x62]).inLen.toNat ≤ 8 * (loaded [0x61, 0x61, 0x62]).params.outCap) := by
  have hne : countedSyms (frequencies [0x61, 0x61, 0x62]) ≠ [] := countedSyms_frequencies (by decide) (by simp)
  refine ⟨by decide, ⟨{ State.reset with freq := frequencies [0x61, 0x61, 0x62] },
    (built { State.reset with freq := frequencies [0x61, 0x61, 0x62] }).completed 0 0, fun _ => 1, fun x => ?_, ?_,
    fun i n d h hn hk => ?_, by decide, by decide⟩, by decide⟩
  · show ((frequencies _).get x).toNat = _
    have := List.count_le_length (a := x) (l := ([0x61, 0x61, 0x62] : List Sym))
    simp only [List.length_cons, List.length_nil] at this
    rw [frequencies_get, BitVec.toNat_ofNat, Nat.mod_eq_of_lt (by omega)]
  · rcases buildStage_cases { State.reset with freq := frequencies [0x61, 0x61, 0x62] } with ⟨h, -⟩ | ⟨-, h⟩
    · exact absurd h hne
    · exact congrArg StageResult.complete h
  · have e1 : ((built { State.reset with freq := frequencies [0x61, 0x61, 0x62] }).completed 0 0).liveNodes =
      treeNodes (frequencies [0x61, 0x61, 0x62]) := built_liveNodes hne
    have e2 : ((built { State.reset with freq := frequencies [0x61, 0x61, 0x62] }).completed 0 0).root.toNat =
      treeRoot (frequencies [0x61, 0x61, 0x62]) := built_root hne
    rw [e1, e2] at h
    rw [e1] at hn
    rw [leaves_aab h hn hk]
    rfl

/-- An ENGINE step from a state that meets each invariant. -/
theorem witness_StepKeepsTheBusyProtocol :
    ∃ t, ProtocolInv (busyWith .clear) ∧ step (busyWith .clear) = .next t :=
  ⟨_, busy_protocol .clear, rfl⟩

theorem witness_StepKeepsInLenLegal :
    ∃ s t : State, InLenInv s ∧ s.inLen.toNat = s.params.maxInput ∧ step s = .next t :=
  ⟨{ State.reset with inLen := 65536 }, _, ⟨by decide⟩, by decide, rfl⟩

theorem witness_StepKeepsBuffersCanonical : ∃ t, BufferInv (busyWith .clear) ∧ step (busyWith .clear) = .next t := by
  refine ⟨_, ⟨?_, ?_, ?_, ?_⟩, rfl⟩ <;> simp [busyWith, State.accept, State.reset, Memory.wf, Memory.within]

/-- For both invariants: an ENGINE step from empty tables; a step with P3's code table. -/
theorem witness_StepKeepsCodesInTheirLengths :
    (∃ t, CodeInv (busyWith .assign) ∧ step (busyWith .assign) = .next t) ∧
    ∃ s t : State, PrefixFree s.clen s.code ∧ s.clen.get 0x62 = 2 ∧ step s = .next t := by
  constructor
  · obtain ⟨t, ht, -⟩ := of_answers (o := step (busyWith .assign)) (p := fun _ => true) (by decide +kernel)
    exact ⟨t, ⟨reset_codeInv.code_lt, reset_codeInv.clen_le⟩, ht⟩
  · obtain ⟨ht, he⟩ := eq_nextOf (o := exec .assign (lengthed [(0x61, 1), (0x62, 2), (0x63, 2)]))
      (p := fun t => decide (t.errCode = 0 ∧ t.clen.get 0x62 = 2)) (by decide +kernel)
    simp only [decide_eq_true_eq] at he
    obtain ⟨u, hu, rest⟩ := committed_of_complete
      (show (assignStage (lengthed [(0x61, 1), (0x62, 2), (0x63, 2)])).complete = _ from ht) he.1
    obtain ⟨v, hv, -⟩ := of_answers
      (o := step (nextOf (exec .assign (lengthed [(0x61, 1), (0x62, 2), (0x63, 2)])))) (p := fun _ => true)
      (by decide +kernel)
    rcases assignStage_cases (lengthed [(0x61, 1), (0x62, 2), (0x63, 2)]) with
      ⟨-, h⟩ | ⟨-, -, h⟩ | ⟨-, -, -, h⟩ | ⟨-, -, -, cl, co, hc, h⟩ <;> rw [h] at hu <;> cases hu
    exact ⟨_, v, by rw [rest]; exact canonicalAssign_prefixFree hc, he.2, hv⟩

theorem witness_StepKeepsTheOutputConsistent : ∃ t, OutputInv (busyWith .encode) ∧ step (busyWith .encode) = .next t :=
  ⟨_, ⟨by decide, by decide, by decide, fun b h => absurd h (by simp [busyWith, State.accept, State.reset])⟩, rfl⟩

theorem witness_StepKeepsTheTreeBuilt : ∃ t, TreeInv treeAB ∧ step treeAB = .next t := ⟨_, treeAB_inv, rfl⟩

end Sys2Proof.Tests
end

section
/-! PROOFS of the family 00_scope: the parameters are constants, a failing stage commits nothing, and the laws of
BUILD then EXTRACT and of COUNT, BUILD, EXTRACT, ASSIGN in sequence. -/

namespace Sys2Proof.Machine

/-! ### The parameters (00_scope R8) -/

/-- No host write reaches the parameters. -/
@[simp] theorem State.memWrite_params (s : State) (addr v : Word) : (s.memWrite addr v).params = s.params := by
  rcases memWrite_cases s addr v with h | ⟨-, h⟩ | ⟨-, h⟩ | h | h |
    ⟨-, ⟨_, -, h⟩ | ⟨-, h⟩ | ⟨-, h⟩ | ⟨_, h⟩ | ⟨_, h⟩ | ⟨_, -, h⟩⟩
  all_goals simp [h]

theorem step_params {s t : State} (h : step s = .next t) : t.params = s.params :=
  step_keeps (P := fun u => u.params = s.params)
    (henv := fun _ _ hu ht => (congrArg State.params ht).trans hu)
    (hreset := fun _ hu => hu)
    (hexec := fun _ _ _ hu he => (exec_next he).1.params.trans hu)
    (hwrite := fun u addr v hu => (u.memWrite_params addr v).trans hu)
    (haerr := fun _ hu => hu) rfl h

/-- Settles O9: every way a step can go keeps the parameters. -/
theorem parametersAreConstant : Obligations.ParametersAreConstant :=
  fun _ _ h => step_params h

/-! ### A command as the end of its stage (41 R120) -/

/-- The pseudocode each command performs. -/
def stageOf (i : Instr) (s : State) : StageResult :=
  match i with
  | .clear => clearStage s
  | .count => countStage s
  | .build => buildStage s
  | .extract => extractStage s
  | .assign => assignStage s
  | .encode => encodeStage s
  | .run => runStage s

theorem exec_eq_complete (i : Instr) (s : State) : exec i s = (stageOf i s).complete := by
  cases i <;> rfl

/-- A command that ends without an error ends as its stage commits. -/
theorem stageOf_committed {i : Instr} {s t : State} (h : exec i s = .next t) (h0 : t.errCode = 0) :
    ∃ u, stageOf i s = .committed u ∧ t = u.completed 0 0 :=
  committed_of_complete ((exec_eq_complete i s).symm.trans h) h0

/-- 00_scope R14: a single stage that raises an error hands on the state it began with, and names itself. -/
theorem stageOf_error {i : Instr} {s u : State} {c : ErrCode} {g : BitVec 8} (hi : i ≠ .run)
    (h : stageOf i s = .error u c g) : u = s ∧ g = i.opcode := by
  cases i with
  | clear => cases h
  | count =>
    rcases countStage_cases s with ⟨-, he⟩ | ⟨-, -, he⟩ | ⟨-, _, -, he⟩
    all_goals cases he.symm.trans h
    exact ⟨rfl, rfl⟩
  | build =>
    rcases buildStage_cases s with ⟨-, he⟩ | ⟨-, he⟩
    all_goals cases he.symm.trans h
    exact ⟨rfl, rfl⟩
  | extract =>
    rcases extractStage_cases s with ⟨-, he⟩ | ⟨-, -, he⟩ | ⟨-, _, -, ⟨-, he⟩ | ⟨-, he⟩⟩
    all_goals cases he.symm.trans h
    all_goals exact ⟨rfl, rfl⟩
  | assign =>
    rcases assignStage_cases s with ⟨-, he⟩ | ⟨-, -, he⟩ | ⟨-, -, -, he⟩ | ⟨-, -, -, _, _, -, he⟩
    all_goals cases he.symm.trans h
    all_goals exact ⟨rfl, rfl⟩
  | encode =>
    rcases encodeStage_cases s with ⟨-, he⟩ | ⟨_, -, ⟨-, he⟩ | ⟨-, ⟨-, he⟩ | ⟨-, he⟩⟩⟩
    all_goals cases he.symm.trans h
    all_goals exact ⟨rfl, rfl⟩
  | run => exact absurd rfl hi

/-- Settles O32: an error end completes the very state the stage began with. -/
theorem failingStageCommitsNothing : Obligations.FailingStageCommitsNothing := by
  intro i s t hi h hne
  rw [exec_eq_complete] at h
  rcases complete_eq_next.1 h with ⟨u, -, rfl⟩ | ⟨u, c, g, hr, rfl⟩
  · exact absurd rfl hne
  · obtain ⟨rfl, rfl⟩ := stageOf_error hi hr
    rfl

/-! ### The lengths of BUILD's tree (42 R147) -/

/-- A list without repetition that holds one value only. -/
theorem eq_singleton_of_mem_iff {α : Type} {l : List α} {x : α} (hn : l.Nodup) (h : ∀ y, y ∈ l ↔ y = x) :
    l = [x] :=
  List.perm_singleton.1 ((List.perm_ext_iff_of_nodup hn (List.nodup_singleton x)).2 (by simpa using h))

theorem two_le_length_of_mem {α : Type} {l : List α} {x y : α} (hx : x ∈ l) (hy : y ∈ l) (hne : x ≠ y) :
    2 ≤ l.length := by
  match l with
  | [a] => exact absurd ((List.mem_singleton.1 hx).trans (List.mem_singleton.1 hy).symm) hne
  | _ :: _ :: _ => simp

section TreeLengths

variable {freq : Table (BitVec 32)} {leaves : List (Sym × Nat)}

/-- `leaves` is what the traversal of 42 R145 answers on the tree BUILD makes of `freq`. -/
structure TreeLeaves (freq : Table (BitVec 32)) (leaves : List (Sym × Nat)) : Prop where
  counted : countedSyms freq ≠ []
  answer : leafDepths (treeNodes freq) (treeRoot freq) = some leaves

/-- The traversal answers once: what `leafDepths_tree` says holds of `leaves`. -/
theorem TreeLeaves.depths (h : TreeLeaves freq leaves) :
    (leaves.map Prod.fst).Perm (countedSyms freq) ∧
      (∀ x ∈ leaves, 1 ≤ x.2 ∧ x.2 ≤ 255) ∧
      ((countedSyms freq).length = 1 → ∀ x ∈ leaves, x.2 = 1) ∧
      (2 ≤ (countedSyms freq).length →
        (∀ x ∈ leaves, x.2 ≤ (countedSyms freq).length - 1) ∧
        (leaves.map fun x => (1 / 2 : ℚ) ^ x.2).sum = 1) := by
  obtain ⟨leaves', hl, hall⟩ := leafDepths_tree h.counted
  obtain rfl : leaves = leaves' := Option.some.inj (h.answer.symm.trans hl)
  exact hall

theorem TreeLeaves.bounds (h : TreeLeaves freq leaves) : ∀ x ∈ leaves, 1 ≤ x.2 ∧ x.2 ≤ 255 := by
  obtain ⟨-, hb, -⟩ := h.depths
  exact hb

theorem TreeLeaves.nodup (h : TreeLeaves freq leaves) : (leaves.map Prod.fst).Nodup :=
  h.depths.1.nodup_iff.2 (nodup_countedSyms freq)

/-- A counted symbol is a leaf, and its length is its depth. -/
theorem TreeLeaves.exists_depth (h : TreeLeaves freq leaves) {x : Sym} (hx : freq.get x ≠ 0) :
    ∃ d, (x, d) ∈ leaves ∧ ((lengthsOf leaves).get x).toNat = d := by
  have hm : x ∈ leaves.map Prod.fst := h.depths.1.mem_iff.2 (mem_countedSyms.2 hx)
  obtain ⟨⟨_, d⟩, hd, rfl⟩ := List.mem_map.1 hm
  exact ⟨d, hd, lengthsOf_of_mem h.nodup hd (h.bounds _ hd).2⟩

/-- 42 R147 item 1: exactly the counted symbols have a length. -/
theorem TreeLeaves.length_ne_zero_iff (h : TreeLeaves freq leaves) (x : Sym) :
    (lengthsOf leaves).get x ≠ 0 ↔ freq.get x ≠ 0 := by
  rw [← mem_lengthSyms, (lengthSyms_lengthsOf h.nodup h.bounds).mem_iff, h.depths.1.mem_iff, mem_countedSyms]

/-- 42 R147 item 2. -/
theorem TreeLeaves.kraft_eq_one (h : TreeLeaves freq leaves) (hk : 2 ≤ (countedSyms freq).length) :
    kraftSum (lengthsOf leaves) = 1 := by
  obtain ⟨-, hb, -, htwo⟩ := h.depths
  rw [kraftSum_lengthsOf h.nodup hb]
  exact (htwo hk).2

/-- 42 R147 item 3. -/
theorem TreeLeaves.length_le (h : TreeLeaves freq leaves) (hk : 2 ≤ (countedSyms freq).length) (x : Sym) :
    ((lengthsOf leaves).get x).toNat ≤ (countedSyms freq).length - 1 := by
  obtain ⟨-, -, -, htwo⟩ := h.depths
  by_cases hx : freq.get x = 0
  · have : (lengthsOf leaves).get x = 0 := by
      by_contra hne
      exact (h.length_ne_zero_iff x).1 hne hx
    simp [this]
  · obtain ⟨d, hd, heq⟩ := h.exists_depth hx
    rw [heq]
    exact (htwo hk).1 _ hd

/-- 42 R147, one symbol: its length is 1. -/
theorem TreeLeaves.length_eq_one (h : TreeLeaves freq leaves) (hk : (countedSyms freq).length = 1) {x : Sym}
    (hx : freq.get x ≠ 0) : (lengthsOf leaves).get x = 1 := by
  obtain ⟨-, -, hone, -⟩ := h.depths
  obtain ⟨d, hd, heq⟩ := h.exists_depth hx
  exact BitVec.eq_of_toNat_eq (heq.trans (hone hk _ hd))

/-- 42 R147, one symbol: Kraft's sum is 1/2. -/
theorem TreeLeaves.kraft_eq_half (h : TreeLeaves freq leaves) (hk : (countedSyms freq).length = 1) :
    kraftSum (lengthsOf leaves) = 1 / 2 := by
  obtain ⟨hperm, hb, hone, -⟩ := h.depths
  have hlen : leaves.length = 1 := by rw [← hk, ← hperm.length_eq, List.length_map]
  obtain ⟨e, rfl⟩ := List.length_eq_one_iff.1 hlen
  rw [kraftSum_lengthsOf h.nodup hb]
  simp [hone hk e (by simp)]

end TreeLengths

/-! ### BUILD, then EXTRACT -/

/-- A BUILD that has a symbol to count commits its tree. -/
theorem exec_build_of_counted {s t : State} (h : countedSyms s.freq ≠ []) (hb : exec .build s = .next t) :
    t = (built s).completed 0 0 := by
  rcases buildStage_cases s with ⟨h0, -⟩ | ⟨-, he⟩
  · exact absurd h0 h
  · rw [exec_eq_complete, stageOf, he] at hb
    exact (Host.Outcome.next.inj hb).symm

/-- An EXTRACT that ends without an error writes the depths of the tree it found. -/
theorem exec_extract_success {s t : State} (he : exec .extract s = .next t) (h0 : t.errCode = 0) :
    ∃ leaves, leafDepths s.liveNodes s.root.toNat = some leaves ∧ t.len = lengthsOf leaves := by
  obtain ⟨u, hu, rfl⟩ := stageOf_committed he h0
  rcases extractStage_cases s with ⟨-, hx⟩ | ⟨-, -, hx⟩ | ⟨-, leaves, hl, ⟨-, hx⟩ | ⟨-, hx⟩⟩
  all_goals cases hx.symm.trans hu
  exact ⟨leaves, hl, rfl⟩

/-- BUILD and a successful EXTRACT leave the lengths of the tree made of FREQ. -/
theorem build_extract_lengths {s t u : State} (h : countedSyms s.freq ≠ []) (hb : exec .build s = .next t)
    (he : exec .extract t = .next u) (h0 : u.errCode = 0) :
    ∃ leaves, TreeLeaves s.freq leaves ∧ u.len = lengthsOf leaves := by
  obtain rfl := exec_build_of_counted h hb
  obtain ⟨leaves, hl, hlen⟩ := exec_extract_success he h0
  refine ⟨leaves, ⟨h, ?_⟩, hlen⟩
  rw [← built_liveNodes h, ← built_root h]
  exact hl

/-- 42 R147: the laws of BUILD followed by EXTRACT. -/
theorem buildThenExtract_laws {s t u : State} (h : countedSyms s.freq ≠ []) (hb : exec .build s = .next t)
    (he : exec .extract t = .next u) (h0 : u.errCode = 0) :
    (∀ x, u.len.get x ≠ 0 ↔ s.freq.get x ≠ 0) ∧
    (2 ≤ (countedSyms s.freq).length →
      kraftSum u.len = 1 ∧ ∀ x, (u.len.get x).toNat ≤ (countedSyms s.freq).length - 1) ∧
    ((countedSyms s.freq).length = 1 → kraftSum u.len = 1 / 2 ∧ ∀ x, s.freq.get x ≠ 0 → u.len.get x = 1) ∧
    (∀ s' t' u', s'.freq = s.freq → exec .build s' = .next t' → exec .extract t' = .next u' →
      u'.errCode = 0 → u'.len = u.len) := by
  obtain ⟨leaves, htl, hlen⟩ := build_extract_lengths h hb he h0
  rw [hlen]
  refine ⟨htl.length_ne_zero_iff, fun hk => ⟨htl.kraft_eq_one hk, htl.length_le hk⟩,
    fun hk => ⟨htl.kraft_eq_half hk, fun _ => htl.length_eq_one hk⟩, fun s' t' u' hf hb' he' h0' => ?_⟩
  obtain ⟨leaves', htl', hlen'⟩ := build_extract_lengths (by rwa [hf]) hb' he' h0'
  rw [hf] at htl'
  rw [hlen', Option.some.inj (htl'.answer.symm.trans htl.answer)]

/-! ### Canonical codes (43 R177) -/

section Canonical

variable {len clen : Table (BitVec 8)} {code : Table (BitVec 256)}

/-- Of two symbols with `x` before `y` in the order `(length, symbol)`, the code of `y` leaves room for every
extension of the code of `x`. -/
theorem canonicalAssign_gap (h : canonicalAssign len (sortedSymbols len) = some (clen, code)) {x y : Sym}
    (hx : len.get x ≠ 0) (hy : len.get y ≠ 0)
    (hlt : len.get x < len.get y ∨ (len.get x = len.get y ∧ x < y)) :
    ((code.get x).toNat + 1) * 2 ^ ((len.get y).toNat - (len.get x).toNat) ≤ (code.get y).toNat := by
  obtain ⟨-, -, -, hgap, -⟩ := canonicalAssign_eq_some h
  have hnot : ¬lengthLe len y x := by
    unfold lengthLe
    simp only [BitVec.lt_def, BitVec.le_def, ← BitVec.toNat_inj] at hlt ⊢
    omega
  obtain ⟨i, hi, rfl⟩ := List.getElem_of_mem (mem_sortedSymbols.2 hx)
  obtain ⟨j, hj, rfl⟩ := List.getElem_of_mem (mem_sortedSymbols.2 hy)
  rcases Nat.lt_trichotomy i j with hij | rfl | hji
  · exact List.pairwise_iff_getElem.1 hgap i j hi hj hij
  · exact absurd ((lengthLe_total len _ _).elim id id) hnot
  · exact absurd (List.pairwise_iff_getElem.1 (sortedSymbols_sorted len) j i hj hi hji) hnot

/-- Canonical monotonicity. -/
theorem canonicalAssign_code_lt (h : canonicalAssign len (sortedSymbols len) = some (clen, code)) {x y : Sym}
    (hx : len.get x ≠ 0) (hy : len.get y ≠ 0)
    (hlt : len.get x < len.get y ∨ (len.get x = len.get y ∧ x < y)) : (code.get x).toNat < (code.get y).toNat :=
  calc (code.get x).toNat < (code.get x).toNat + 1 := Nat.lt_succ_self _
    _ ≤ ((code.get x).toNat + 1) * 2 ^ ((len.get y).toNat - (len.get x).toNat) :=
      Nat.le_mul_of_pos_right _ (by positivity)
    _ ≤ (code.get y).toNat := canonicalAssign_gap h hx hy hlt

/-- The single symbol with a length has the code 0. -/
theorem canonicalAssign_single (h : canonicalAssign len (sortedSymbols len) = some (clen, code)) {x : Sym}
    (hx : ∀ y, len.get y ≠ 0 ↔ y = x) : code.get x = 0 := by
  obtain ⟨-, -, -, -, hval⟩ := canonicalAssign_eq_some h
  have hsorted : sortedSymbols len = [] ++ x :: [] :=
    eq_singleton_of_mem_iff (nodup_sortedSymbols len) fun y => mem_sortedSymbols.trans (hx y)
  have hzero := hval [] x [] hsorted
  simp only [List.map_nil, List.sum_nil, mul_zero, Nat.cast_eq_zero] at hzero
  exact BitVec.eq_of_toNat_eq hzero

/-- The codec properties of 00_scope R18 hold of the canonical table of the lengths of BUILD's tree. -/
theorem TreeLeaves.codecProperties {freq : Table (BitVec 32)} {leaves : List (Sym × Nat)}
    (h : TreeLeaves freq leaves)
    (hc : canonicalAssign (lengthsOf leaves) (sortedSymbols (lengthsOf leaves)) = some (lengthsOf leaves, code)) :
    CodecProperties freq (lengthsOf leaves) code where
  coded := h.length_ne_zero_iff
  prefix_free := canonicalAssign_prefixFree hc
  kraft := fun ⟨_, _, hne, hx, hy⟩ =>
    h.kraft_eq_one (two_le_length_of_mem (mem_countedSyms.2 hx) (mem_countedSyms.2 hy) hne)
  single := fun x hx => by
    have hcounted : countedSyms freq = [x] :=
      eq_singleton_of_mem_iff (nodup_countedSyms freq) fun y => mem_countedSyms.trans (hx y)
    exact ⟨h.length_eq_one (by rw [hcounted]; rfl) ((hx x).2 rfl),
      canonicalAssign_single hc fun y => (h.length_ne_zero_iff y).trans (hx y)⟩
  monotone := fun _ _ => canonicalAssign_code_lt hc

end Canonical

/-! ### Round trip (44 R196) -/

/-- A stream is no shorter than its input when every symbol of it has a code. -/
theorem length_le_bitstream {clen : Table (BitVec 8)} {code : Table (BitVec 256)} {syms : List Sym}
    (h : ∀ x ∈ syms, clen.get x ≠ 0) : syms.length ≤ (bitstream clen code syms).length := by
  rw [bitstream_length]
  have hpos : ∀ n ∈ syms.map (fun x => (clen.get x).toNat), 1 ≤ n := by
    intro n hn
    obtain ⟨x, hx, rfl⟩ := List.mem_map.1 hn
    exact Nat.one_le_iff_ne_zero.2 fun h0 => h x hx (BitVec.eq_of_toNat_eq h0)
  simpa using List.length_le_sum_of_one_le _ hpos

/-- An ENCODE that ends without an error commits the stream of its input, which fits OUT. -/
theorem exec_encode_success {s t : State} {syms : List Sym} (hs : s.input = some syms)
    (he : exec .encode s = .next t) (h0 : t.errCode = 0) :
    (∀ x ∈ syms, s.clen.get x ≠ 0) ∧ byteCount (bitstream s.clen s.code syms).length ≤ s.params.outCap ∧
      t = (encoded s (bitstream s.clen s.code syms)).completed 0 0 := by
  obtain ⟨u, hu, rfl⟩ := stageOf_committed he h0
  rcases encodeStage_cases s with ⟨-, hx⟩ | ⟨syms', hs', ⟨-, hx⟩ | ⟨hcoded, ⟨-, hx⟩ | ⟨hfits, hx⟩⟩⟩
  all_goals cases hx.symm.trans hu
  obtain rfl : syms = syms' := Option.some.inj (hs.symm.trans hs')
  exact ⟨hcoded, hfits, rfl⟩

/-- 00_scope R8: a legal OUT_CAP is at most 2^21. -/
theorem outCap_le_of_legal {p : Params} (h : p.legal = true) : p.outCap ≤ 2 ^ 21 := by
  simp only [Params.legal, Bool.and_eq_true, decide_eq_true_eq] at h
  obtain ⟨⟨-, -, hcap⟩, -⟩ := h
  exact hcap

/-- What ENCODE packs with a `PrefixFree` table, read back from OUT up to BITCOUNT, decodes to the input. -/
theorem encode_decodes {s t : State} {syms : List Sym} (hlegal : s.params.legal = true)
    (hpf : PrefixFree s.clen s.code) (hs : s.input = some syms) (he : exec .encode s = .next t)
    (h0 : t.errCode = 0) :
    ∃ bits, streamBits t.outBuf t.bitCount.toNat = some bits ∧
      decodeStream t.clen t.code bits.length bits = some syms := by
  obtain ⟨hcoded, hfits, rfl⟩ := exec_encode_success hs he h0
  refine ⟨bitstream s.clen s.code syms, ?_, decodeStream_bitstream hpf hcoded (length_le_bitstream hcoded)⟩
  have hcap := outCap_le_of_legal hlegal
  have hcount : (BitVec.ofNat 32 (bitstream s.clen s.code syms).length).toNat =
      (bitstream s.clen s.code syms).length := by
    rw [BitVec.toNat_ofNat]
    unfold byteCount at hfits
    omega
  calc streamBits (s.outBuf.writeFrom 0 (packedBytes (bitstream s.clen s.code syms))) _
      = streamBits (s.outBuf.writeFrom 0 (packedBytes (bitstream s.clen s.code syms)))
          (bitstream s.clen s.code syms).length := by rw [← hcount]; rfl
    _ = some (bitstream s.clen s.code syms) := streamBits_writeFrom _ _

/-! ### COUNT, BUILD, EXTRACT and ASSIGN in sequence (00_scope R18) -/

/-- The codes of a successful sequence are the canonical ones of the lengths of the tree of its counts. -/
theorem CodeSequence.treeLeaves {s s1 t : State} (h : CodeSequence s s1 t) :
    ∃ leaves, TreeLeaves s1.freq leaves ∧ t.clen = lengthsOf leaves ∧
      canonicalAssign (lengthsOf leaves) (sortedSymbols (lengthsOf leaves)) = some (lengthsOf leaves, t.code) := by
  obtain ⟨syms, leaves, -, hne, hlt, hf, hl, hclen, hc, -, -, -⟩ := codeSequence_cases h
  exact ⟨leaves, ⟨by rw [hf]; exact countedSyms_frequencies hlt hne, hl⟩, hclen, hc⟩

theorem CodeSequence.codecProperties {s s1 t : State} (h : CodeSequence s s1 t) :
    CodecProperties s1.freq t.clen t.code := by
  obtain ⟨leaves, htl, hclen, hc⟩ := h.treeLeaves
  rw [hclen]
  exact htl.codecProperties hc

/-- Determinism: equal frequencies give the same code table. -/
theorem CodeSequence.table_unique {s s1 t s' s1' t' : State} (h : CodeSequence s s1 t)
    (h' : CodeSequence s' s1' t') (hf : s1'.freq = s1.freq) : t'.clen = t.clen ∧ t'.code = t.code := by
  obtain ⟨leaves, htl, hclen, hc⟩ := h.treeLeaves
  obtain ⟨leaves', htl', hclen', hc'⟩ := h'.treeLeaves
  rw [hf] at htl'
  obtain rfl : leaves' = leaves := Option.some.inj (htl'.answer.symm.trans htl.answer)
  exact ⟨hclen'.trans hclen.symm, congrArg Prod.snd (Option.some.inj (hc'.symm.trans hc))⟩

/-- Round-trip decodability of the sequence followed by ENCODE. -/
theorem CodeSequence.roundTrip {s s1 t u : State} {syms : List Sym} (h : CodeSequence s s1 t)
    (hlegal : s.params.legal = true) (hs : s.input = some syms)
    (he : exec .encode (t.accept .encode) = .next u) (h0 : u.errCode = 0) :
    ∃ bits, streamBits u.outBuf u.bitCount.toNat = some bits ∧
      decodeStream u.clen u.code bits.length bits = some syms := by
  obtain ⟨_, _, -, -, -, -, -, -, -, hparams, hinLen, hinBuf⟩ := codeSequence_cases h
  refine encode_decodes (s := t.accept .encode) ?_ h.codecProperties.prefix_free ?_ he h0
  · rw [State.accept_params, hparams, hlegal]
  · rw [← hs, State.input, State.input, State.accept_inBuf, State.accept_inLen, hinBuf, hinLen]

/-- Settles O42: the lengths are those of BUILD's tree, the codes the canonical ones of those lengths, and the
stream of a `PrefixFree` table decodes. -/
theorem buildThenExtractLaws : Obligations.BuildThenExtractLaws := by
  refine ⟨fun s t u k hk hpos hb he h0 => ?_, fun s s1 t h => ⟨h.codecProperties, fun _ _ _ => h.table_unique,
    fun _ _ hlegal hlen hin => h.roundTrip hlegal (input_eq_some.2 ⟨hlen, hin⟩)⟩⟩
  rw [← countedSyms_eq] at hk
  subst hk
  exact buildThenExtract_laws (List.length_pos_iff.1 hpos) hb he h0

end Sys2Proof.Machine
end

section
/-! PROOFS of the family 10_state: the values after reset, the bits of STATUS, BUILD's trees, and what every step
keeps of the block's data. -/

namespace Sys2Proof.Machine

/-! ### Register reads while idle (20_memory R61, R66) -/

/-- A register's offset decodes to it, whatever the parameters are. -/
theorem decodeAddr_reg (p : Params) {r : Reg} {addr : Word} (ha : addr.toNat = r.offset) :
    decodeAddr p addr = some (.reg r) := by
  unfold decodeAddr
  dsimp only
  rw [ha, if_neg (not_not.2 r.offset_lt.2), if_pos r.offset_lt.1, regAt_offset]
  rfl

theorem memRead_reg {s : State} (hidle : s.busy = false) {r : Reg} {addr : Word} (ha : addr.toNat = r.offset) :
    s.memRead addr = (s.regValue r, s) := by
  rw [State.memRead, decodeAddr_reg s.params ha]
  simp [State.readMapped, hidle, State.valueAt]

/-- The STATUS word as the list of its bits, bit 0 first (10_state R24). -/
theorem statusWord_eq_bits (s : State) (tv : Bool) :
    s.statusWord tv = (BitVec.ofBoolListLE [s.busy, s.done, s.errView, s.ovr, s.aerr, tv]).setWidth 32 := by
  unfold State.statusWord
  generalize s.busy = b, s.done = d, s.errView = e, s.ovr = o, s.aerr = a
  revert b d e o a tv
  decide

theorem statusWord_getLsbD (s : State) (tv : Bool) (j : Nat) :
    (s.statusWord tv).getLsbD j = [s.busy, s.done, s.errView, s.ovr, s.aerr, tv].getD j false := by
  rw [statusWord_eq_bits, BitVec.getLsbD_setWidth, BitVec.getLsbD_ofBoolListLE]
  by_cases hj : j < 6
  · rw [decide_eq_true (by omega), Bool.true_and]
  · rw [List.getD_eq_default _ _ (by simpa using hj), Bool.and_false]

/-- Settles O22: each bit of the word read is the entry of the list of bits. -/
theorem statusBits : Obligations.StatusBits := by
  intro s hidle
  have hbit := statusWord_getLsbD s s.treeValid
  refine ⟨_, memRead_reg (r := .status) hidle rfl, hbit 0, hbit 1, hbit 2, hbit 3, hbit 4, hbit 5, fun j hj => ?_⟩
  exact (hbit j).trans (List.getD_eq_default _ _ hj)

/-! ### The state after reset (10_state R42) -/

theorem resetValues_reset : ResetValues State.reset := by
  constructor <;> simp [State.irq]

/-- Settles O10: the fields are those of `State.reset`, and an idle block reads its registers out. -/
theorem resetLeavesListedValues : Obligations.ResetLeavesListedValues :=
  ⟨resetValues_reset, memRead_reg (r := .id) rfl rfl, memRead_reg (r := .status) rfl rfl,
    memRead_reg (r := .err) rfl rfl, memRead_reg (r := .paramMaxInput) rfl rfl,
    memRead_reg (r := .paramOutCap) rfl rfl, memRead_reg (r := .paramMaxCodeLen) rfl rfl⟩

/-- Settles O54: every table and buffer is empty, and there is no tree. -/
theorem resetMeetsEveryInvariant : Obligations.ResetMeetsEveryInvariant where
  protocol := ⟨by simp, by simp, by simp⟩
  inLen := ⟨by simp⟩
  buffer := ⟨by simp, by simp, by simp, by simp⟩
  code := ⟨by simp, by simp⟩
  output := ⟨by decide, by simp [byteCount], by simp, by simp⟩
  tree := ⟨by simp, by simp, by simp⟩

/-! ### BUILD's trees (10_state R36) -/

section BuiltTree

variable {freq : Table (BitVec 32)} {i : Nat} {n : Node}

/-- An Internal node has two distinct children at smaller indices, the smaller of their MIN_SYM, and the sum of their
frequencies as a number. -/
theorem treeNodes_internal (h : countedSyms freq ≠ []) (hn : (treeNodes freq)[i]? = some n)
    (hk : n.kind = .internal) :
    n.left ≠ n.right ∧ n.left.toNat < i ∧ n.right.toNat < i ∧
    ∃ l r, (treeNodes freq)[n.left.toNat]? = some l ∧ (treeNodes freq)[n.right.toNat]? = some r ∧
      n.minSym = (if l.minSym ≤ r.minSym then l.minSym else r.minSym) ∧
      n.nfreq.toNat = l.nfreq.toNat + r.nfreq.toNat := by
  obtain ⟨root, -, hinv, -⟩ := buildTree_inv h
  have hok := hinv.ok i n hn
  simp only [NodeOk, hk] at hok
  obtain ⟨hleft, hright, l, r, hl, hr, hmin, -⟩ := hok
  exact ⟨fun e => (hinv.merges i n hn hk).distinct (congrArg BitVec.toNat e), hleft, hright, l, r, hl, hr, hmin,
    hinv.exact_sum i n l r hn hk hl hr⟩

/-- A Leaf is one of step 1 of 42 R141: no children, and the nonzero count of its symbol. -/
theorem treeNodes_leaf (h : countedSyms freq ≠ []) (hn : (treeNodes freq)[i]? = some n) (hk : n.kind = .leaf) :
    n.left = 0 ∧ n.right = 0 ∧ n.nfreq ≠ 0 := by
  obtain ⟨-, -, -, more, hnodes, hmore⟩ := buildTree_inv h
  have hmem : n ∈ leafNodes freq ++ more := hnodes ▸ List.mem_of_getElem? hn
  rcases List.mem_append.1 hmem with hleaf | hinternal
  · obtain ⟨-, hleft, hright, hcounted, hfreq⟩ := mem_leafNodes hleaf
    refine ⟨hleft, hright, fun h0 => mem_countedSyms.1 hcounted ?_⟩
    rw [hfreq] at h0
    bv_omega
  · rw [hmore n hinternal] at hk
    cases hk

/-- A node that is not the root is not in Q at the end of the loop: it is the child of one node. -/
theorem treeNodes_one_parent (h : countedSyms freq ≠ []) (hi : i < (treeNodes freq).length)
    (hroot : i ≠ treeRoot freq) :
    ∃ p, IsChild (treeNodes freq) p i ∧ ∀ p', IsChild (treeNodes freq) p' i → p' = p := by
  obtain ⟨root, hq, hinv, -⟩ := buildTree_inv h
  have hnot : ¬Available (treeNodes freq) (treeNodes freq).length i := by
    rw [← hinv.available]
    simpa [treeRoot, hq] using hroot
  obtain ⟨p, hp⟩ : ∃ p, IsChild (treeNodes freq) p i := by
    by_contra hno
    exact hnot ⟨hi, fun p _ hc => hno ⟨p, hc⟩⟩
  exact ⟨p, hp, fun p' hp' => hinv.one_parent i p' p hp' hp⟩

end BuiltTree

/-- Settles O39: the live nodes are those BuildTree makes, where the loop invariant holds. -/
theorem builtTreesAreStrictlyBinary : Obligations.BuiltTreesAreStrictlyBinary := by
  intro s hs hcount
  obtain ⟨freq, hne, hlive, -, hroot⟩ := hs.built hcount
  rw [hlive, hroot]
  exact ⟨fun _ _ => treeNodes_internal hne, fun _ _ => treeNodes_leaf hne, fun _ => treeNodes_one_parent hne⟩

/-! ### What a step does to the block's data

The invariants of 10_state R43 speak of the parameters, the buffers, the tables and the result registers. Their
changes are listed once, so that a step lemma is a case split over `DataMove`. -/

/-- `t` differs from `s` at most in the flags, ERR, PENDING and the environment. -/
abbrev SameData (s t : State) : Prop :=
  t = { s with
    irqEn := t.irqEn, busy := t.busy, done := t.done, ovr := t.ovr, aerr := t.aerr, errCode := t.errCode,
    errStage := t.errStage, pending := t.pending, rst := t.rst, hostOps := t.hostOps, turns := t.turns,
    responses := t.responses, draws := t.draws }

/-- The state CLEAR commits. -/
def cleared (s : State) : State :=
  { s with
    freq := Table.fill 0
    len := Table.fill 0
    clen := Table.fill 0
    code := Table.fill 0
    nodeCount := 0
    root := 0
    bitCount := 0
    outLen := 0 }

/-- Every way the data change: reset (10_state R42), what a stage commits (30_encoding R96), and the accepted
writes to IN_LEN, FREQ, LEN and IN (20_memory R65, R68). -/
inductive DataMove (s : State) : State → Prop where
  | reset : DataMove s s.resetBlock
  | clear : DataMove s (cleared s)
  | count (freq : Table (BitVec 32)) : DataMove s { s with freq := freq }
  | build : countedSyms s.freq ≠ [] → DataMove s (built s)
  | extract (leaves : List (Sym × Nat)) : DataMove s (extracted s leaves)
  | assign (clen : Table (BitVec 8)) (code : Table (BitVec 256)) :
      (∀ x, (s.len.get x).toNat ≤ s.params.maxCodeLen) →
      canonicalAssign s.len (sortedSymbols s.len) = some (clen, code) →
      DataMove s { s with clen := clen, code := code }
  | encode (bits : List Bool) : byteCount bits.length ≤ s.params.outCap → DataMove s (encoded s bits)
  | writeInLen (v : Word) : v.toNat ≤ s.params.maxInput → DataMove s { s with inLen := v }
  | writeFreq (x : Sym) (v : Word) : DataMove s { s with freq := s.freq.set x v }
  | writeLen (x : Sym) (l : Byte) : DataMove s { s with len := s.len.set x l }
  | writeIn (i : Nat) (b : Byte) : i < s.params.maxInput → DataMove s { s with inBuf := s.inBuf.write i b }

/-- A host write changes no data, or one entry. -/
theorem memWrite_data (s : State) (addr v : Word) :
    SameData s (s.memWrite addr v) ∨ DataMove s (s.memWrite addr v) := by
  rcases memWrite_cases s addr v with h | ⟨-, h⟩ | ⟨-, h⟩ | h | h |
    ⟨-, ⟨_, -, h⟩ | ⟨-, h⟩ | ⟨hle, h⟩ | ⟨x, h⟩ | ⟨x, h⟩ | ⟨i, hi, h⟩⟩
  all_goals rw [h]
  exacts [.inl rfl, .inl rfl, .inl rfl, .inl rfl, .inl rfl, .inl rfl, .inl rfl, .inr (.writeInLen v hle),
    .inr (.writeFreq x v), .inr (.writeLen x _), .inr (.writeIn i _ (decodeAddr_inBuf hi))]

/-- A single stage hands on the state it began with, or commits. -/
theorem stageOf_state {i : Instr} {s t : State} (hi : i ≠ .run) (h : (stageOf i s).state? = some t) :
    t = s ∨ stageOf i s = .committed t := by
  cases hr : stageOf i s with
  | committed u => rw [hr] at h; cases h; exact .inr rfl
  | error u c g => rw [hr] at h; cases h; exact .inl (stageOf_error hi hr).1
  | fault f => rw [hr] at h; cases h

/-- What a single stage commits is one of the moves. -/
theorem stageOf_committed_data {i : Instr} {s t : State} (hi : i ≠ .run) (h : stageOf i s = .committed t) :
    DataMove s t := by
  cases i with
  | clear => cases h; exact .clear
  | count =>
    rcases countStage_cases s with ⟨-, he⟩ | ⟨-, -, he⟩ | ⟨-, _, -, he⟩
    all_goals cases he.symm.trans h
    exact .count _
  | build =>
    rcases buildStage_cases s with ⟨-, he⟩ | ⟨hne, he⟩
    all_goals cases he.symm.trans h
    exact .build hne
  | extract =>
    rcases extractStage_cases s with ⟨-, he⟩ | ⟨-, -, he⟩ | ⟨-, leaves, -, ⟨-, he⟩ | ⟨-, he⟩⟩
    all_goals cases he.symm.trans h
    exact .extract leaves
  | assign =>
    rcases assignStage_cases s with ⟨-, he⟩ | ⟨-, -, he⟩ | ⟨-, -, -, he⟩ | ⟨-, hle, -, _, _, hc, he⟩
    all_goals cases he.symm.trans h
    exact .assign _ _ hle hc
  | encode =>
    rcases encodeStage_cases s with ⟨-, he⟩ | ⟨_, -, ⟨-, he⟩ | ⟨-, ⟨-, he⟩ | ⟨hfits, he⟩⟩⟩
    all_goals cases he.symm.trans h
    exact .encode _ hfits
  | run => exact absurd rfl hi

section Keeps

variable {P : State → Prop} (hsame : ∀ s t, SameData s t → P s → P t) (hmove : ∀ s t, DataMove s t → P s → P t)

include hmove in
theorem stageOf_keeps {i : Instr} (hi : i ≠ .run) (s t : State) (hs : P s) (h : (stageOf i s).state? = some t) :
    P t := by
  rcases stageOf_state hi h with rfl | h
  · exact hs
  · exact hmove s t (stageOf_committed_data hi h) hs

/-- A stage chained on another hands on a state the other hands on, or one it makes of that. -/
theorem andThen_keeps {r : StageResult} {f : State → StageResult} (hr : ∀ u, r.state? = some u → P u)
    (hf : ∀ s t, P s → (f s).state? = some t → P t) {t : State} (h : (r.andThen f).state? = some t) : P t := by
  cases r with
  | committed u => exact hf u t (hr u rfl) h
  | error u c g => exact hr t h
  | fault x => cases h

include hmove in
theorem runStage_keeps {s t : State} (hs : P s) (h : (runStage s).state? = some t) : P t := by
  have key : ∀ {i : Instr}, i ≠ .run → ∀ s t, P s → (stageOf i s).state? = some t → P t := stageOf_keeps hmove
  have hcount := fun u => key (i := .count) (by decide) s u hs
  have hbuild := fun u => andThen_keeps (t := u) hcount (key (i := .build) (by decide))
  have hextract := fun u => andThen_keeps (t := u) hbuild (key (i := .extract) (by decide))
  have hassign := fun u => andThen_keeps (t := u) hextract (key (i := .assign) (by decide))
  exact andThen_keeps hassign (key (i := .encode) (by decide)) h

include hsame hmove in
theorem exec_keeps {i : Instr} {s t : State} (hs : P s) (h : exec i s = .next t) : P t := by
  have hstage : ∀ u, (stageOf i s).state? = some u → P u := by
    intro u hu
    by_cases hi : i = .run
    · subst hi
      exact runStage_keeps hmove hs hu
    · exact stageOf_keeps hmove hi s u hs hu
  rw [exec_eq_complete] at h
  rcases complete_eq_next.1 h with ⟨u, hr, rfl⟩ | ⟨u, c, g, hr, rfl⟩
  all_goals exact hsame u _ rfl (hstage u (by rw [hr]; rfl))

include hsame hmove in
/-- A property that the flags, ERR, PENDING and the environment do not enter is kept by every step when every move
of the data keeps it. -/
theorem step_keeps_of_dataMove {s t : State} (hs : P s) (h : step s = .next t) : P t :=
  step_keeps (P := P)
    (henv := fun u v hu he => hsame u v (by rw [he]) hu)
    (hreset := fun u hu => hmove u _ .reset hu)
    (hexec := fun _ _ _ hu he => exec_keeps hsame hmove hu he)
    (hwrite := fun u addr v hu => (memWrite_data u addr v).elim (hsame u _ · hu) (hmove u _ · hu))
    (haerr := fun u hu => hsame u _ rfl hu) hs h

end Keeps

/-! ### The code table (10_state R38, 43 R177) -/

theorem CodeInv.dataMove {s t : State} (h : DataMove s t) (hs : CodeInv s) : CodeInv t := by
  cases h with
  | reset => exact ⟨by simp, by simp⟩
  | clear => exact ⟨by simp [cleared], by simp [cleared]⟩
  | assign clen code hle hc =>
    obtain ⟨rfl, -, hlt, -, -⟩ := canonicalAssign_eq_some hc
    exact ⟨hlt, hle⟩
  | count | build | extract | encode | writeInLen | writeFreq | writeLen | writeIn => exact ⟨hs.code_lt, hs.clen_le⟩

theorem step_keeps_codeInv {s t : State} (hs : CodeInv s) (h : step s = .next t) : CodeInv t :=
  step_keeps_of_dataMove (fun _ _ e hu => by rw [e]; exact ⟨hu.code_lt, hu.clen_le⟩) (fun _ _ => CodeInv.dataMove) hs h

/-- A table without a code has no codewords to compare. -/
theorem prefixFree_fill_zero (code : Table (BitVec 256)) : PrefixFree (Table.fill 0) code :=
  fun x _ _ hx _ => absurd (Table.get_fill 0 x) hx

theorem PrefixFree.dataMove {s t : State} (h : DataMove s t) (hs : PrefixFree s.clen s.code) :
    PrefixFree t.clen t.code := by
  cases h with
  | reset => exact prefixFree_fill_zero _
  | clear => exact prefixFree_fill_zero _
  | assign clen code _ hc => exact canonicalAssign_prefixFree hc
  | count | build | extract | encode | writeInLen | writeFreq | writeLen | writeIn => exact hs

theorem step_keeps_prefixFree {s t : State} (hs : PrefixFree s.clen s.code) (h : step s = .next t) :
    PrefixFree t.clen t.code :=
  step_keeps_of_dataMove (P := fun u => PrefixFree u.clen u.code) (fun _ _ e hu => by rw [e]; exact hu)
    (fun _ _ => PrefixFree.dataMove) hs h

/-- Settles O58: only reset, CLEAR and ASSIGN write the code table; the first two empty it, and ASSIGN's codes are
canonical. -/
theorem stepKeepsCodesInTheirLengths : Obligations.StepKeepsCodesInTheirLengths :=
  ⟨fun _ _ => step_keeps_codeInv, fun _ _ => step_keeps_prefixFree⟩

/-! ### The output registers (10_state R29, R30) -/

/-- With a legal OUT_CAP no packed stream that fits OUT overflows BITCOUNT or OUT_LEN, and ENCODE writes every byte
it counts. -/
theorem encoded_outputInv {s : State} {bits : List Bool} (hlegal : s.params.legal = true)
    (hfits : byteCount bits.length ≤ s.params.outCap) : OutputInv (encoded s bits) := by
  have hcap := outCap_le_of_legal hlegal
  have hbits : (encoded s bits).bitCount.toNat = bits.length := by
    simp only [encoded, BitVec.toNat_ofNat]
    unfold byteCount at hfits
    omega
  have hlen : (encoded s bits).outLen.toNat = byteCount bits.length := by
    simp only [encoded, BitVec.toNat_ofNat]
    omega
  refine ⟨hlegal, by rw [hlen, hbits], by rw [hlen]; exact hfits, fun b hb => ?_⟩
  rw [hlen, ← packedBytes_length] at hb
  exact ⟨_, (Memory.read_writeFrom _ _ _ _).trans
    ((if_pos ⟨Nat.zero_le b, by omega⟩).trans (List.getElem?_eq_getElem hb))⟩

theorem OutputInv.dataMove {s t : State} (h : DataMove s t) (hs : OutputInv s) : OutputInv t := by
  cases h with
  | reset => exact ⟨hs.legal, by simp [byteCount], by simp, by simp⟩
  | clear => exact ⟨hs.legal, by simp [cleared, byteCount], by simp [cleared], by simp [cleared]⟩
  | encode bits hfits => exact encoded_outputInv hs.legal hfits
  | count | build | extract | assign | writeInLen | writeFreq | writeLen | writeIn =>
    exact ⟨hs.legal, hs.len_eq, hs.len_le, hs.written⟩

/-- Settles O59: only reset, CLEAR and ENCODE write the output registers. -/
theorem stepKeepsTheOutputConsistent : Obligations.StepKeepsTheOutputConsistent := fun _ _ =>
  step_keeps_of_dataMove (fun _ _ e hu => by rw [e]; exact ⟨hu.legal, hu.len_eq, hu.len_le, hu.written⟩)
    fun _ _ => OutputInv.dataMove

/-! ### The tree (10_state R31, R32, R35) -/

/-- A state without a tree meets the tree's invariant when ROOT is 0. -/
theorem treeInv_of_no_tree {s : State} (harena : s.node.length ≤ 511) (hcount : s.nodeCount = 0)
    (hroot : s.root = 0) : TreeInv s :=
  ⟨harena, fun h => absurd hcount h, fun _ => hroot⟩

theorem TreeInv.dataMove {s t : State} (h : DataMove s t) (hs : TreeInv s) : TreeInv t := by
  cases h with
  | reset => exact treeInv_of_no_tree (Nat.zero_le _) rfl rfl
  | clear => exact treeInv_of_no_tree hs.arena_le rfl rfl
  | build hne => exact built_treeInv hne hs.arena_le
  | extract leaves => exact treeInv_of_no_tree hs.arena_le rfl rfl
  | count | assign | encode | writeInLen | writeFreq | writeLen | writeIn =>
    exact ⟨hs.arena_le, hs.built, hs.no_tree⟩

/-- Settles O60: BUILD leaves the tree of FREQ; reset, CLEAR and EXTRACT discard it; nothing else touches it. -/
theorem stepKeepsTheTreeBuilt : Obligations.StepKeepsTheTreeBuilt := fun _ _ =>
  step_keeps_of_dataMove (fun _ _ e hu => by rw [e]; exact ⟨hu.arena_le, hu.built, hu.no_tree⟩)
    fun _ _ => TreeInv.dataMove

/-! ### IN_LEN and the buffers (10_state R28, R33, R39) -/

theorem InLenInv.dataMove {s t : State} (h : DataMove s t) (hs : InLenInv s) : InLenInv t := by
  cases h with
  | reset => exact ⟨Nat.zero_le _⟩
  | writeInLen v hle => exact ⟨hle⟩
  | clear | count | build | extract | assign | encode | writeFreq | writeLen | writeIn => exact ⟨hs.in_range⟩

/-- Settles O56: reset gives 0, and a write above MAX_INPUT is dropped. -/
theorem stepKeepsInLenLegal : Obligations.StepKeepsInLenLegal := fun _ _ =>
  step_keeps_of_dataMove (fun _ _ e hu => by rw [e]; exact ⟨hu.in_range⟩) fun _ _ => InLenInv.dataMove

theorem BufferInv.dataMove {s t : State} (h : DataMove s t) (hs : BufferInv s) : BufferInv t := by
  cases h with
  | reset => exact ⟨List.Pairwise.nil, List.forall_mem_nil _, List.Pairwise.nil, List.forall_mem_nil _⟩
  | encode bits hfits =>
    exact ⟨hs.in_wf, hs.in_within, Memory.wf_writeFrom hs.out_wf 0 _,
      Memory.within_writeFrom hs.out_within 0 _ (by rw [packedBytes_length]; omega)⟩
  | writeIn i b hi =>
    exact ⟨Memory.wf_write hs.in_wf i b, Memory.within_write hs.in_within hi b, hs.out_wf, hs.out_within⟩
  | clear | count | build | extract | assign | writeInLen | writeFreq | writeLen =>
    exact ⟨hs.in_wf, hs.in_within, hs.out_wf, hs.out_within⟩

/-- Settles O57: a write to IN names an entry below MAX_INPUT, and ENCODE writes below OUT_CAP. -/
theorem stepKeepsBuffersCanonical : Obligations.StepKeepsBuffersCanonical := fun _ _ =>
  step_keeps_of_dataMove (fun _ _ e hu => by rw [e]; exact ⟨hu.in_wf, hu.in_within, hu.out_wf, hu.out_within⟩)
    fun _ _ => BufferInv.dataMove

end Sys2Proof.Machine
end

section
/-! PROOFS of the family 20_memory: the address map, what a host access does while idle and while BUSY, the turns of
HOST, and the busy protocol. -/

namespace Sys2Proof.Machine

/-! ### The address map (20_memory R61, R64) -/

theorem offset_of_regAt {a : Nat} {r : Reg} (h : regAt a = some r) : r.offset = a := by
  unfold regAt at h
  split at h
  all_goals cases h
  all_goals rfl

/-- What an address names exists, and the address is its entry address. -/
theorem addr_of_decodeAddr {p : Params} {addr : Word} {t : Target} (h : decodeAddr p addr = some t) :
    t.inRange p ∧ t.addr = addr.toNat := by
  unfold decodeAddr at h
  dsimp only at h
  repeat' split at h
  case isFalse.isTrue =>
    obtain ⟨r, hr, rfl⟩ := Option.map_eq_some_iff.1 h
    exact ⟨trivial, offset_of_regAt hr⟩
  all_goals cases h
  all_goals simp only [Target.inRange, Target.addr, BitVec.toNat_ofNat, true_and]
  all_goals omega

/-- Settles O13: an entry address decodes to its entry, and nothing else decodes to it. -/
theorem addressMapIsExact : Obligations.AddressMapIsExact :=
  fun _ _ _ hp => ⟨addr_of_decodeAddr, fun ⟨hr, ha⟩ => decodeAddr_of_addr hp hr ha⟩

theorem Target.addr_aligned (t : Target) : t.addr % 4 = 0 := by
  cases t with
  | reg r => exact r.offset_lt.2
  | freq s | len s | tree i w | code s w | inBuf i | outBuf b =>
    simp only [Target.addr]
    omega

/-- The entry address of an existing entry fits a bus address and decodes to the entry. -/
theorem decodeAddr_ofNat_addr {p : Params} (hp : p.legal = true) {t : Target} (hr : t.inRange p) :
    decodeAddr p (BitVec.ofNat 32 t.addr) = some t := by
  have hsize : p.maxInput ≤ 2 ^ 20 ∧ p.outCap ≤ 2 ^ 21 := by
    simp only [Params.legal, Bool.and_eq_true, decide_eq_true_eq] at hp
    exact ⟨hp.1.1.2, hp.1.2.2⟩
  have hlt : t.addr < 2 ^ 32 := by
    cases t with
    | reg r => exact r.offset_lt.1.trans (by decide)
    | freq s | len s | code s w =>
      have := s.isLt
      simp only [Target.addr, Target.inRange] at hr ⊢
      omega
    | tree i w | inBuf i | outBuf b =>
      simp only [Target.addr, Target.inRange] at hr ⊢
      omega
  exact decodeAddr_of_addr hp hr (Nat.mod_eq_of_lt hlt).symm

/-! ### What an access of a decoded address does (20_memory R64, R67) -/

theorem memRead_unmapped {s : State} {addr : Word} (h : decodeAddr s.params addr = none) :
    s.memRead addr = (0, { s with aerr := true }) := by
  rw [State.memRead, h]

theorem memRead_mapped {s : State} {addr : Word} {t : Target} (h : decodeAddr s.params addr = some t) :
    s.memRead addr = s.readMapped t := by
  rw [State.memRead, h]

theorem memWrite_unmapped {s : State} {addr : Word} (h : decodeAddr s.params addr = none) (v : Word) :
    s.memWrite addr v = { s with aerr := true } := by
  rw [State.memWrite, h]

theorem memWrite_dropped {s : State} {addr : Word} {t : Target} (h : decodeAddr s.params addr = some t)
    (hbusy : s.busy = true) (ht : t.writableWhileBusy = false) (v : Word) :
    s.memWrite addr v = { s with ovr := true } := by
  simp [State.memWrite, h, hbusy, ht]

theorem memWrite_accepted {s : State} {addr : Word} {t : Target} (h : decodeAddr s.params addr = some t)
    (hacc : s.busy = false ∨ t.writableWhileBusy = true) (v : Word) : s.memWrite addr v = s.writeMapped t v := by
  rcases hacc with hacc | hacc <;> simp [State.memWrite, h, hacc]

/-- Settles O14: entry addresses are aligned, so neither kind of address decodes. -/
theorem misalignedOrUnmappedSetsAerr : Obligations.MisalignedOrUnmappedSetsAerr := by
  intro s addr v _ h
  have hnone : decodeAddr s.params addr = none := by
    rw [Option.eq_none_iff_forall_ne_some]
    intro t ht
    obtain ⟨hr, ha⟩ := addr_of_decodeAddr ht
    rcases h with hmis | hun
    · exact hmis (ha ▸ t.addr_aligned)
    · exact hun t hr ha
  exact ⟨memRead_unmapped hnone, memWrite_unmapped hnone v⟩

/-- Settles O15: such an entry is not writable while BUSY. -/
theorem busyWritesAreDropped : Obligations.BusyWritesAreDropped := by
  intro s addr v t hp hbusy hr ha hctrl hstatus
  have hlocked : t.writableWhileBusy = false := decide_eq_false (not_or.2 ⟨hctrl, hstatus⟩)
  exact memWrite_dropped (decodeAddr_of_addr hp hr ha) hbusy hlocked v

/-! ### No access disturbs a pending command (20_memory R77) -/

/-- `t` differs from `s` at most in IRQ_EN, the flags DONE, OVR and AERR, and the count of free values. -/
abbrev SameButFlags (s t : State) : Prop :=
  t = { s with irqEn := t.irqEn, done := t.done, ovr := t.ovr, aerr := t.aerr, draws := t.draws }

theorem memWrite_busy_sameButFlags {s : State} (hbusy : s.busy = true) (addr v : Word) :
    SameButFlags s (s.memWrite addr v) := by
  rcases memWrite_cases s addr v with h | ⟨-, h⟩ | ⟨-, h⟩ | h | h | ⟨hidle, -⟩
  case inr.inr.inr.inr.inr => exact absurd (hbusy.symm.trans hidle) (by decide)
  all_goals rw [h]
  all_goals rfl

theorem memRead_sameButFlags (s : State) (addr : Word) : SameButFlags s (s.memRead addr).2 := by
  rcases memRead_cases s addr with ⟨-, h⟩ | h | h
  all_goals rw [h]

/-- Settles O16: while BUSY an access touches the flags only. -/
theorem pendingCommandInputsAreStable : Obligations.PendingCommandInputsAreStable := by
  intro s addr v u hbusy hu
  have hflags : SameButFlags s u := by
    rcases hu with rfl | rfl
    · exact memWrite_busy_sameButFlags hbusy addr v
    · exact memRead_sameButFlags s addr
  rw [hflags]
  exact ⟨rfl, rfl, rfl, rfl, rfl, rfl, rfl, rfl, rfl, rfl, rfl, hbusy⟩

/-! ### Writes while idle (20_memory R65, R68, R69) -/

/-- Settles O18: each is an accepted write to the entry that the address names. -/
theorem idleTableWrites : Obligations.IdleTableWrites := by
  intro s v hp hidle
  have hwrite : ∀ t : Target, t.inRange s.params → s.memWrite (BitVec.ofNat 32 t.addr) v = s.writeMapped t v :=
    fun t hr => memWrite_accepted (decodeAddr_ofNat_addr hp hr) (.inl hidle) v
  refine ⟨fun x => ⟨_, hwrite (.freq x) trivial, ?_⟩, fun x => ⟨_, hwrite (.len x) trivial, ?_⟩,
    fun i hi => ⟨_, hwrite (.inBuf i) hi, ?_⟩⟩
  · exact ⟨by simp, fun y hy => by simp [hy.symm]⟩
  · exact ⟨by simp, fun y hy => by simp [hy.symm]⟩
  · exact ⟨Memory.read_write_same _ _ _, fun j hj => Memory.read_write_other _ _ hj.symm⟩

theorem writeMapped_readOnly (s : State) {t : Target} (h : t.readOnly = true) (v : Word) : s.writeMapped t v = s := by
  cases t with
  | reg r =>
    cases r with
    | ctrl | status | cmd | inLen => exact absurd h (by decide)
    | id | err | bitCount | outLen | nodeCount | root | paramMaxInput | paramOutCap | paramMaxCodeLen => rfl
  | freq x | len x | inBuf i => cases h
  | tree i w | code x w | outBuf b => rfl

theorem writableWhileBusy_readOnly {t : Target} (h : t.readOnly = true) : t.writableWhileBusy = false := by
  refine decide_eq_false ?_
  rintro (rfl | rfl)
  all_goals cases h

/-- Settles O19: an accepted write to a read-only entry changes nothing, and while BUSY none is accepted. -/
theorem readOnlyWritesAreIgnored : Obligations.ReadOnlyWritesAreIgnored := by
  intro s addr v t hp hr ha hro
  have hd := decodeAddr_of_addr hp hr ha
  refine ⟨fun hidle => ?_, fun hbusy => memWrite_dropped hd hbusy (writableWhileBusy_readOnly hro) v⟩
  rw [memWrite_accepted hd (.inl hidle), writeMapped_readOnly s hro]

theorem memWrite_reg {s : State} {r : Reg} {addr : Word} (ha : addr.toNat = r.offset)
    (hacc : s.busy = false ∨ Target.writableWhileBusy (.reg r) = true) (v : Word) :
    s.memWrite addr v = s.writeReg r v :=
  memWrite_accepted (decodeAddr_reg s.params ha) hacc v

/-- A flag after a write of `b` to it: cleared by 1, kept by 0. -/
theorem and_not_eq_ite (flag b : Bool) : (flag && !b) = if b then false else flag := by
  cases b <;> simp

/-- Settles O17: CTRL and STATUS take writes at any time, IN_LEN while idle. -/
theorem controlPageWrites : Obligations.ControlPageWrites := by
  refine fun s v => ⟨fun hidle hle => ?_, fun hidle hlt => ?_, memWrite_reg (r := .ctrl) rfl (.inr rfl) v, ?_⟩
  · exact (memWrite_reg (r := .inLen) rfl (.inl hidle) v).trans (if_pos hle)
  · exact (memWrite_reg (r := .inLen) rfl (.inl hidle) v).trans (if_neg (Nat.not_le.2 hlt))
  · rw [memWrite_reg (r := .status) rfl (.inr rfl)]
    simp only [State.writeReg, State.writeStatus, and_not_eq_ite]

/-! ### Register reads while idle (20_memory R66) -/

theorem ctrlWord_eq_ite (b : Bool) : BitVec.ofNat 32 (bitAt 0 b) = if b then 1 else 0 := by
  cases b <;> rfl

/-- Settles O21: each address is a register's offset, and an idle block reads the register out. -/
theorem idleRegisterReads : Obligations.IdleRegisterReads := by
  intro s hidle
  have hread : ∀ (r : Reg) (addr : Word), addr.toNat = r.offset → s.memRead addr = (s.regValue r, s) :=
    fun _ _ => memRead_reg hidle
  refine ⟨hread .id _ rfl, ?_, hread .cmd _ rfl, hread .err _ rfl, hread .inLen _ rfl, hread .bitCount _ rfl,
    hread .outLen _ rfl, hread .nodeCount _ rfl, hread .root _ rfl, hread .paramMaxInput _ rfl,
    hread .paramOutCap _ rfl, hread .paramMaxCodeLen _ rfl⟩
  rw [hread .ctrl _ rfl, State.regValue, ctrlWord_eq_ite]

/-! ### Reads while BUSY (20_memory R66, R71) -/

theorem readMapped_covered {s : State} {t : Target} (hbusy : s.busy = true) (h : writeSetCovers s.pending t = true) :
    s.readMapped t = s.drawAny := by
  simp [State.readMapped, hbusy, h]

theorem readMapped_value {s : State} {t : Target} {w : Word} (h : writeSetCovers s.pending t = false)
    (ht : t ≠ .reg .status) (hv : s.valueAt t = some w) : s.readMapped t = (w, s) := by
  simp [State.readMapped, h, ht, hv]

/-- An entry without a value reads as a free value, whether or not it is in the write set. -/
theorem readMapped_no_value {s : State} {t : Target} (hv : s.valueAt t = none) : s.readMapped t = s.drawAny := by
  have ht : t ≠ .reg .status := by
    rintro rfl
    cases hv
  simp [State.readMapped, ht, hv]

theorem writeSetCovers_err (i : Instr) : writeSetCovers i (.reg .err) = false := by
  cases i <;> rfl

theorem writeSetCovers_status (i : Instr) : writeSetCovers i (.reg .status) = false := by
  cases i <;> rfl

/-- While BUSY, STATUS has a free TREE_VALID bit exactly when NODE_COUNT is in the write set. -/
theorem readMapped_status_busy {s : State} (hbusy : s.busy = true) :
    s.readMapped (.reg .status) =
      (s.statusWord (if writeSetCovers s.pending (.reg .nodeCount) then Config.anyBit s.draws else s.treeValid),
        if writeSetCovers s.pending (.reg .nodeCount) then { s with draws := s.draws + 1 } else s) := by
  cases hn : writeSetCovers s.pending (.reg .nodeCount) with
  | true => simp [State.readMapped, writeSetCovers_status, hbusy, hn]
  | false => simp [State.readMapped, writeSetCovers_status, hn, State.valueAt, State.regValue]

theorem errWord_eq_zero {s : State} (hinv : ProtocolInv s) (hbusy : s.busy = true) : s.errWord = 0 := by
  obtain ⟨-, hcode⟩ := hinv.busy_quiet hbusy
  rw [State.errWord, hcode, hinv.stage_zero hcode]
  rfl

/-- Settles O26: the read is of the entry the address names, and one rule each says what that returns. -/
theorem busyReadsOfTheWriteSet : Obligations.BusyReadsOfTheWriteSet := by
  intro s addr t hp hinv hbusy hr ha
  rw [memRead_mapped (decodeAddr_of_addr hp hr ha)]
  refine ⟨readMapped_covered hbusy, fun h ht _ => readMapped_value h ht, ?_, ?_, ?_⟩
  · rintro i rfl hi
    exact readMapped_no_value (by rw [State.valueAt, hi]; rfl)
  · rintro rfl
    have hv : s.valueAt (.reg .err) = some 0 := congrArg some (errWord_eq_zero hinv hbusy)
    exact readMapped_value (writeSetCovers_err _) (by decide) hv
  · rintro rfl
    obtain ⟨-, hcode⟩ := hinv.busy_quiet hbusy
    have herr : s.errView = false := decide_eq_false (not_not.2 hcode)
    have hbit := statusWord_getLsbD s
      (if writeSetCovers s.pending (.reg .nodeCount) then Config.anyBit s.draws else s.treeValid)
    refine ⟨_, readMapped_status_busy hbusy, (hbit 0).trans hbusy, hbit 1, (hbit 2).trans herr, hbit 3, hbit 4,
      fun j hj => ?_, hbit 5⟩
    exact (hbit j).trans (List.getD_eq_default _ _ hj)

/-! ### The turns of HOST and ENGINE (00_scope R11, 20_memory R74, R75) -/

theorem step_of_hostMoves {s : State} {later : List Turn} (hrst : s.rst = false) (h : HostMoves s later) :
    step s = hostTurn { s with turns := later } := by
  rw [step, State.scheduled, heldInReset_of_released hrst, State.takeTurn]
  rcases h with hturns | ⟨hturns, rfl, hidle | hheld⟩
  · rw [hturns]
  · have hsame : ({ s with turns := [] } : State) = s := by rw [← hturns]
    rw [hsame, hturns]
    exact if_neg (by simp [hidle])
  · exact absurd (hrst.symm.trans hheld) (by decide)

theorem step_of_engine_next {s : State} {later : List Turn} (hrst : s.rst = false) (hbusy : s.busy = true)
    (hturns : s.turns = .engine :: later) : step s = exec s.pending { s with turns := later } := by
  rw [step, State.scheduled, heldInReset_of_released hrst, State.takeTurn, hturns]
  exact if_pos hbusy

theorem hostTurn_cons {s : State} {op : HostOp} {rest : List HostOp} (hops : s.hostOps = op :: rest)
    (hw : op.width = 4) : hostTurn s = .next (s.performOp op rest) := by
  simp [hostTurn, hops, HostOp.wellFormed, hw]

theorem busRead_released {s : State} (hrst : s.rst = false) (addr : Word) : s.busRead addr = s.memRead addr := by
  simp [State.busRead, hrst]

theorem busWrite_released {s : State} (hrst : s.rst = false) (addr v : Word) :
    s.busWrite addr v = s.memWrite addr v := by
  simp [State.busWrite, hrst]

/-- No host read records a response of its own. -/
theorem memRead_responses (s : State) (addr : Word) : (s.memRead addr).2.responses = s.responses := by
  rw [memRead_sameButFlags s addr]

theorem performOp_read {s : State} (hrst : s.rst = false) (addr : Word) (width : Nat) (rest : List HostOp) :
    s.performOp (.read addr width) rest =
      { (s.memRead addr).2 with responses := (s.memRead addr).1 :: s.responses, hostOps := rest } := by
  rw [State.performOp, busRead_released hrst, State.respond, memRead_responses]

theorem performOp_write {s : State} (hrst : s.rst = false) (addr : Word) (width : Nat) (v : Word)
    (rest : List HostOp) : s.performOp (.write addr width v) rest = { s.memWrite addr v with hostOps := rest } := by
  simp only [State.performOp, busWrite_released hrst]

theorem performOp_poll {s : State} (hrst : s.rst = false) (addr mask value : Word) (rest : List HostOp) :
    s.performOp (.poll addr mask value) rest =
      { (s.memRead addr).2 with
        responses := (s.memRead addr).1 :: s.responses
        hostOps := if (s.memRead addr).1 &&& mask = value then rest else .poll addr mask value :: rest } := by
  rw [State.performOp, busRead_released hrst, State.respond, memRead_responses]

/-- Settles O6: HOST's turn is one access of its first operation, on the state with the turn taken off. -/
theorem hostTurnPerformsOneAccess : Obligations.HostTurnPerformsOneAccess := by
  intro s later rest hrst hmoves
  have hop : ∀ op, s.hostOps = op :: rest → op.width = 4 →
      step s = .next (State.performOp { s with turns := later } op rest) := fun op hops hw =>
    (step_of_hostMoves hrst hmoves).trans (hostTurn_cons (s := { s with turns := later }) hops hw)
  have hrst' : ({ s with turns := later } : State).rst = false := hrst
  refine ⟨fun addr hops => ?_, fun addr v hops => ?_, fun addr mask value hops => ?_, fun hops => ?_⟩
  · rw [hop _ hops rfl, performOp_read hrst']
  · rw [hop _ hops rfl, performOp_write hrst']
  · rw [hop _ hops rfl, performOp_poll hrst', hops]
  · rw [step_of_hostMoves hrst hmoves]
    simp only [hostTurn, hops]

/-- Settles O5: HOST's write to CMD accepts the command, and ENGINE, next, performs it. -/
theorem acceptedWordRunsDecodedCommand : Obligations.AcceptedWordRunsDecodedCommand := by
  intro s v i hv
  refine ⟨fun later rest hrst hidle hturns hops => ?_, fun nbits => ?_⟩
  · have hsubmit : State.memWrite { s with turns := .engine :: later } 0x018 v =
        State.accept { s with turns := .engine :: later } i := by
      refine (memWrite_reg (s := { s with turns := .engine :: later }) (r := .cmd) rfl (.inl hidle) v).trans ?_
      rw [State.writeReg, State.submitCommand, hv]
    refine ⟨_, ?_, rfl, step_of_engine_next hrst rfl rfl⟩
    obtain ⟨-, hwrite, -, -⟩ := hostTurnPerformsOneAccess s _ rest hrst (.inl hturns)
    rw [hwrite _ _ hops, hsubmit]
    rfl
  · have hplace : s.withFetchWord nbits v.toNat = { s.accept i with rst := false, turns := .engine :: s.turns } := by
      rw [State.withFetchWord, BitVec.ofNat_toNat, BitVec.setWidth_eq, State.placeCommand, hv]
    rw [hplace]
    exact step_of_engine_next rfl rfl rfl

/-! ### The busy protocol (20_memory R70, R71, 60_exceptions R211) -/

/-- An idle block meets the protocol when ERR holds a listed code, with STAGE 0 when it holds none. -/
theorem protocolInv_of_idle {s : State} (hidle : s.busy = false) (hcode : s.errCode.toNat ≤ 7)
    (hstage : s.errCode = 0 → s.errStage = 0) : ProtocolInv s :=
  ⟨fun hbusy => absurd (hbusy.symm.trans hidle) (by decide), hcode, hstage⟩

/-- Every error has a code of its own, 1 … 7. -/
theorem ErrCode.bits_range (c : ErrCode) : c.bits.toNat ≤ 7 ∧ c.bits ≠ 0 := by
  cases c <;> decide

/-- A recorded error is a listed code, so an idle block that records one meets the protocol. -/
theorem protocolInv_of_error {s : State} (hidle : s.busy = false) {c : ErrCode} (hc : s.errCode = c.bits) :
    ProtocolInv s :=
  protocolInv_of_idle hidle (hc ▸ c.bits_range.1) fun h0 => absurd (hc.symm.trans h0) c.bits_range.2

/-- A completed command leaves the block idle, with no error or with a listed one. -/
theorem exec_protocolInv {i : Instr} {s t : State} (h : exec i s = .next t) : ProtocolInv t := by
  rw [exec_eq_complete] at h
  rcases complete_eq_next.1 h with ⟨u, -, rfl⟩ | ⟨u, c, g, -, rfl⟩
  · exact protocolInv_of_idle rfl (Nat.zero_le _) fun _ => rfl
  · exact protocolInv_of_error rfl rfl

theorem ProtocolInv.accept (s : State) (i : Instr) : ProtocolInv (s.accept i) :=
  ⟨fun _ => ⟨rfl, rfl⟩, Nat.zero_le _, fun _ => rfl⟩

theorem ProtocolInv.writeStatus {s : State} (hs : ProtocolInv s) (v : Word) : ProtocolInv (s.writeStatus v) := by
  refine ⟨fun hbusy => ?_, hs.code_listed, hs.stage_zero⟩
  obtain ⟨hdone, hcode⟩ := hs.busy_quiet hbusy
  exact ⟨by simp [hdone], hcode⟩

theorem ProtocolInv.memWrite {s : State} (hs : ProtocolInv s) (addr v : Word) : ProtocolInv (s.memWrite addr v) := by
  rcases memWrite_cases s addr v with h | ⟨-, h⟩ | ⟨-, h⟩ | h | h |
    ⟨hidle, ⟨i, -, h⟩ | ⟨-, h⟩ | ⟨-, h⟩ | ⟨_, h⟩ | ⟨_, h⟩ | ⟨_, -, h⟩⟩
  all_goals rw [h]
  case inr.inr.inr.inr.inl => exact hs.writeStatus v
  case inr.inr.inr.inr.inr.inl => exact .accept s i
  case inr.inr.inr.inr.inr.inr.inl => exact protocolInv_of_error hidle (c := .badCmd) rfl
  all_goals exact ⟨hs.busy_quiet, hs.code_listed, hs.stage_zero⟩

/-- Settles O55: acceptance clears DONE and ERR, and every record of an error leaves the block idle. -/
theorem stepKeepsTheBusyProtocol : Obligations.StepKeepsTheBusyProtocol := fun _ _ =>
  step_keeps (henv := fun _ _ hu ht => by rw [ht]; exact ⟨hu.busy_quiet, hu.code_listed, hu.stage_zero⟩)
    (hreset := fun _ _ => protocolInv_of_idle rfl (Nat.zero_le _) fun _ => rfl)
    (hexec := fun _ _ _ _ => exec_protocolInv)
    (hwrite := fun _ addr v hu => hu.memWrite addr v)
    (haerr := fun _ hu => ⟨hu.busy_quiet, hu.code_listed, hu.stage_zero⟩)

end Sys2Proof.Machine
end

section
/-! PROOFS of the family 30_encoding: command words, the word formats of the windows, and the write sets of the
commands. -/

namespace Sys2Proof.Machine

/-! ### Command words (30_encoding R90 – R92) -/

/-- A word is its RSV field above its OP field (30_encoding R90). -/
theorem rsv_append_op (v : Word) : v.extractLsb' 8 24 ++ v.extractLsb' 0 8 = v :=
  (BitVec.extractLsb'_append_extractLsb'_eq_extractLsb' rfl).trans BitVec.extractLsb'_eq_self

/-- Settles O3: a legal word is RSV = 0 above the opcode, and that is how the encoder puts a word together. -/
theorem encodeInvertsDecode : Obligations.EncodeInvertsDecode := by
  intro v i
  rw [decode_eq_ok]
  constructor
  · rintro ⟨hrsv, hop⟩
    rw [← rsv_append_op v, hrsv, hop, encode]
  · rintro rfl
    exact ⟨encode_rsv i, encode_op i⟩

/-- Settles O2: the RSV field is 0 and the OP field is an opcode; acceptance records the command decoded. -/
theorem legalCommandWordsExactly : Obligations.LegalCommandWordsExactly := by
  refine fun v => ⟨?_, fun i hi => ?_⟩
  · calc (∃ i, decode v = .ok i)
        ↔ v.extractLsb' 8 24 = 0 ∧ ∃ i, decodeOp (v.extractLsb' 0 8) = .ok i := by
          simp only [decode_eq_ok, decodeOp_eq_ok, exists_and_left]
      _ ↔ _ := and_congr_right fun _ => decodeOp_isOk
  · have hop : i.opcode = v.extractLsb' 0 8 := (decode_eq_ok.1 hi).2.symm
    refine ⟨hop, fun s => ?_⟩
    have hpending : (s.submitCommand v).pending = i := by rw [State.submitCommand, hi, State.accept_pending]
    rw [hpending, hop, ← BitVec.setWidth_eq_extractLsb' (w := 8) (by decide),
      BitVec.extractLsb'_setWidth_of_le (by decide)]

/-- Settles O1: each word is the word of its command. -/
theorem commandWordsDecode : Obligations.CommandWordsDecode :=
  have hword : ∀ i, decode (encode i) = .ok i := fun i => (encodeInvertsDecode _ i).2 rfl
  ⟨hword .clear, hword .count, hword .build, hword .extract, hword .assign, hword .encode, hword .run⟩

/-! ### Reads of the windows while idle (20_memory R66) -/

theorem readMapped_idle {s : State} (hidle : s.busy = false) {t : Target} {w : Word} (hv : s.valueAt t = some w) :
    s.readMapped t = (w, s) := by
  simp [State.readMapped, hidle, hv]

theorem memRead_idle {s : State} (hp : s.params.legal = true) (hidle : s.busy = false) {t : Target}
    (hr : t.inRange s.params) {w : Word} (hv : s.valueAt t = some w) :
    s.memRead (BitVec.ofNat 32 t.addr) = (w, s) :=
  (memRead_mapped (decodeAddr_ofNat_addr hp hr)).trans (readMapped_idle hidle hv)

theorem memRead_no_value {s : State} (hp : s.params.legal = true) {t : Target} (hr : t.inRange s.params)
    (hv : s.valueAt t = none) : s.memRead (BitVec.ofNat 32 t.addr) = s.drawAny :=
  (memRead_mapped (decodeAddr_ofNat_addr hp hr)).trans (readMapped_no_value hv)

/-- Settles O25: each read is of the entry whose address it names. -/
theorem dataWindowReads : Obligations.DataWindowReads := by
  intro s hp hidle
  refine ⟨fun x => memRead_idle hp hidle (t := .freq x) trivial rfl,
    fun x => memRead_idle hp hidle (t := .len x) trivial rfl, fun i hi => ⟨fun b hb => ?_, fun hn => ?_⟩,
    fun b hb => ⟨fun v hlt hv => ?_, fun hle => ?_⟩⟩
  · exact memRead_idle hp hidle (t := .inBuf i) hi (by rw [State.valueAt, hb]; rfl)
  · exact memRead_no_value hp (t := .inBuf i) hi (by rw [State.valueAt, hn]; rfl)
  · exact memRead_idle hp hidle (t := .outBuf b) hb (by rw [State.valueAt, if_pos hlt, hv]; rfl)
  · exact memRead_idle hp hidle (t := .outBuf b) hb (if_neg (Nat.not_lt.2 hle))

/-! ### The CODE window (30_encoding R98) -/

/-- Below the IN window the address map does not depend on the parameters (20_memory R61). -/
theorem decodeAddr_below_inBuf (p q : Params) {addr : Word} (h : addr.toNat < 0x00400000) :
    decodeAddr p addr = decodeAddr q addr := by
  simp only [decodeAddr, h, if_true]

theorem decodeAddr_code (p : Params) (x : Sym) {w : Nat} (hw : w < 16) :
    decodeAddr p (BitVec.ofNat 32 (Target.code x w).addr) = some (.code x w) := by
  have hlow : (BitVec.ofNat 32 (Target.code x w).addr).toNat < 0x00400000 := by
    have := x.isLt
    simp only [Target.addr, BitVec.toNat_ofNat]
    omega
  exact (decodeAddr_below_inBuf p .ref hlow).trans (decodeAddr_ofNat_addr (by decide) hw)

theorem memRead_code {s : State} (hidle : s.busy = false) (x : Sym) {w : Nat} (hw : w < 16) :
    s.memRead (BitVec.ofNat 32 (Target.code x w).addr) = (codeWord (s.clen.get x) (s.code.get x) w, s) :=
  (memRead_mapped (decodeAddr_code s.params x hw)).trans (readMapped_idle hidle rfl)

theorem codeWord_value {w : Nat} (h1 : 1 ≤ w) (h8 : w ≤ 8) (clen : BitVec 8) (code : BitVec 256) :
    codeWord clen code w = code.extractLsb' (32 * (w - 1)) 32 := by
  rw [codeWord, if_neg (by omega), if_pos h8]

theorem codeWord_unused {w : Nat} (h : 9 ≤ w) (clen : BitVec 8) (code : BitVec 256) : codeWord clen code w = 0 := by
  rw [codeWord, if_neg (by omega), if_neg (by omega)]

/-- A code has no bit at its length or above, nor at MAX_CODE_LEN or above (10_state R38). -/
theorem CodeInv.getLsbD_eq_false {s : State} (h : CodeInv s) (x : Sym) {j : Nat}
    (hj : s.params.maxCodeLen ≤ j ∨ (s.clen.get x).toNat ≤ j) : (s.code.get x).getLsbD j = false := by
  have hle : (s.clen.get x).toNat ≤ j := hj.elim (h.clen_le x).trans id
  exact Nat.testBit_lt_two_pow ((h.code_lt x).trans_le (Nat.pow_le_pow_right (by decide) hle))

/-- Settles O24: the words of slot x, by their index. -/
theorem codeWindowReads : Obligations.CodeWindowReads := by
  intro s x hidle hinv
  refine ⟨memRead_code hidle x (w := 0) (by decide), fun w h1 h8 => ?_, fun w h9 h15 => ?_,
    fun j => hinv.getLsbD_eq_false x⟩
  · exact (memRead_code hidle x (by omega)).trans (by rw [codeWord_value h1 h8])
  · exact (memRead_code hidle x (by omega)).trans (by rw [codeWord_unused h9])

/-! ### The TREE window (30_encoding R97) -/

/-- A slot at or above NODE_COUNT shows 0. -/
theorem valueAt_tree_dead {s : State} {i : Nat} (h : s.nodeCount.toNat ≤ i) (w : Nat) :
    s.valueAt (.tree i w) = some 0 :=
  if_neg (Nat.not_lt.2 h)

theorem valueAt_tree_live {s : State} {i : Nat} {n : Node} (h : i < s.nodeCount.toNat) (hn : s.node[i]? = some n)
    (w : Nat) : s.valueAt (.tree i w) = some (n.word w) := by
  rw [State.valueAt, if_pos h, hn]
  rfl

/-- A tree has at most 511 nodes, so slot 511 is never live (10_state R35). -/
theorem TreeInv.nodeCount_le {s : State} (h : TreeInv s) : s.nodeCount.toNat ≤ 511 := by
  by_cases h0 : s.nodeCount = 0
  · simp [h0]
  · obtain ⟨freq, hne, -, hcount, -⟩ := h.built h0
    exact hcount ▸ treeNodes_length_le hne

/-- A field of a word given as a number. -/
theorem field_ofNat {a : Nat} (ha : a < 2 ^ 32) {start len : Nat} {x : BitVec len}
    (hx : a / 2 ^ start % 2 ^ len = x.toNat) : (BitVec.ofNat 32 a).extractLsb' start len = x := by
  refine BitVec.eq_of_toNat_eq ?_
  rw [BitVec.extractLsb'_toNat, BitVec.toNat_ofNat, Nat.mod_eq_of_lt ha, Nat.shiftRight_eq_div_pow, hx]

theorem field_ofNat_zero {a : Nat} (ha : a < 2 ^ 32) {start len : Nat} (hx : a / 2 ^ start % 2 ^ len = 0) :
    (BitVec.ofNat 32 a).extractLsb' start len = 0 :=
  field_ofNat ha (hx.trans BitVec.toNat_zero.symm)

/-- Word 0: KIND in bit 0, MIN_SYM in bits 15:8, the rest 0. -/
theorem Node.word_zero_fields (n : Node) :
    (n.word 0).getLsbD 0 = decide (n.kind = .internal) ∧ (n.word 0).extractLsb' 8 8 = n.minSym ∧
    (n.word 0).extractLsb' 1 7 = 0 ∧ (n.word 0).extractLsb' 16 16 = 0 := by
  have hsym := n.minSym.isLt
  have hkind : n.kind.bit < 2 := by cases n.kind <;> decide
  have hlt : n.kind.bit + 256 * n.minSym.toNat < 2 ^ 32 := by omega
  refine ⟨?_, field_ofNat hlt (by omega), field_ofNat_zero hlt (by omega), field_ofNat_zero hlt (by omega)⟩
  have heven : 256 * n.minSym.toNat % 2 = 0 := by omega
  rw [Node.word, BitVec.getLsbD_ofNat, Nat.testBit_zero, Nat.add_mod, heven]
  cases n.kind <;> rfl

/-- Word 2: the upper 8 bits of NFREQ, the rest 0. -/
theorem Node.word_two_fields (n : Node) :
    (n.word 2).extractLsb' 0 8 = n.nfreq.extractLsb' 32 8 ∧ (n.word 2).extractLsb' 8 24 = 0 := by
  have hupper := (n.nfreq.extractLsb' 32 8).isLt
  have hlt : (n.nfreq.extractLsb' 32 8).toNat < 2 ^ 32 := by omega
  rw [Node.word, ← BitVec.ofNat_toNat]
  exact ⟨field_ofNat hlt (by omega), field_ofNat_zero hlt (by omega)⟩

/-- Word 3: LEFT in bits 8:0, RIGHT in bits 24:16, the rest 0. -/
theorem Node.word_three_fields (n : Node) :
    (n.word 3).extractLsb' 0 9 = n.left ∧ (n.word 3).extractLsb' 16 9 = n.right ∧
    (n.word 3).extractLsb' 9 7 = 0 ∧ (n.word 3).extractLsb' 25 7 = 0 := by
  have hleft := n.left.isLt
  have hright := n.right.isLt
  have hlt : n.left.toNat + 65536 * n.right.toNat < 2 ^ 32 := by omega
  exact ⟨field_ofNat hlt (by omega), field_ofNat hlt (by omega), field_ofNat_zero hlt (by omega),
    field_ofNat_zero hlt (by omega)⟩

/-- Settles O23: a dead slot shows 0, and a live one the four words of its node. -/
theorem treeWindowReads : Obligations.TreeWindowReads := by
  intro s i hp hidle hi
  have hdead : ∀ j, j < 512 → s.nodeCount.toNat ≤ j → ∀ w, w < 4 →
      s.memRead (BitVec.ofNat 32 (0x2000 + 16 * j + 4 * w)) = (0, s) := fun j hj hle w hw =>
    memRead_idle hp hidle (t := .tree j w) ⟨hj, hw⟩ (valueAt_tree_dead hle w)
  refine ⟨fun htree => hdead 511 (by decide) htree.nodeCount_le, hdead i hi, fun n hlt hn => ?_⟩
  have hlive : ∀ w, w < 4 → s.memRead (BitVec.ofNat 32 (0x2000 + 16 * i + 4 * w)) = (n.word w, s) := fun w hw =>
    memRead_idle hp hidle (t := .tree i w) ⟨hi, hw⟩ (valueAt_tree_live hlt hn w)
  obtain ⟨hkind, hsym, hz1, hz16⟩ := n.word_zero_fields
  obtain ⟨hfreq, hz8⟩ := n.word_two_fields
  obtain ⟨hleft, hright, hz9, hz25⟩ := n.word_three_fields
  exact ⟨n.word 0, n.word 1, n.word 2, n.word 3, hlive 0 (by decide), hlive 1 (by decide), hlive 2 (by decide),
    hlive 3 (by decide), hkind, hsym, hz1, hz16, rfl, hfreq, hz8, hleft, hright, hz9, hz25⟩

/-! ### The write sets (30_encoding R96) -/

/-- Settles O27: by the kind of entry, and register by register. -/
theorem writeSetTable : Obligations.WriteSetTable := by
  have hrun : ∀ t, writeSetCovers .run t = (writeSetCovers .count t || writeSetCovers .build t ||
      writeSetCovers .extract t || writeSetCovers .assign t || writeSetCovers .encode t) := by
    intro t
    cases t with
    | reg r => cases r <;> rfl
    | _ => rfl
  refine ⟨?_, ?_, ?_, ?_, ?_, ?_, hrun⟩
  all_goals
    intro t
    cases t <;> simp [writeSetCovers]

/-- What no command's write set covers shows a field that no command changes. -/
theorem SameShell.valueAt {s u : State} (h : SameShell s u) {t : Target} (ht : writeSetCovers .run t = false)
    (hstatus : t ≠ .reg .status) (herr : t ≠ .reg .err) : u.valueAt t = s.valueAt t := by
  cases t with
  | freq x | len x | tree i w | code x w | outBuf b => cases ht
  | inBuf i => rw [State.valueAt, State.valueAt, h.inBuf]
  | reg r =>
    refine congrArg some ?_
    cases r with
    | nodeCount | root | bitCount | outLen => cases ht
    | status => exact absurd rfl hstatus
    | err => exact absurd rfl herr
    | id | cmd => rfl
    | ctrl => rw [State.regValue, State.regValue, h.irqEn]
    | inLen => exact h.inLen
    | paramMaxInput | paramOutCap | paramMaxCodeLen => rw [State.regValue, State.regValue, h.params]

/-- Completion shows in STATUS and ERR only. -/
theorem valueAt_completed (s : State) (c g : BitVec 8) {t : Target} (hstatus : t ≠ .reg .status)
    (herr : t ≠ .reg .err) : (s.completed c g).valueAt t = s.valueAt t := by
  cases t with
  | reg r =>
    cases r with
    | status => exact absurd rfl hstatus
    | err => exact absurd rfl herr
    | _ => rfl
  | _ => rfl

/-- What a single stage commits shows in its write set only, STATUS and ERR aside. -/
theorem valueAt_committed {i : Instr} (hi : i ≠ .run) {s u : State} (h : stageOf i s = .committed u) {t : Target}
    (ht : writeSetCovers i t = false) (hstatus : t ≠ .reg .status) (herr : t ≠ .reg .err) :
    u.valueAt t = s.valueAt t := by
  cases i with
  | clear => exact (clearStage_shell (congrArg StageResult.state? h)).valueAt ht hstatus herr
  | count =>
    rcases countStage_cases s with ⟨-, he⟩ | ⟨-, -, he⟩ | ⟨-, _, -, he⟩
    all_goals cases he.symm.trans h
    cases t with
    | freq x => cases ht
    | _ => rfl
  | build =>
    rcases buildStage_cases s with ⟨-, he⟩ | ⟨-, he⟩
    all_goals cases he.symm.trans h
    cases t with
    | tree j w => cases ht
    | reg r =>
      cases r with
      | nodeCount | root => cases ht
      | status => exact absurd rfl hstatus
      | _ => rfl
    | _ => rfl
  | extract =>
    rcases extractStage_cases s with ⟨-, he⟩ | ⟨-, -, he⟩ | ⟨-, _, -, ⟨-, he⟩ | ⟨-, he⟩⟩
    all_goals cases he.symm.trans h
    cases t with
    | len x | tree j w => cases ht
    | reg r =>
      cases r with
      | nodeCount | root => cases ht
      | status => exact absurd rfl hstatus
      | _ => rfl
    | _ => rfl
  | assign =>
    rcases assignStage_cases s with ⟨-, he⟩ | ⟨-, -, he⟩ | ⟨-, -, -, he⟩ | ⟨-, -, -, _, _, -, he⟩
    all_goals cases he.symm.trans h
    cases t with
    | code x w => cases ht
    | _ => rfl
  | encode =>
    rcases encodeStage_cases s with ⟨-, he⟩ | ⟨_, -, ⟨-, he⟩ | ⟨-, ⟨-, he⟩ | ⟨-, he⟩⟩⟩
    all_goals cases he.symm.trans h
    cases t with
    | outBuf b => cases ht
    | reg r =>
      cases r with
      | bitCount | outLen => cases ht
      | _ => rfl
    | _ => rfl
  | run => exact absurd rfl hi

/-- Settles O28: RUN covers whatever some command changes; a single command ends where it began, or commits. -/
theorem commandsWriteOnlyTheirWriteSet : Obligations.CommandsWriteOnlyTheirWriteSet := by
  intro i s u t h ht hstatus herr
  by_cases hi : i = .run
  · subst hi
    exact (exec_next h).1.valueAt ht hstatus herr
  rw [exec_eq_complete] at h
  rcases complete_eq_next.1 h with ⟨v, hr, rfl⟩ | ⟨v, c, g, hr, rfl⟩
  · rw [valueAt_completed v _ _ hstatus herr, valueAt_committed hi hr ht hstatus herr]
  · rw [valueAt_completed v _ _ hstatus herr, (stageOf_error hi hr).1]

end Sys2Proof.Machine
end

section
/-! PROOFS of the family 41_huffman_encoder: the turn of ENGINE, how every command completes, CLEAR, COUNT, and RUN
as five commands and on the inputs that fit. -/

namespace Sys2Proof.Machine

/-! ### The turn of ENGINE (00_scope R11, 20_memory R75) -/

theorem step_of_engine_idle {s : State} {later : List Turn} (hrst : s.rst = false) (hidle : s.busy = false)
    (hturns : s.turns = .engine :: later) : step s = .next { s with turns := later } := by
  rw [step, State.scheduled, heldInReset_of_released hrst, State.takeTurn, hturns]
  exact if_neg (by simp [hidle])

/-- With no turn given ENGINE goes first while it is enabled (log 3). -/
theorem step_of_busy_no_turns {s : State} (hrst : s.rst = false) (hbusy : s.busy = true) (hturns : s.turns = []) :
    step s = exec s.pending s := by
  rw [step, State.scheduled, heldInReset_of_released hrst, State.takeTurn, hturns]
  exact (if_pos hbusy).trans (if_pos hbusy)

/-- Settles O4: ENGINE's turn while BUSY, while idle, and when it goes first unasked. -/
theorem engineStepRunsPendingCommand : Obligations.EngineStepRunsPendingCommand :=
  fun _ hrst => ⟨fun _ => step_of_engine_next hrst, fun _ => step_of_engine_idle hrst, step_of_busy_no_turns hrst⟩

/-! ### How every command completes (41 R120) -/

/-- Settles O30: what no write set covers is kept, and the ENGINE step ends idle with DONE set. -/
theorem everyCommandCompletesInItsFrame : Obligations.EveryCommandCompletesInItsFrame := by
  intro i s t h
  obtain ⟨hshell, hbusy, hdone⟩ := exec_next h
  exact ⟨hbusy, hdone, hshell.params, hshell.irqEn, hshell.ovr, hshell.aerr, hshell.pending, hshell.inLen,
    hshell.inBuf, hshell.rst, hshell.hostOps, hshell.turns, hshell.responses, hshell.draws⟩

/-- The pseudocode ends: it commits, or raises one of the errors of a command (60_exceptions R211; BAD_CMD is the
rejection of a word that is none). -/
def StageResult.Ends (r : StageResult) : Prop :=
  (∃ u, r = .committed u) ∨ ∃ u c g, c ≠ ErrCode.badCmd ∧ r = .error u c g

theorem StageResult.Ends.of_committed {r : StageResult} {u : State} (h : r = .committed u) : r.Ends :=
  .inl ⟨u, h⟩

theorem StageResult.Ends.of_error {r : StageResult} {u : State} {c : ErrCode} {g : BitVec 8} (h : r = .error u c g)
    (hc : c ≠ .badCmd) : r.Ends :=
  .inr ⟨u, c, g, hc, h⟩

theorem StageResult.Ends.complete {r : StageResult} (h : r.Ends) :
    ∃ t, r.complete = .next t ∧ t.errCode.toNat ≤ 6 := by
  rcases h with ⟨u, rfl⟩ | ⟨u, c, g, hc, rfl⟩
  · exact ⟨_, rfl, by simp⟩
  · refine ⟨_, rfl, ?_⟩
    rw [State.completed_errCode]
    cases c with
    | badCmd => exact absurd rfl hc
    | _ => decide

/-- On a written input and a tree that BUILD made, no pseudocode faults. -/
theorem stageOf_ends (i : Instr) {s : State} {syms : List Sym} (htree : TreeInv s) (hs : s.input = some syms) :
    (stageOf i s).Ends := by
  have hwritten : s.input ≠ none := by simp [hs]
  cases i with
  | clear => exact .of_committed rfl
  | count =>
    rcases countStage_cases s with ⟨-, he⟩ | ⟨-, hn, -⟩ | ⟨-, _, -, he⟩
    · exact .of_error he (by decide)
    · exact absurd hn hwritten
    · exact .of_committed he
  | build =>
    rcases buildStage_cases s with ⟨-, he⟩ | ⟨-, he⟩
    · exact .of_error he (by decide)
    · exact .of_committed he
  | extract =>
    rcases extractStage_cases s with ⟨-, he⟩ | ⟨hc, hn, -⟩ | ⟨-, _, -, ⟨-, he⟩ | ⟨-, he⟩⟩
    · exact .of_error he (by decide)
    · obtain ⟨_, leaves, -, -, -, hl, -⟩ := leafDepths_of_treeInv htree hc
      exact absurd (hn.symm.trans hl) (by simp)
    · exact .of_error he (by decide)
    · exact .of_committed he
  | assign =>
    rcases assignStage_cases s with ⟨-, he⟩ | ⟨-, -, he⟩ | ⟨-, -, -, he⟩ | ⟨-, -, -, _, _, -, he⟩
    · exact .of_error he (by decide)
    · exact .of_error he (by decide)
    · exact .of_error he (by decide)
    · exact .of_committed he
  | encode =>
    rcases encodeStage_cases s with ⟨hn, -⟩ | ⟨_, -, ⟨-, he⟩ | ⟨-, ⟨-, he⟩ | ⟨-, he⟩⟩⟩
    · exact absurd hn hwritten
    · exact .of_error he (by decide)
    · exact .of_error he (by decide)
    · exact .of_committed he
  | run =>
    rcases runStage_cases s with ⟨-, he⟩ | ⟨-, hn, -⟩ |
      ⟨-, _, -, -, -, _, -, ⟨-, he⟩ | ⟨-, _, -, -, ⟨-, he⟩ | ⟨-, he⟩⟩⟩
    · exact .of_error he (by decide)
    · exact absurd hn hwritten
    · exact .of_error he (by decide)
    · exact .of_error he (by decide)
    · exact .of_committed he

/-- Settles O31: no pseudocode faults there, and an ENGINE step whose pseudocode ends completes. -/
theorem everyCommandCompletes : Obligations.EveryCommandCompletes := by
  intro i s htree hwritten
  obtain ⟨syms, hs, -⟩ := input_of_written hwritten
  obtain ⟨t, ht, hcode⟩ := (stageOf_ends i htree hs).complete
  have hexec : exec i s = .next t := (exec_eq_complete i s).trans ht
  obtain ⟨-, hbusy, hdone⟩ := exec_next hexec
  exact ⟨t, hexec, hbusy, hdone, hcode⟩

/-! ### CLEAR (41 R121) -/

theorem exec_clear (s : State) : exec .clear s = .next ((cleared s).completed 0 0) := rfl

/-- Settles O34: the state CLEAR commits, completed; it has no tree and no output byte to show. -/
theorem clearResetsTables : Obligations.ClearResetsTables := by
  refine ⟨rfl, fun s => ⟨(cleared s).completed 0 0, exec_clear s, fun x => ?_, rfl, fun i w => ?_, fun b => ?_, rfl⟩⟩
  · simp [cleared]
  · exact valueAt_tree_dead (Nat.zero_le i) w
  · rw [State.valueAt]
    exact if_neg (Nat.not_lt_zero b)

/-! ### COUNT (41 R122, R124) -/

/-- No count of an input wraps around (00_scope R10). -/
theorem frequencies_toNat {syms : List Sym} (hl : syms.length < 2 ^ 32) (x : Sym) :
    ((frequencies syms).get x).toNat = syms.count x := by
  have hle : syms.count x ≤ syms.length := List.count_le_length
  rw [frequencies_get, BitVec.toNat_ofNat, Nat.mod_eq_of_lt (by omega)]

theorem input_length_lt {s : State} {syms : List Sym} (hs : s.input = some syms) : syms.length < 2 ^ 32 := by
  rw [(input_eq_some.1 hs).1]
  exact s.inLen.isLt

/-- COUNT of a nonempty input that was written. -/
theorem countStage_of_input {s : State} {syms : List Sym} (h0 : s.inLen ≠ 0) (hs : s.input = some syms) :
    countStage s = .committed { s with freq := frequencies syms } := by
  rcases countStage_cases s with ⟨hz, -⟩ | ⟨-, hn, -⟩ | ⟨-, syms', hs', he⟩
  · exact absurd hz h0
  · exact absurd (hs.symm.trans hn) (by simp)
  · rw [he, Option.some.inj (hs'.symm.trans hs)]

/-- Settles O35: IN_LEN is 0, or the input was written, or an entry of it never was. -/
theorem countResult : Obligations.CountResult := by
  refine ⟨rfl, fun s => ⟨fun syms h0 hlen hin => ?_, fun h0 => ?_, fun i hi hn => ?_⟩⟩
  · have hs : s.input = some syms := input_eq_some.2 ⟨hlen, hin⟩
    refine ⟨frequencies syms, ?_, frequencies_toNat (input_length_lt hs)⟩
    rw [exec_eq_complete, stageOf, countStage_of_input h0 hs]
    rfl
  · rw [exec_eq_complete, stageOf, countStage, if_pos h0]
    rfl
  · rcases countStage_cases s with ⟨h0, -⟩ | ⟨-, -, he⟩ | ⟨-, syms, hs, -⟩
    · rw [h0] at hi
      exact absurd hi (Nat.not_lt_zero i)
    · rw [exec_eq_complete, stageOf, he]
      rfl
    · exact absurd (hs.symm.trans (input_eq_none.2 ⟨i, hi, hn⟩)) (by simp)

/-! ### RUN as five commands (41 R123, R125) -/

/-- `s` with other values of PENDING, ERR, DONE and BUSY: all that acceptance and completion write. -/
def State.withControl (s : State) (i : Instr) (c g : BitVec 8) (d b : Bool) : State :=
  { s with pending := i, errCode := c, errStage := g, done := d, busy := b }

/-- The same end, in another state. -/
def StageResult.mapState (f : State → State) : StageResult → StageResult
  | .committed s => .committed (f s)
  | .error s c g => .error (f s) c g
  | .fault x => .fault x

/-- A test that reads nothing that `f` writes: two ends of it that agree branch by branch agree. -/
theorem StageResult.ite_eq_mapState {f : State → State} {p : Prop} {i j : Decidable p} {a b a' b' : StageResult}
    (ha : a' = a.mapState f) (hb : b' = b.mapState f) : @ite _ p i a' b' = (@ite _ p j a b).mapState f := by
  subst ha hb
  split_ifs <;> rfl

/-- No single stage reads or writes PENDING, ERR, DONE or BUSY. -/
theorem stageOf_withControl {i : Instr} (hi : i ≠ .run) (s : State) (j : Instr) (c g : BitVec 8) (d b : Bool) :
    stageOf i (s.withControl j c g d b) = (stageOf i s).mapState fun u => u.withControl j c g d b := by
  cases i with
  | clear => rfl
  | count =>
    refine StageResult.ite_eq_mapState rfl ?_
    change (match s.input with | none => _ | some _ => _) = _
    cases s.input <;> rfl
  | build => exact StageResult.ite_eq_mapState rfl rfl
  | extract =>
    refine StageResult.ite_eq_mapState rfl ?_
    change (match leafDepths s.liveNodes s.root.toNat with | none => _ | some _ => _) = _
    cases leafDepths s.liveNodes s.root.toNat with
    | none => rfl
    | some leaves => exact StageResult.ite_eq_mapState rfl rfl
  | assign =>
    refine StageResult.ite_eq_mapState rfl (StageResult.ite_eq_mapState rfl ?_)
    change (match canonicalAssign s.len (sortedSymbols s.len) with | none => _ | some (_, _) => _) = _
    cases canonicalAssign s.len (sortedSymbols s.len) <;> rfl
  | encode =>
    change (match s.input with | none => _ | some _ => _) = StageResult.mapState _ (encodeStage s)
    rw [encodeStage]
    cases s.input with
    | none => rfl
    | some syms => exact StageResult.ite_eq_mapState rfl (StageResult.ite_eq_mapState rfl rfl)
  | run => exact absurd rfl hi

/-- A stage performed on an accepted state completes as it does on the state before, PENDING aside. -/
theorem complete_withControl {r : StageResult} {i : Instr} {t : State}
    (h : (r.mapState fun u => u.withControl i 0 0 false true).complete = .next t) :
    ∃ v, r.complete = .next v ∧ v = { t with pending := v.pending } := by
  cases r with
  | committed u => cases h; exact ⟨_, rfl, rfl⟩
  | error u c g => cases h; exact ⟨_, rfl, rfl⟩
  | fault x => cases h

/-- A chain of stages ends with the error of an earlier one. -/
theorem andThen_complete_of_error {r : StageResult} {t : State} (h : r.complete = .next t) (hne : t.errCode ≠ 0)
    (f : State → StageResult) : (r.andThen f).complete = .next t := by
  rcases complete_eq_next.1 h with ⟨u, -, rfl⟩ | ⟨u, c, g, rfl, rfl⟩
  · exact absurd rfl hne
  · rfl

/-- A stage after others that committed ends as its command does, accepted on the state they leave. -/
theorem andThen_complete_of_exec {r : StageResult} {i p : Instr} {t t' : State} (hi : i ≠ .run)
    (hr : r.complete = .next { t with pending := p }) (h0 : t.errCode = 0) (he : exec i (t.accept i) = .next t') :
    (r.andThen (stageOf i)).complete = .next { t' with pending := p } := by
  obtain ⟨u, rfl, hu⟩ := committed_of_complete hr h0
  have haccept : t.accept i = u.withControl i 0 0 false true :=
    congrArg (fun v => v.withControl i 0 0 false true) hu
  have hp : p = u.pending := congrArg State.pending hu
  rw [haccept, exec_eq_complete, stageOf_withControl hi] at he
  obtain ⟨v, hv, hvt⟩ := complete_withControl he
  have hpending : v.pending = u.pending := (exec_next ((exec_eq_complete i u).trans hv)).1.pending
  rw [andThen_committed, hv, hp, ← hpending, ← hvt]

/-- Settles O51: each stage of RUN is its command, up to PENDING, and an error ends the chain. -/
theorem runIsTheFiveCommands : Obligations.RunIsTheFiveCommands := by
  intro s s1 s2 s3 s4 s5 h1
  have hpending : s1.pending = s.pending := (exec_next h1).1.pending
  have r1 : (countStage s).complete = .next { s1 with pending := s.pending } := by
    rw [← hpending]
    exact h1
  have stop {r : StageResult} {t : State} := andThen_complete_of_error (r := r) (t := t)
  refine ⟨fun e => stop (stop (stop (stop h1 e _) e _) e _) e _, fun e1 h2 => ?_⟩
  have r2 := andThen_complete_of_exec (by decide) r1 e1 h2
  refine ⟨fun e => stop (stop (stop r2 e _) e _) e _, fun e2 h3 => ?_⟩
  have r3 := andThen_complete_of_exec (by decide) r2 e2 h3
  refine ⟨fun e => stop (stop r3 e _) e _, fun e3 h4 => ?_⟩
  have r4 := andThen_complete_of_exec (by decide) r3 e3 h4
  exact ⟨fun e => stop r4 e _, fun e4 h5 => andThen_complete_of_exec (by decide) r4 e4 h5⟩

/-! ### RUN on an input that fits (41 R123, 42 R145, 44 R194) -/

/-- The tree of a nonempty input has leaves to encode it with. -/
theorem exists_treeLeaves_frequencies {syms : List Sym} (hl : syms.length < 2 ^ 32) (hne : syms ≠ []) :
    ∃ leaves, TreeLeaves (frequencies syms) leaves := by
  have hcounted := countedSyms_frequencies hl hne
  obtain ⟨leaves, hanswer, -⟩ := leafDepths_tree hcounted
  exact ⟨leaves, hcounted, hanswer⟩

/-- EXTRACT gives each counted symbol the level of its Leaf below the root, and the single one 1 (42 R145). -/
theorem TreeLeaves.length_eq {freq : Table (BitVec 32)} {leaves : List (Sym × Nat)} (h : TreeLeaves freq leaves)
    {lens : Sym → Nat}
    (hlens : ∀ (i : Nat) (n : Node) (d : Nat), AtDepth (treeNodes freq) (treeRoot freq) i d →
      (treeNodes freq)[i]? = some n → n.kind = .leaf → lens n.minSym = max d 1)
    {x : Sym} (hx : freq.get x ≠ 0) : ((lengthsOf leaves).get x).toNat = lens x := by
  obtain ⟨d, hd, hlen⟩ := h.exists_depth hx
  obtain ⟨i, n, d', hdepth, hn, hk, hsym, hd'⟩ := (mem_leafDepths h.counted h.answer).2 _ hd
  have hpos : 1 ≤ d := (h.bounds _ hd).1
  dsimp only at hsym hd'
  rw [hlen, ← hsym]
  split_ifs at hd' with hi
  · rw [hi] at hn
    rw [hlens _ n 0 .root hn hk, hd']
    rfl
  · rw [hlens i n d' hdepth hn hk, ← hd']
    omega

section Fits

variable {s : State} {syms : List Sym} {leaves : List (Sym × Nat)} {code : Table (BitVec 256)}

/-- The state RUN commits (41 R123). -/
def runCommitted (s : State) (syms : List Sym) (leaves : List (Sym × Nat)) (code : Table (BitVec 256)) : State :=
  encoded { runExtracted s syms leaves with clen := lengthsOf leaves, code := code }
    (bitstream (lengthsOf leaves) code syms)

/-- What the input of a RUN without error is: its tree has the leaves `leaves`, no code of it is longer than
MAX_CODE_LEN, and its codewords fit OUT. -/
structure RunFits (s : State) (syms : List Sym) (leaves : List (Sym × Nat)) : Prop where
  nonempty : s.inLen ≠ 0
  input : s.input = some syms
  tree : TreeLeaves (frequencies syms) leaves
  length_le : ∀ x ∈ syms, ((lengthsOf leaves).get x).toNat ≤ s.params.maxCodeLen
  stream_le : (syms.map fun x => ((lengthsOf leaves).get x).toNat).sum ≤ 8 * s.params.outCap

theorem RunFits.length_ne_zero_iff (h : RunFits s syms leaves) (x : Sym) :
    (lengthsOf leaves).get x ≠ 0 ↔ x ∈ syms :=
  (h.tree.length_ne_zero_iff x).trans (frequencies_ne_zero (input_length_lt h.input))

/-- EXTRACT does not end with LEN_OVERFLOW. -/
theorem RunFits.depth_le (h : RunFits s syms leaves) (x : Sym) : (depthTable leaves).get x ≤ s.params.maxCodeLen := by
  refine depthTable_le h.tree.nodup (fun e he => ?_) x
  have hlen : ((lengthsOf leaves).get e.1).toNat = e.2 := lengthsOf_of_mem h.tree.nodup he (h.tree.bounds e he).2
  have hpos : 1 ≤ e.2 := (h.tree.bounds e he).1
  rw [← hlen]
  refine h.length_le e.1 ((h.length_ne_zero_iff e.1).1 fun h0 => ?_)
  rw [h0] at hlen
  exact absurd (hlen.trans_ge hpos) (by decide)

/-- ENCODE does not end with OUT_OVERFLOW. -/
theorem RunFits.byteCount_le (h : RunFits s syms leaves) (code : Table (BitVec 256)) :
    byteCount (bitstream (lengthsOf leaves) code syms).length ≤ s.params.outCap := by
  have hle := h.stream_le
  rw [← bitstream_length (code := code)] at hle
  unfold byteCount
  omega

/-- RUN commits, with the canonical codes of the lengths of the input's tree. -/
theorem RunFits.stage_committed (h : RunFits s syms leaves) :
    ∃ code, canonicalAssign (lengthsOf leaves) (sortedSymbols (lengthsOf leaves)) = some (lengthsOf leaves, code) ∧
      runStage s = .committed (runCommitted s syms leaves code) := by
  rcases runStage_cases s with ⟨h0, -⟩ | ⟨-, hn, -⟩ | ⟨-, syms', hs, -, -, leaves', hl, hx⟩
  · exact absurd h0 h.nonempty
  · exact absurd (h.input.symm.trans hn) (by simp)
  obtain rfl : syms = syms' := Option.some.inj (h.input.symm.trans hs)
  obtain rfl : leaves = leaves' := Option.some.inj (h.tree.answer.symm.trans hl)
  rcases hx with ⟨⟨x, hover⟩, -⟩ | ⟨-, code, hc, -, ⟨hover, -⟩ | ⟨-, he⟩⟩
  · exact absurd (h.depth_le x) (Nat.not_le.2 hover)
  · exact absurd (h.byteCount_le code) (Nat.not_le.2 hover)
  · exact ⟨code, hc, he⟩

theorem RunFits.exec_run (h : RunFits s syms leaves) :
    ∃ code, canonicalAssign (lengthsOf leaves) (sortedSymbols (lengthsOf leaves)) = some (lengthsOf leaves, code) ∧
      exec .run s = .next ((runCommitted s syms leaves code).completed 0 0) := by
  obtain ⟨code, hc, he⟩ := h.stage_committed
  exact ⟨code, hc, by rw [exec_eq_complete, stageOf, he]; rfl⟩

/-- BITCOUNT is the number of bits packed: a legal OUT_CAP keeps it below 2^32. -/
theorem RunFits.bitCount_eq (h : RunFits s syms leaves) (hlegal : s.params.legal = true) (code : Table (BitVec 256)) :
    (runCommitted s syms leaves code).bitCount.toNat = (bitstream (lengthsOf leaves) code syms).length := by
  have hcap := outCap_le_of_legal hlegal
  have hle := h.stream_le
  rw [← bitstream_length (code := code)] at hle
  rw [runCommitted, encoded, BitVec.toNat_ofNat, Nat.mod_eq_of_lt (by omega)]

theorem RunFits.outLen_eq (h : RunFits s syms leaves) (hlegal : s.params.legal = true) (code : Table (BitVec 256)) :
    (runCommitted s syms leaves code).outLen.toNat = byteCount (bitstream (lengthsOf leaves) code syms).length := by
  have hcap := outCap_le_of_legal hlegal
  have hle := h.byteCount_le code
  rw [runCommitted, encoded, BitVec.toNat_ofNat, Nat.mod_eq_of_lt (by omega)]

/-- OUT after RUN: the packed bytes below OUT_LEN, and what it held before from there on. -/
theorem runCommitted_outBuf_read (s : State) (syms : List Sym) (leaves : List (Sym × Nat))
    (code : Table (BitVec 256)) (b : Nat) :
    (runCommitted s syms leaves code).outBuf.read b =
      if b < byteCount (bitstream (lengthsOf leaves) code syms).length then
        (packedBytes (bitstream (lengthsOf leaves) code syms))[b]?
      else s.outBuf.read b := by
  rw [runCommitted, encoded, Memory.read_writeFrom]
  simp [runExtracted, extracted, built]

theorem RunFits.stream_read (h : RunFits s syms leaves) (hlegal : s.params.legal = true) (code : Table (BitVec 256)) :
    streamBits (runCommitted s syms leaves code).outBuf (runCommitted s syms leaves code).bitCount.toNat =
      some (bitstream (lengthsOf leaves) code syms) := by
  rw [h.bitCount_eq hlegal]
  exact streamBits_writeFrom _ _

/-- The stream RUN leaves decodes to the input (44 R196). -/
theorem RunFits.stream_decodes (h : RunFits s syms leaves)
    (hc : canonicalAssign (lengthsOf leaves) (sortedSymbols (lengthsOf leaves)) = some (lengthsOf leaves, code)) :
    decodeStream (lengthsOf leaves) code (bitstream (lengthsOf leaves) code syms).length
      (bitstream (lengthsOf leaves) code syms) = some syms := by
  have hcoded : ∀ x ∈ syms, (lengthsOf leaves).get x ≠ 0 := fun x => (h.length_ne_zero_iff x).2
  exact decodeStream_bitstream (canonicalAssign_prefixFree hc) hcoded (length_le_bitstream hcoded)

end Fits

/-! ### RUN on any input that fits -/

/-- A nonempty IN_LEN is a nonempty input. -/
theorem input_ne_nil {s : State} {syms : List Sym} (h0 : s.inLen ≠ 0) (hs : s.input = some syms) : syms ≠ [] := by
  rintro rfl
  exact h0 (BitVec.eq_of_toNat_eq (input_eq_some.1 hs).1.symm)

/-- A table of the counts of an input is the one COUNT makes. -/
theorem eq_frequencies {freq : Table (BitVec 32)} {syms : List Sym} (hl : syms.length < 2 ^ 32)
    (h : ∀ x, (freq.get x).toNat = syms.count x) : freq = frequencies syms :=
  Table.ext_get fun x => BitVec.eq_of_toNat_eq ((h x).trans (frequencies_toNat hl x).symm)

/-- At MAX_CODE_LEN = 255 an input fits that fits OUT at 255 bits a symbol. -/
theorem runFits_of_maxCodeLen {s : State} {syms : List Sym} {leaves : List (Sym × Nat)} (h0 : s.inLen ≠ 0)
    (hs : s.input = some syms) (htree : TreeLeaves (frequencies syms) leaves) (hmax : s.params.maxCodeLen = 255)
    (hcap : 255 * s.inLen.toNat ≤ 8 * s.params.outCap) : RunFits s syms leaves where
  nonempty := h0
  input := hs
  tree := htree
  length_le := fun x _ => by
    have := ((lengthsOf leaves).get x).isLt
    omega
  stream_le :=
    calc (syms.map fun x => ((lengthsOf leaves).get x).toNat).sum
        ≤ syms.length * 255 := sum_map_le _ _ _ fun x _ => Nat.le_of_lt_succ ((lengthsOf leaves).get x).isLt
      _ = 255 * s.inLen.toNat := by rw [(input_eq_some.1 hs).1, Nat.mul_comm]
      _ ≤ 8 * s.params.outCap := hcap

/-- Settles O53: the depths are the lengths of the input's tree, so RUN commits its canonical code and its stream. -/
theorem runEncodesEveryInput : Obligations.RunEncodesEveryInput := by
  intro s syms hlegal h0 hlen hin
  have hs : s.input = some syms := input_eq_some.2 ⟨hlen, hin⟩
  have hlt := input_length_lt hs
  obtain ⟨leaves, htree⟩ := exists_treeLeaves_frequencies hlt (input_ne_nil h0 hs)
  refine ⟨fun c b lens hcount hbuild hlens hmax hcap => ?_, fun hmax hcap => ?_⟩
  · have hfreq : c.freq = frequencies syms := eq_frequencies hlt hcount
    have hcounted : countedSyms c.freq ≠ [] := hfreq ▸ htree.counted
    obtain rfl := exec_build_of_counted hcounted hbuild
    have hlive : State.liveNodes ((built c).completed 0 0) = treeNodes (frequencies syms) :=
      hfreq ▸ built_liveNodes hcounted
    have hroot : ((built c).completed 0 0).root.toNat = treeRoot (frequencies syms) :=
      hfreq ▸ built_root hcounted
    rw [hlive, hroot] at hlens
    have hlength : ∀ x ∈ syms, ((lengthsOf leaves).get x).toNat = lens x := fun x hx =>
      htree.length_eq hlens ((frequencies_ne_zero hlt).2 hx)
    have hsum : (syms.map fun x => ((lengthsOf leaves).get x).toNat).sum = (syms.map lens).sum :=
      congrArg List.sum (List.map_congr_left hlength)
    have hfits : RunFits s syms leaves :=
      ⟨h0, hs, htree, fun x hx => (hlength x hx).trans_le (hmax x hx), hsum.trans_le hcap⟩
    obtain ⟨code, hc, hrun⟩ := hfits.exec_run
    refine ⟨_, bitstream (lengthsOf leaves) code syms, hrun, rfl, rfl, rfl, rfl, frequencies_toNat hlt,
      hfits.length_ne_zero_iff, hlength, rfl, canonicalAssign_prefixFree hc,
      kraftSum_lengthsOf_le htree.counted htree.answer, rfl, rfl, hfits.stream_read hlegal code, ?_, ?_,
      hfits.stream_decodes hc, fun x hx => ?_, rfl, rfl⟩
    · exact (hfits.bitCount_eq hlegal code).trans ((bitstream_length syms).trans hsum)
    · rw [State.completed_outLen, hfits.outLen_eq hlegal, State.completed_bitCount, hfits.bitCount_eq hlegal]
      rfl
    · rw [State.completed_outLen, hfits.outLen_eq hlegal] at hx
      rw [State.completed_outBuf, runCommitted_outBuf_read, if_neg (Nat.not_lt.2 hx)]
  · have hfits := runFits_of_maxCodeLen h0 hs htree hmax hcap
    obtain ⟨code, hc, hrun⟩ := hfits.exec_run
    exact ⟨_, _, hrun, rfl, hfits.length_ne_zero_iff, hfits.stream_read hlegal code, hfits.stream_decodes hc⟩

/-! ### RUN on copies of one symbol (43 R177, SRC-B) -/

/-- The code of length 1 and value 0 is the codeword "0". -/
theorem codeword_zero {clen : Table (BitVec 8)} {code : Table (BitVec 256)} {x : Sym} (hl : clen.get x = 1)
    (hc : code.get x = 0) : codeword clen code x = [false] := by
  simp [codeword, hl, hc]

theorem bitstream_replicate {clen : Table (BitVec 8)} {code : Table (BitVec 256)} {x : Sym}
    (h : codeword clen code x = [false]) (n : Nat) :
    bitstream clen code (List.replicate n x) = List.replicate n false := by
  induction n with
  | zero => rfl
  | succ n ih => rw [List.replicate_succ, bitstream_cons, h, ih]; rfl

theorem packByte_of_zeros {bits : List Bool} (h : ∀ j, bits.getD j false = false) (b : Nat) : packByte bits b = 0 := by
  rw [packByte]
  simp only [h]
  rfl

/-- A stream of zeros packs to zero bytes. -/
theorem packedBytes_replicate_false {n b : Nat} (hb : b < byteCount n) :
    (packedBytes (List.replicate n false))[b]? = some 0 := by
  have hzeros : ∀ j, (padded (List.replicate n false)).getD j false = false := fun j => by
    rw [padded_getD, List.getD_eq_getElem?_getD, List.getElem?_getD_replicate_default_eq]
  simp [packedBytes, hb, packByte_of_zeros hzeros]

/-- The input of n copies of one symbol. -/
theorem input_eq_replicate {s : State} {x : Sym} (h : ∀ j, j < s.inLen.toNat → s.inBuf.read j = some x) :
    s.input = some (List.replicate s.inLen.toNat x) :=
  input_eq_some.2 ⟨List.length_replicate, fun j hj => by rw [h j hj, List.getElem?_replicate_of_lt hj]⟩

theorem countedSyms_frequencies_replicate {n : Nat} (hn : n ≠ 0) (hl : n < 2 ^ 32) (x : Sym) :
    countedSyms (frequencies (List.replicate n x)) = [x] := by
  refine eq_singleton_of_mem_iff (nodup_countedSyms _) fun y => ?_
  rw [mem_countedSyms_frequencies (by simpa using hl), List.mem_replicate]
  exact and_iff_right hn

/-- 00_scope R8: a legal MAX_CODE_LEN is at least 1. -/
theorem one_le_maxCodeLen_of_legal {p : Params} (h : p.legal = true) : 1 ≤ p.maxCodeLen := by
  simp only [Params.legal, Bool.and_eq_true, decide_eq_true_eq] at h
  obtain ⟨-, hmax, -⟩ := h
  exact hmax

/-- Copies of one symbol that fit OUT at one bit each fit: the symbol's length is 1. -/
theorem runFits_replicate {s : State} {x : Sym} (hlegal : s.params.legal = true) (h0 : s.inLen ≠ 0)
    (hin : ∀ j, j < s.inLen.toNat → s.inBuf.read j = some x) (hcap : s.inLen.toNat ≤ 8 * s.params.outCap) :
    ∃ leaves, RunFits s (List.replicate s.inLen.toNat x) leaves ∧ (lengthsOf leaves).get x = 1 := by
  have hs := input_eq_replicate hin
  obtain ⟨leaves, htree⟩ := exists_treeLeaves_frequencies (input_length_lt hs) (input_ne_nil h0 hs)
  have hn : s.inLen.toNat ≠ 0 := fun h => h0 (BitVec.eq_of_toNat_eq h)
  have hcounted := countedSyms_frequencies_replicate hn s.inLen.isLt x
  have hone : (lengthsOf leaves).get x = 1 :=
    htree.length_eq_one (by rw [hcounted]; rfl) (mem_countedSyms.1 (by simp [hcounted]))
  refine ⟨leaves, ⟨h0, hs, htree, fun y hy => ?_, ?_⟩, hone⟩
  · rw [List.eq_of_mem_replicate hy, hone]
    exact one_le_maxCodeLen_of_legal hlegal
  · simpa [hone] using hcap

/-- Settles O52: the single symbol's code is "0", so the stream is n zeros. -/
theorem runOnOneSymbol : Obligations.RunOnOneSymbol := by
  intro s x hlegal h0 hin hcap
  obtain ⟨leaves, hfits, hone⟩ := runFits_replicate hlegal h0 hin (by omega)
  obtain ⟨code, hc, hrun⟩ := hfits.exec_run
  have hn : s.inLen.toNat ≠ 0 := fun h => h0 (BitVec.eq_of_toNat_eq h)
  have honly : ∀ y, (lengthsOf leaves).get y ≠ 0 ↔ y = x := fun y =>
    (hfits.length_ne_zero_iff y).trans (List.mem_replicate.trans (and_iff_right hn))
  have hzero : code.get x = 0 := canonicalAssign_single hc honly
  have hbits := bitstream_replicate (codeword_zero hone hzero) s.inLen.toNat
  have hlen : (bitstream (lengthsOf leaves) code (List.replicate s.inLen.toNat x)).length = s.inLen.toNat := by
    rw [hbits, List.length_replicate]
  have hcount : ∀ y, ((frequencies (List.replicate s.inLen.toNat x)).get y).toNat =
      (List.replicate s.inLen.toNat x).count y := frequencies_toNat (input_length_lt hfits.input)
  have houtLen := (hfits.outLen_eq hlegal code).trans (congrArg byteCount hlen)
  refine ⟨_, hrun, rfl, rfl, rfl, rfl, BitVec.eq_of_toNat_eq ?_, hone, hone, hzero, fun y hy => ?_,
    BitVec.eq_of_toNat_eq ((hfits.bitCount_eq hlegal code).trans hlen), houtLen, fun b hb => ?_⟩
  · exact (hcount x).trans List.count_replicate_self
  · have hlength : (lengthsOf leaves).get y = 0 := not_not.1 fun hne => hy ((honly y).1 hne)
    obtain ⟨-, hcode, -⟩ := canonicalAssign_eq_some hc
    refine ⟨BitVec.eq_of_toNat_eq ((hcount y).trans ?_), hlength, hlength, hcode y hlength⟩
    exact List.count_eq_zero.2 fun hm => hy (List.eq_of_mem_replicate hm)
  · rw [State.completed_outLen, houtLen] at hb
    rw [State.completed_outBuf, runCommitted_outBuf_read, hlen, if_pos hb, hbits]
    exact packedBytes_replicate_false hb

end Sys2Proof.Machine
end

section
/-! PROOFS of the family 42_huffman_tree_builder: BUILD is the greedy procedure, the shape of its tree, the tie-break,
and EXTRACT's errors and lengths. -/

namespace Sys2Proof.Machine

/-! ### The order of Q (00_scope R15, 42 R143) -/

theorem Node.keyLt_irrefl (x : Node) : ¬x.keyLt x := by
  simp [Node.keyLt]

/-- Of two nodes with different MIN_SYM exactly one has the smaller key. -/
theorem Node.keyLt_trichotomy {x y : Node} (h : x.minSym ≠ y.minSym) :
    (x.keyLt y ∧ ¬y.keyLt x) ∨ (y.keyLt x ∧ ¬x.keyLt y) := by
  by_cases hxy : x.keyLt y
  · exact .inl ⟨hxy, fun hyx => x.keyLt_irrefl (Node.keyLt_trans hxy hyx)⟩
  · exact .inr ⟨Node.keyLt_total hxy h, hxy⟩

/-- Two entries of Q with one MIN_SYM are one entry. -/
theorem LoopInv.minSym_ne {syms : List Sym} {total : Nat} {nodes : List Node} {q : List QEntry}
    (h : LoopInv syms total nodes q) {a b : QEntry} (ha : a ∈ q) (hb : b ∈ q) (hne : a ≠ b) :
    a.2.minSym ≠ b.2.minSym :=
  fun he => hne (List.inj_on_of_nodup_map h.mins_nodup ha hb he)

/-- The loop invariant holds after any number of turns from the leaves of step 1 (42 R141). -/
theorem loopInv_after (freq : Table (BitVec 32)) (turns : Nat) :
    LoopInv (countedSyms freq) (totalCount freq)
      (buildLoop turns (leafNodes freq) (withIndex 0 (leafNodes freq))).1
      (buildLoop turns (leafNodes freq) (withIndex 0 (leafNodes freq))).2 :=
  (LoopInv.start freq).turns (countedSyms_length_le freq) (totalCount_lt freq) turns

/-! ### BUILD's arena (42 R141) -/

section Arena

variable {freq : Table (BitVec 32)} {i d : Nat} {n : Node}

/-- Step 1: the node at the index of a counted symbol is its Leaf. -/
theorem treeNodes_leafOf (h : countedSyms freq ≠ []) {x : Sym} (hx : (countedSyms freq)[i]? = some x) :
    (treeNodes freq)[i]? = some (Node.leafOf freq x) := by
  obtain ⟨-, -, -, more, hnodes, -⟩ := buildTree_inv h
  rw [hnodes]
  exact getElem?_append_of_some (by rw [leafNodes, List.getElem?_map, hx]; rfl)

/-- Step 3: every node from index k on is Internal. -/
theorem treeNodes_kind_internal (h : countedSyms freq ≠ []) (hi : (countedSyms freq).length ≤ i)
    (hn : (treeNodes freq)[i]? = some n) : n.kind = .internal := by
  obtain ⟨-, -, -, more, hnodes, hmore⟩ := buildTree_inv h
  rw [hnodes, List.getElem?_append_right (by simpa [leafNodes] using hi)] at hn
  exact hmore n (List.mem_of_getElem? hn)

/-- An Internal node joins the least-keyed element of Q and the least of the others. -/
theorem treeNodes_mergesLeast (h : countedSyms freq ≠ []) (hn : (treeNodes freq)[i]? = some n)
    (hk : n.kind = .internal) : MergesLeast (treeNodes freq) i n := by
  obtain ⟨_, -, hinv, -⟩ := buildTree_inv h
  exact hinv.merges i n hn hk

/-- 42 R142: a child stands at a smaller index than its parent. -/
theorem treeNodes_child_lt (h : countedSyms freq ≠ []) {p : Nat} (hc : IsChild (treeNodes freq) p i) : i < p := by
  obtain ⟨_, -, hinv, -⟩ := buildTree_inv h
  exact isChild_lt hinv.ok hc

/-- Each level down the tree is at least one arena index down. -/
theorem treeNodes_add_depth_le (h : countedSyms freq ≠ []) {r : Nat} (hd : AtDepth (treeNodes freq) r i d) :
    i + d ≤ r := by
  induction hd with
  | root => exact Nat.le_refl r
  | left _ hn hk ih =>
    have := treeNodes_child_lt h ⟨_, hn, hk, .inl rfl⟩
    omega
  | right _ hn hk ih =>
    have := treeNodes_child_lt h ⟨_, hn, hk, .inr rfl⟩
    omega

/-- Only the root stands at depth 0, so the length of a leaf is its depth, or 1 if that is 0 (42 R145). -/
theorem treeNodes_length_eq_max (h : countedSyms freq ≠ []) {r : Nat} (hd : AtDepth (treeNodes freq) r i d) :
    (if i = r then 1 else d) = max d 1 := by
  have hle := treeNodes_add_depth_le h hd
  split_ifs with hi
  · omega
  · cases hd with
    | root => exact absurd rfl hi
    | left | right => omega

end Arena

/-! ### BUILD (42 R140) -/

theorem exec_build_uncounted {s : State} (h : ∀ x, s.freq.get x = 0) : exec .build s = .next (s.completed 1 0x03) := by
  rw [exec_eq_complete, stageOf, buildStage, if_pos (countedSyms_eq_nil.2 h)]
  rfl

theorem exec_build_counted {s : State} (h : countedSyms s.freq ≠ []) :
    exec .build s = .next ((built s).completed 0 0) := by
  rw [exec_eq_complete, stageOf, buildStage, if_neg h]
  rfl

theorem countedSyms_ne_nil {freq : Table (BitVec 32)} (h : ∃ x, freq.get x ≠ 0) : countedSyms freq ≠ [] :=
  fun hnil => h.elim fun x hx => hx (countedSyms_eq_nil.1 hnil x)

/-- Settles O36: the arena is the leaves and then the joins the loop invariant records; the root is its last node. -/
theorem buildIsTheGreedyProcedure : Obligations.BuildIsTheGreedyProcedure := by
  refine ⟨rfl, fun s => ⟨exec_build_uncounted, fun hx => ?_⟩⟩
  have hne := countedSyms_ne_nil hx
  refine ⟨treeNodes s.freq, countedSyms s.freq, countedSyms_eq s.freq, ?_, treeNodes_length hne,
    fun _ _ => treeNodes_leafOf hne, fun m n hm hn => ?_⟩
  · rw [exec_build_counted hne, built, treeRoot_eq hne]
    rfl
  · have hk := treeNodes_kind_internal hne hm hn
    obtain ⟨-, -, -, hchildren⟩ := treeNodes_internal hne hn hk
    exact ⟨hk, treeNodes_mergesLeast hne hn hk, hchildren⟩

/-- Settles O37: the live nodes are the arena of BuildTree, whose last node is the root. -/
theorem buildResultShape : Obligations.BuildResultShape := by
  intro s t hx hb
  have hne := countedSyms_ne_nil hx
  obtain rfl := exec_build_of_counted hne hb
  have hlen := treeNodes_length hne
  have hroot := treeRoot_eq hne
  have hchild : ∀ {p i : Nat}, p < (treeNodes s.freq).length →
      (IsChild (built s).node p i ↔ IsChild (treeNodes s.freq) p i) := isChild_append
  rw [← countedSyms_eq, State.completed_nodeCount, State.completed_root, State.completed_node, built_nodeCount hne,
    built_root hne]
  refine ⟨hlen, by omega, fun m n hm hn hk => ?_, fun i hi hir => ?_, fun p hp hc => ?_⟩
  · rw [built, List.getElem?_append_left hm] at hn
    obtain ⟨-, hleft, hright, -⟩ := treeNodes_internal hne hn hk
    exact ⟨hleft, hright⟩
  · obtain ⟨p, hp, hone⟩ := treeNodes_one_parent hne hi hir
    have hlt := isChild_length hp
    exact ⟨p, hlt, (hchild hlt).2 hp, fun p' hp' hc => hone p' ((hchild hp').1 hc)⟩
  · have := treeNodes_child_lt hne ((hchild hp).1 hc)
    omega

/-- Settles O38: Q keeps its MIN_SYM distinct at every turn, and BUILD reads nothing but FREQ. -/
theorem tieBreakIsTotal : Obligations.TieBreakIsTotal := by
  refine ⟨fun freq turns leaves q hleaves hq => ?_, fun s s' t t' hf hb hb' => ?_⟩
  · rw [← countedSyms_eq] at hleaves
    subst hleaves hq
    have hinv := loopInv_after freq turns
    exact ⟨List.pairwise_map.1 hinv.mins_nodup,
      fun a ha b hb hne => Node.keyLt_trichotomy (hinv.minSym_ne ha hb hne)⟩
  · by_cases hne : countedSyms s.freq = []
    · have h0 := countedSyms_eq_nil.1 hne
      cases (exec_build_uncounted h0).symm.trans hb
      cases (exec_build_uncounted (hf ▸ h0)).symm.trans hb'
      exact ⟨rfl, fun h => absurd h (by simp)⟩
    · have hne' : countedSyms s'.freq ≠ [] := hf ▸ hne
      obtain rfl := exec_build_of_counted hne hb
      obtain rfl := exec_build_of_counted hne' hb'
      have hlive : (built s').liveNodes = (built s).liveNodes := by
        rw [built_liveNodes hne', built_liveNodes hne, hf]
      exact ⟨rfl, fun _ => ⟨by simp [built, hf], by simp [built, hf], hlive⟩⟩

/-! ### EXTRACT (42 R144 – R146) -/

theorem exec_extract_no_tree {s : State} (h : s.nodeCount = 0) : exec .extract s = .next (s.completed 2 0x04) := by
  rw [exec_eq_complete, stageOf, extractStage, if_pos h]
  rfl

/-- With a tree, EXTRACT ends by whether some depth exceeds MAX_CODE_LEN. -/
theorem exec_extract_of_leaves {s : State} {leaves : List (Sym × Nat)} (hc : s.nodeCount ≠ 0)
    (hl : leafDepths s.liveNodes s.root.toNat = some leaves) :
    ((∃ x, s.params.maxCodeLen < (depthTable leaves).get x) → exec .extract s = .next (s.completed 3 0x04)) ∧
    ((∀ x, (depthTable leaves).get x ≤ s.params.maxCodeLen) →
      exec .extract s = .next ((extracted s leaves).completed 0 0)) := by
  rw [exec_eq_complete, stageOf]
  rcases extractStage_cases s with ⟨h0, -⟩ | ⟨-, hn, -⟩ | ⟨-, leaves', hl', hx⟩
  · exact absurd h0 hc
  · exact absurd (hn.symm.trans hl) (by simp)
  obtain rfl : leaves' = leaves := Option.some.inj (hl'.symm.trans hl)
  rcases hx with ⟨⟨x, hover⟩, he⟩ | ⟨hfits, he⟩
  · rw [he]
    exact ⟨fun _ => rfl, fun hfits => absurd (hfits x) (Nat.not_le.2 hover)⟩
  · rw [he]
    exact ⟨fun ⟨x, hover⟩ => absurd (hfits x) (Nat.not_le.2 hover), fun _ => rfl⟩

/-- The tree of a state is the one BuildTree makes of some counts, and the traversal answers on it. -/
theorem TreeInv.treeLeaves {s : State} (h : TreeInv s) (hc : s.nodeCount ≠ 0) :
    ∃ freq leaves, TreeLeaves freq leaves ∧ s.liveNodes = treeNodes freq ∧ s.root.toNat = treeRoot freq := by
  obtain ⟨freq, leaves, hne, hlive, hroot, hl, -⟩ := leafDepths_of_treeInv h hc
  rw [hlive, hroot] at hl
  exact ⟨freq, leaves, ⟨hne, hl⟩, hlive, hroot⟩

section Leaves

variable {freq : Table (BitVec 32)} {leaves : List (Sym × Nat)} {i d : Nat} {n : Node}

/-- The traversal lists each Leaf with its depth, the single leaf with 1. -/
theorem TreeLeaves.mem_of_atDepth (h : TreeLeaves freq leaves) (hd : AtDepth (treeNodes freq) (treeRoot freq) i d)
    (hn : (treeNodes freq)[i]? = some n) (hk : n.kind = .leaf) :
    (n.minSym, if i = treeRoot freq then 1 else d) ∈ leaves :=
  (mem_leafDepths h.counted h.answer).1 i n d hd hn hk

/-- A bound of at least 1 on the depth of every Leaf bounds the lengths the traversal lists. -/
theorem TreeLeaves.depthTable_le (h : TreeLeaves freq leaves) {bound : Nat} (hpos : 1 ≤ bound)
    (hb : ∀ (i : Nat) (n : Node) (d : Nat), AtDepth (treeNodes freq) (treeRoot freq) i d →
      (treeNodes freq)[i]? = some n → n.kind = .leaf → d ≤ bound) (x : Sym) : (depthTable leaves).get x ≤ bound := by
  refine Machine.depthTable_le h.nodup (fun e he => ?_) x
  obtain ⟨i, n, d, hd, hn, hk, -, hlen⟩ := (mem_leafDepths h.counted h.answer).2 e he
  rw [hlen]
  split_ifs
  · exact hpos
  · exact hb i n d hd hn hk

/-- A symbol without a Leaf is not listed, so its length is 0. -/
theorem TreeLeaves.length_eq_zero (h : TreeLeaves freq leaves) {x : Sym}
    (hx : ∀ (i : Nat) (n : Node), (treeNodes freq)[i]? = some n → n.kind = .leaf → n.minSym ≠ x) :
    (lengthsOf leaves).get x = 0 := by
  refine lengthsOf_of_not_mem fun hm => ?_
  obtain ⟨e, he, rfl⟩ := List.mem_map.1 hm
  obtain ⟨i, n, -, -, hn, hk, hsym, -⟩ := (mem_leafDepths h.counted h.answer).2 e he
  exact hx i n hn hk hsym

end Leaves

/-- Settles O40: the traversal lists the deep leaf, so some entry of the depth table exceeds MAX_CODE_LEN. -/
theorem extractErrors : Obligations.ExtractErrors := by
  refine fun s hs => ⟨exec_extract_no_tree, fun i n d hc hd hn hk hover => ?_⟩
  obtain ⟨freq, leaves, htree, hlive, hroot⟩ := hs.treeLeaves hc
  have hanswer : leafDepths s.liveNodes s.root.toNat = some leaves := by rw [hlive, hroot, htree.answer]
  rw [hlive, hroot] at hd
  rw [hlive] at hn
  have hlen : (depthTable leaves).get n.minSym = max d 1 := by
    rw [depthTable_of_mem htree.nodup (htree.mem_of_atDepth hd hn hk), treeNodes_length_eq_max htree.counted hd]
  exact (exec_extract_of_leaves hc hanswer).1 ⟨n.minSym, hlen ▸ hover⟩

/-- Settles O41: no depth exceeds MAX_CODE_LEN, so EXTRACT commits the lengths the traversal lists. -/
theorem extractGivesDepths : Obligations.ExtractGivesDepths := by
  intro s hs hc hpos hfits
  obtain ⟨freq, leaves, htree, hlive, hroot⟩ := hs.treeLeaves hc
  have hanswer : leafDepths s.liveNodes s.root.toNat = some leaves := by rw [hlive, hroot, htree.answer]
  have hexec := (exec_extract_of_leaves hc hanswer).2
  rw [hlive, hroot] at hfits ⊢
  refine ⟨lengthsOf leaves, hexec (htree.depthTable_le hpos hfits), fun i n d hd hn hk => ?_,
    fun x => htree.length_eq_zero⟩
  have hmem := htree.mem_of_atDepth hd hn hk
  exact lengthsOf_of_mem htree.nodup hmem (htree.bounds _ hmem).2

end Sys2Proof.Machine
end

section
/-! PROOFS of the family 43_canonical_code_assigner: how ASSIGN ends, the codes it gives, and ASSIGN after EXTRACT. -/

namespace Sys2Proof.Machine

/-! ### The errors of ASSIGN (43 R173, 60_exceptions R214) -/

/-- Kraft's sum of a table without a length is the empty sum. -/
theorem kraftSum_eq_zero {len : Table (BitVec 8)} (h : ∀ x, len.get x = 0) : kraftSum len = 0 := by
  rw [kraftSum_sorted, sortedSymbols_eq_nil.2 h]
  rfl

/-- Settles O43: an empty table neither exceeds MAX_CODE_LEN nor is oversubscribed, so the ends of the stage exclude
each other. -/
theorem assignErrors : Obligations.AssignErrors := by
  intro s
  rw [exec_eq_complete, stageOf]
  rcases assignStage_cases s with ⟨hzero, he⟩ | ⟨⟨y, hy⟩, ⟨z, hz⟩, he⟩ | ⟨⟨y, hy⟩, hfits, -, he⟩ |
    ⟨⟨y, hy⟩, hfits, hle, -⟩
  · refine ⟨fun _ => by rw [he]; rfl, fun ⟨x, hx⟩ => ?_, fun _ hk => ?_⟩
    · rw [hzero x] at hx
      exact absurd hx (Nat.not_lt_zero _)
    · rw [kraftSum_eq_zero hzero] at hk
      exact absurd hk (by norm_num)
  · exact ⟨fun h => absurd (h y) hy, fun _ => by rw [he]; rfl, fun h => absurd hz (Nat.not_lt.2 (h z))⟩
  · exact ⟨fun h => absurd (h y) hy, fun ⟨x, hx⟩ => absurd hx (Nat.not_lt.2 (hfits x)), fun _ _ => by rw [he]; rfl⟩
  · exact ⟨fun h => absurd (h y) hy, fun ⟨x, hx⟩ => absurd hx (Nat.not_lt.2 (hfits x)),
      fun _ hk => absurd hk (not_lt.2 hle)⟩

/-! ### ASSIGN on a table it accepts (43 R172) -/

/-- A nonempty table that fits and is not oversubscribed has canonical codes, and ASSIGN commits them. -/
theorem exec_assign_of_accepted {s : State} (hne : ∃ x, s.len.get x ≠ 0)
    (hfits : ∀ x, (s.len.get x).toNat ≤ s.params.maxCodeLen) (hk : kraftSum s.len ≤ 1) :
    ∃ code, canonicalAssign s.len (sortedSymbols s.len) = some (s.len, code) ∧
      exec .assign s = .next (({ s with clen := s.len, code := code } : State).completed 0 0) := by
  obtain ⟨y, hy⟩ := hne
  rcases assignStage_cases s with ⟨hzero, -⟩ | ⟨-, ⟨x, hx⟩, -⟩ | ⟨-, -, hover, -⟩ | ⟨-, -, -, clen, code, hc, he⟩
  · exact absurd (hzero y) hy
  · exact absurd hx (Nat.not_lt.2 (hfits x))
  · exact absurd hover (not_lt.2 hk)
  · obtain ⟨rfl, -⟩ := canonicalAssign_eq_some hc
    exact ⟨code, hc, by rw [exec_eq_complete, stageOf, he]; rfl⟩

/-- An ASSIGN that ends without an error leaves the canonical tables of LEN. -/
theorem exec_assign_success {s t : State} (h : exec .assign s = .next t) (h0 : t.errCode = 0) :
    canonicalAssign s.len (sortedSymbols s.len) = some (t.clen, t.code) := by
  obtain ⟨u, hu, rfl⟩ := stageOf_committed h h0
  rcases assignStage_cases s with ⟨-, he⟩ | ⟨-, -, he⟩ | ⟨-, -, -, he⟩ | ⟨-, -, -, _, _, hc, he⟩
  all_goals cases he.symm.trans hu
  exact hc

/-! ### The symbols before one (43 R171) -/

/-- `y` comes strictly before `x` in the order `(length, symbol)`. -/
theorem not_lengthLe_iff {len : Table (BitVec 8)} {x y : Sym} :
    ¬lengthLe len x y ↔ len.get y < len.get x ∨ (len.get y = len.get x ∧ y < x) := by
  unfold lengthLe
  simp only [BitVec.lt_def, BitVec.le_def, ← BitVec.toNat_inj]
  omega

theorem lengthLe_antisymm {len : Table (BitVec 8)} {x y : Sym} (hxy : lengthLe len x y) (hyx : lengthLe len y x) :
    x = y := by
  unfold lengthLe at hxy hyx
  simp only [BitVec.lt_def, BitVec.le_def, ← BitVec.toNat_inj] at hxy hyx ⊢
  omega

/-- What stands before a symbol in the sorted list is what comes before it in the order `(length, symbol)`. -/
theorem mem_before_iff {len : Table (BitVec 8)} {pre post : List Sym} {x : Sym}
    (hS : sortedSymbols len = pre ++ x :: post) (y : Sym) :
    y ∈ pre ↔ len.get y ≠ 0 ∧ ¬lengthLe len x y := by
  have hsorted := sortedSymbols_sorted len
  have hnodup := nodup_sortedSymbols len
  rw [hS] at hsorted hnodup
  obtain ⟨-, hafter, hbefore⟩ := List.pairwise_append.1 hsorted
  have hle : ∀ z ∈ post, lengthLe len x z := (List.pairwise_cons.1 hafter).1
  have hmem : len.get y ≠ 0 ↔ y ∈ pre ∨ y = x ∨ y ∈ post := by
    rw [← mem_sortedSymbols, hS, List.mem_append, List.mem_cons]
  rw [hmem]
  refine ⟨fun hy => ⟨.inl hy, fun hxy => ?_⟩, ?_⟩
  · have hyx : lengthLe len y x := hbefore y hy x List.mem_cons_self
    exact (List.nodup_append.1 hnodup).2.2 y hy x List.mem_cons_self (lengthLe_antisymm hyx hxy)
  · rintro ⟨hy | rfl | hy, hnot⟩
    · exact hy
    · exact absurd ((lengthLe_total len y y).elim id id) hnot
    · exact absurd (hle y hy) hnot

/-- The list before a symbol, in whatever order, is all symbols that come before it (43 R172). -/
theorem before_perm {len : Table (BitVec 8)} {pre post : List Sym} {x : Sym}
    (hS : sortedSymbols len = pre ++ x :: post) :
    pre.Perm (allSyms.filter fun y => decide (len.get y ≠ 0 ∧
      (len.get y < len.get x ∨ (len.get y = len.get x ∧ y < x)))) := by
  have hnodup : pre.Nodup := (List.nodup_append.1 (hS ▸ nodup_sortedSymbols len)).1
  refine (List.perm_ext_iff_of_nodup hnodup (nodup_allSyms.filter _)).2 fun y => ?_
  rw [mem_before_iff hS, not_lengthLe_iff]
  simp

/-- Settles O44: `canonicalAssign_eq_some` gives each code by the symbols listed before its symbol, which are those
that come before it. -/
theorem assignGivesCanonicalCodes : Obligations.AssignGivesCanonicalCodes := by
  intro s hne hfits hk
  obtain ⟨code, hc, hexec⟩ := exec_assign_of_accepted hne hfits hk
  obtain ⟨-, hzero, -, -, hval⟩ := canonicalAssign_eq_some hc
  refine ⟨s.len, code, hexec, fun _ => rfl, hzero, fun x hx => ?_⟩
  obtain ⟨pre, post, hS⟩ := List.append_of_mem (mem_sortedSymbols.2 hx)
  rw [hval pre x post hS, ((before_perm hS).map _).sum_eq]

/-! ### The laws of the codes (43 R177) -/

/-- Settles O45: the tables ASSIGN leaves are canonical, and canonical codes are prefix-free. -/
theorem assignedCodesArePrefixFree : Obligations.AssignedCodesArePrefixFree :=
  fun _ _ h h0 => canonicalAssign_prefixFree (exec_assign_success h h0)

/-- Settles O46: the code of the later symbol leaves room for every extension of the earlier one. -/
theorem canonicalCodesIncrease : Obligations.CanonicalCodesIncrease := by
  intro s t x y h h0 hx hy hlt
  have hc := exec_assign_success h h0
  exact ⟨canonicalAssign_code_lt hc hx hy hlt, canonicalAssign_gap hc hx hy hlt⟩

/-! ### ASSIGN after EXTRACT (43 R175) -/

/-- An EXTRACT that ends without an error found a tree of BUILD's, no leaf of it too deep. -/
theorem exec_extract_treeLeaves {s t : State} (hs : TreeInv s) (h : exec .extract s = .next t) (h0 : t.errCode = 0) :
    ∃ freq leaves, TreeLeaves freq leaves ∧ t.len = lengthsOf leaves ∧
      ∀ x, (depthTable leaves).get x ≤ t.params.maxCodeLen := by
  obtain ⟨u, hu, rfl⟩ := stageOf_committed h h0
  rcases extractStage_cases s with ⟨-, he⟩ | ⟨-, -, he⟩ | ⟨hc, leaves, hl, ⟨-, he⟩ | ⟨hfits, he⟩⟩
  all_goals cases he.symm.trans hu
  obtain ⟨freq, leaves', htree, hlive, hroot⟩ := hs.treeLeaves hc
  rw [hlive, hroot] at hl
  obtain rfl : leaves' = leaves := Option.some.inj (htree.answer.symm.trans hl)
  exact ⟨freq, leaves', htree, rfl, hfits⟩

/-- Narrowing to 8 bits never makes a length longer than its depth. -/
theorem lengthsOf_le_depthTable (leaves : List (Sym × Nat)) (x : Sym) :
    ((lengthsOf leaves).get x).toNat ≤ (depthTable leaves).get x := by
  rw [lengthsOf, Table.get_mapEntries, BitVec.toNat_ofNat]
  exact Nat.mod_le _ _

/-- The tree of BUILD has a counted symbol, which has a length. -/
theorem TreeLeaves.exists_length {freq : Table (BitVec 32)} {leaves : List (Sym × Nat)} (h : TreeLeaves freq leaves) :
    ∃ x, (lengthsOf leaves).get x ≠ 0 := by
  obtain ⟨x, hx⟩ := List.exists_mem_of_ne_nil _ h.counted
  exact ⟨x, (h.length_ne_zero_iff x).2 (mem_countedSyms.1 hx)⟩

/-- Settles O47: the lengths of BUILD's tree are a nonempty table that fits, with Kraft's sum at most 1. -/
theorem assignAfterExtractSucceeds : Obligations.AssignAfterExtractSucceeds := by
  intro s t v hs he h0 hlen hparams
  obtain ⟨freq, leaves, htree, htlen, hfits⟩ := exec_extract_treeLeaves hs he h0
  have hv : v.len = lengthsOf leaves := hlen.trans htlen
  have hbound : ∀ x, (v.len.get x).toNat ≤ v.params.maxCodeLen := fun x => by
    rw [hv, hparams]
    exact (lengthsOf_le_depthTable leaves x).trans (hfits x)
  obtain ⟨code, -, hexec⟩ := exec_assign_of_accepted (s := v) (hv ▸ htree.exists_length) hbound
    (hv ▸ kraftSum_lengthsOf_le htree.counted htree.answer)
  refine ⟨_, hexec, rfl, fun x hx => ⟨rfl, ?_⟩⟩
  exact Nat.one_le_iff_ne_zero.2 fun hz => hx (BitVec.eq_of_toNat_eq hz)

end Sys2Proof.Machine
end

section
/-! PROOFS of the family 44_bitstream_packer: what ENCODE packs, how it ends, and that its stream decodes. -/

namespace Sys2Proof.Machine

/-! ### The ends of ENCODE (44 R190, 60_exceptions R214) -/

section Input

variable {s : State} {syms : List Sym}

/-- How the stage ends on an input that was written. -/
theorem encodeStage_of_input (hs : s.input = some syms) :
    (∃ x ∈ syms, s.clen.get x = 0) ∧ encodeStage s = .error s .noCode 0x06 ∨
    (∀ x ∈ syms, s.clen.get x ≠ 0) ∧
      (s.params.outCap < byteCount (bitstream s.clen s.code syms).length ∧
        encodeStage s = .error s .outOverflow 0x06 ∨
       byteCount (bitstream s.clen s.code syms).length ≤ s.params.outCap ∧
        encodeStage s = .committed (encoded s (bitstream s.clen s.code syms))) := by
  rcases encodeStage_cases s with ⟨hn, -⟩ | ⟨syms', hs', hend⟩
  · exact absurd (hs.symm.trans hn) (by simp)
  · obtain rfl : syms = syms' := Option.some.inj (hs.symm.trans hs')
    exact hend

/-- ENCODE of an input whose symbols have codes and whose codewords fit OUT. -/
theorem exec_encode_of_fits (hs : s.input = some syms) (hcoded : ∀ x ∈ syms, s.clen.get x ≠ 0)
    (hfits : byteCount (bitstream s.clen s.code syms).length ≤ s.params.outCap) :
    exec .encode s = .next ((encoded s (bitstream s.clen s.code syms)).completed 0 0) := by
  rcases encodeStage_of_input hs with ⟨⟨x, hx, h0⟩, -⟩ | ⟨-, ⟨hover, -⟩ | ⟨-, he⟩⟩
  · exact absurd h0 (hcoded x hx)
  · exact absurd hfits (Nat.not_le.2 hover)
  · rw [exec_eq_complete, stageOf, he]
    rfl

/-- NO_CODE comes before OUT_OVERFLOW, so the size of the stream does not matter. -/
theorem exec_encode_of_uncoded (hs : s.input = some syms) (hx : ∃ x ∈ syms, s.clen.get x = 0) :
    exec .encode s = .next (s.completed 5 0x06) := by
  rcases encodeStage_of_input hs with ⟨-, he⟩ | ⟨hcoded, -⟩
  · rw [exec_eq_complete, stageOf, he]
    rfl
  · obtain ⟨x, hx, h0⟩ := hx
    exact absurd h0 (hcoded x hx)

theorem exec_encode_of_overflow (hs : s.input = some syms) (hcoded : ∀ x ∈ syms, s.clen.get x ≠ 0)
    (hover : s.params.outCap < byteCount (bitstream s.clen s.code syms).length) :
    exec .encode s = .next (s.completed 6 0x06) := by
  rcases encodeStage_of_input hs with ⟨⟨x, hx, h0⟩, -⟩ | ⟨-, ⟨-, he⟩ | ⟨hfits, -⟩⟩
  · exact absurd h0 (hcoded x hx)
  · rw [exec_eq_complete, stageOf, he]
    rfl
  · exact absurd hfits (Nat.not_le.2 hover)

end Input

/-- `⌈t / 8⌉` exceeds a capacity exactly when the bits do. -/
theorem lt_byteCount_iff {cap t : Nat} : cap < byteCount t ↔ 8 * cap < t := by
  unfold byteCount
  omega

/-! ### What ENCODE leaves in OUT (44 R192, R193) -/

/-- A host reads back the bits of the stream, and zeros up to a whole byte. -/
theorem streamBit_writeFrom (m : Memory) (bits : List Bool) {j : Nat} (hj : j < 8 * byteCount bits.length) :
    streamBit (m.writeFrom 0 (packedBytes bits)) j = some (bits.getD j false) := by
  have hb : j / 8 < byteCount bits.length := by omega
  have hbyte : (packedBytes bits)[j / 8]? = some (packByte (padded bits) (j / 8)) := by
    rw [packedBytes, List.getElem?_map, List.getElem?_range hb, Option.map_some]
  have hbit : (packByte (padded bits) (j / 8)).getLsbD (7 - j % 8) = bits.getD j false := by
    rw [packByte_getLsbD _ _ _ (Nat.mod_lt _ (by norm_num)), padded_getD, Nat.div_add_mod]
  rw [streamBit, Memory.read_writeFrom, if_pos (by simpa using hb), Nat.sub_zero, hbyte, Option.map_some, hbit]

/-- OUT above the packed bytes keeps its contents. -/
theorem read_writeFrom_packedBytes_above (m : Memory) (bits : List Bool) {b : Nat} (hb : byteCount bits.length ≤ b) :
    (m.writeFrom 0 (packedBytes bits)).read b = m.read b := by
  rw [Memory.read_writeFrom, packedBytes_length, if_neg (by omega)]

/-- A stream that fits a legal OUT_CAP does not overflow BITCOUNT or OUT_LEN. -/
theorem encoded_counts {s : State} {bits : List Bool} (hlegal : s.params.legal = true)
    (hfits : byteCount bits.length ≤ s.params.outCap) :
    (encoded s bits).bitCount.toNat = bits.length ∧ (encoded s bits).outLen.toNat = byteCount bits.length := by
  have hcap := outCap_le_of_legal hlegal
  have hbits : bits.length ≤ 8 * s.params.outCap := Nat.not_lt.1 fun h => Nat.not_lt.2 hfits (lt_byteCount_iff.2 h)
  rw [encoded, BitVec.toNat_ofNat, BitVec.toNat_ofNat, Nat.mod_eq_of_lt (by omega), Nat.mod_eq_of_lt (by omega)]
  exact ⟨rfl, rfl⟩

/-- Settles O48: the stream the statement writes out is `bitstream`, and ENCODE commits it packed. -/
theorem encodePacksTheCodewords : Obligations.EncodePacksTheCodewords := by
  intro s syms bits hlegal hlen hin hcoded hbits hfits
  obtain rfl : bits = bitstream s.clen s.code syms := hbits
  obtain ⟨hcount, houtLen⟩ := encoded_counts hlegal hfits
  exact ⟨_, _, _, exec_encode_of_fits (input_eq_some.2 ⟨hlen, hin⟩) hcoded hfits, hcount, houtLen,
    fun _ => streamBit_writeFrom _ _, fun _ => read_writeFrom_packedBytes_above _ _⟩

/-- 44 R195: the empty stream packs to no byte, so OUT is kept. -/
theorem encoded_nil (s : State) : encoded s [] = { s with bitCount := 0, outLen := 0 } := by
  simp [encoded, packedBytes, byteCount, Memory.writeFrom]

/-- Settles O49: the empty input packs to nothing, and an error commits nothing. -/
theorem encodeErrors : Obligations.EncodeErrors := by
  refine ⟨fun s h0 => ?_, fun s syms hlen hin => ?_⟩
  · have hs : s.input = some [] := input_eq_some.2 (by simp [h0])
    have hstream : bitstream s.clen s.code [] = [] := rfl
    rw [exec_encode_of_fits hs (by simp) (by simp [hstream, byteCount]), hstream, encoded_nil]
    rfl
  · have hs : s.input = some syms := input_eq_some.2 ⟨hlen, hin⟩
    refine ⟨exec_encode_of_uncoded hs, fun hcoded hover => exec_encode_of_overflow hs hcoded ?_⟩
    rwa [lt_byteCount_iff, bitstream_length]

/-- Settles O50: the table of ASSIGN is prefix-free, and the stream of a prefix-free table decodes. -/
theorem encodedStreamDecodes : Obligations.EncodedStreamDecodes := by
  intro s t u w syms ha ha0 hclen hcode hlegal hlen hin he he0
  have hpf : PrefixFree u.clen u.code := by
    rw [hclen, hcode]
    exact canonicalAssign_prefixFree (exec_assign_success ha ha0)
  exact encode_decodes hlegal hpf (input_eq_some.2 ⟨hlen, hin⟩) he he0

end Sys2Proof.Machine
end

section
/-! PROOFS of the family 60_exceptions: what is refused, what faults, how CMD answers a word, the interrupt, and which
command can end with which error. -/

namespace Sys2Proof.Machine

/-! ### How a turn ends (00_scope R11, 60_exceptions R228, R229) -/

@[simp] theorem heldInReset_turns (s : State) : s.heldInReset.turns = s.turns := by
  unfold State.heldInReset
  split <;> rfl

@[simp] theorem heldInReset_hostOps (s : State) : s.heldInReset.hostOps = s.hostOps := by
  unfold State.heldInReset
  split <;> rfl

/-- A block held in reset is idle (70 R241). -/
theorem heldInReset_busy (s : State) : s.heldInReset.busy = (!s.rst && s.busy) := by
  cases hrst : s.rst with
  | false => simp [heldInReset_of_released hrst]
  | true => simp [heldInReset_of_asserted hrst]

theorem turns_nil_eq_self {s : State} (hturns : s.turns = []) : ({ s with turns := [] } : State) = s := by
  rw [← hturns]

/-- A turn is HOST's, a command of ENGINE, or one that always leads to a next state. -/
theorem takeTurn_cases (s : State) :
    ∃ later, s.takeTurn = hostTurn { s with turns := later } ∨
      (s.busy = true ∧ s.takeTurn = exec s.pending { s with turns := later }) ∨ ∃ t, s.takeTurn = .next t := by
  have hengine : ∀ later, s.takeTurn = engineTurn { s with turns := later } →
      (s.busy = true ∧ s.takeTurn = exec s.pending { s with turns := later }) ∨ ∃ t, s.takeTurn = .next t := by
    intro later h
    by_cases hbusy : s.busy = true
    · exact .inl ⟨hbusy, h.trans (if_pos hbusy)⟩
    · exact .inr ⟨_, h.trans (if_neg hbusy)⟩
  cases hturns : s.turns with
  | nil =>
    refine ⟨[], ?_⟩
    by_cases hbusy : s.busy = true
    · refine .inr (hengine [] ?_)
      rw [State.takeTurn, hturns, turns_nil_eq_self hturns]
      exact if_pos hbusy
    · refine .inl ?_
      rw [State.takeTurn, hturns, turns_nil_eq_self hturns]
      exact if_neg hbusy
  | cons turn later =>
    refine ⟨later, ?_⟩
    cases turn with
    | host => exact .inl (by rw [State.takeTurn, hturns])
    | engine => exact .inr (hengine later (by rw [State.takeTurn, hturns]))
    | assertRst | releaseRst => exact .inr (.inr ⟨_, by rw [State.takeTurn, hturns]⟩)

theorem hostTurn_cases (s : State) : (∃ t, hostTurn s = .next t) ∨ hostTurn s = .refused .subWordAccess := by
  unfold hostTurn
  split
  · exact .inl ⟨_, rfl⟩
  · split
    · exact .inl ⟨_, rfl⟩
    · exact .inr rfl

/-! ### The refusal (60_exceptions R229) -/

theorem hostTurn_subWord {s : State} {op : HostOp} {rest : List HostOp} (hops : s.hostOps = op :: rest)
    (hw : op.width ≠ 4) : hostTurn s = .refused .subWordAccess := by
  simp [hostTurn, hops, HostOp.wellFormed, hw]

/-- When HOST moves, it moves under `rst` as well, on the reset values (log 11). -/
theorem step_of_hostMoves_held {s : State} {later : List Turn} (h : HostMoves s later) :
    step s = hostTurn { s.heldInReset with turns := later } := by
  cases hrst : s.rst with
  | false => rw [step_of_hostMoves hrst h, heldInReset_of_released hrst]
  | true =>
    rw [step, State.scheduled, heldInReset_of_asserted hrst]
    rcases h with hturns | ⟨hturns, rfl, -⟩
    · rw [State.takeTurn, State.resetBlock_turns, hturns]
    · rw [State.takeTurn, turns_nil_eq_self (s := s.resetBlock) hturns, State.resetBlock_turns, hturns]
      rfl

/-- No command is refused: each has a meaning. -/
theorem exec_ne_refused (i : Instr) (s : State) (r : Refusal) : exec i s ≠ .refused r := by
  rw [exec_eq_complete]
  exact complete_ne_refused

theorem step_refused {s : State} {r : Refusal} (h : step s = .refused r) : r = .subWordAccess := by
  obtain ⟨later, hhost | ⟨-, hexec⟩ | ⟨t, hnext⟩⟩ := takeTurn_cases s.heldInReset
  · rcases hostTurn_cases { s.heldInReset with turns := later } with ⟨t, ht⟩ | hr
    · cases h.symm.trans (hhost.trans ht)
    · cases h.symm.trans (hhost.trans hr)
      rfl
  · exact absurd (hexec.symm.trans h) (exec_ne_refused _ _ r)
  · cases h.symm.trans hnext

/-- Settles O7: only HOST's check of the access width refuses. -/
theorem subWordAccessIsTheOnlyRefusal : Obligations.SubWordAccessIsTheOnlyRefusal := by
  refine ⟨fun s later op rest hmoves hops hw => ?_, fun _ _ => step_refused⟩
  rw [step_of_hostMoves_held hmoves]
  exact hostTurn_subWord ((heldInReset_hostOps s).trans hops) hw

/-! ### The fault (60_exceptions R228) -/

theorem exec_fault_iff {i : Instr} {s : State} {f : Fault} : exec i s = .fault f ↔ stageOf i s = .fault f := by
  rw [exec_eq_complete, complete_eq_fault]

/-- The commands that read IN fault on an input of which some entry was never written. -/
theorem stageOf_unwritten {s : State} (hn : s.input = none) {i : Instr} (hi : i = .count ∨ i = .encode ∨ i = .run) :
    stageOf i s = .fault .unwrittenInput := by
  have hne : s.inLen ≠ 0 := by
    intro h0
    obtain ⟨j, hj, -⟩ := input_eq_none.1 hn
    simp [h0] at hj
  rcases hi with rfl | rfl | rfl
  · rcases countStage_cases s with ⟨h0, -⟩ | ⟨-, -, he⟩ | ⟨-, _, hs, -⟩
    · exact absurd h0 hne
    · exact he
    · cases hn.symm.trans hs
  · rcases encodeStage_cases s with ⟨-, he⟩ | ⟨_, hs, -⟩
    · exact he
    · cases hn.symm.trans hs
  · rcases runStage_cases s with ⟨h0, -⟩ | ⟨-, -, he⟩ | ⟨-, _, hs, -⟩
    · exact absurd h0 hne
    · exact he
    · cases hn.symm.trans hs

/-- On a tree that BUILD made, no pseudocode faults for another reason. -/
theorem stageOf_fault {i : Instr} {s : State} {f : Fault} (htree : TreeInv s) (h : stageOf i s = .fault f) :
    (i = .count ∨ i = .encode ∨ i = .run) ∧ s.input = none := by
  have hn : s.input = none := by
    cases hs : s.input with
    | none => rfl
    | some syms => rcases stageOf_ends i htree hs with ⟨_, he⟩ | ⟨_, _, _, -, he⟩ <;> cases h.symm.trans he
  refine ⟨?_, hn⟩
  cases i with
  | count => exact .inl rfl
  | encode => exact .inr (.inl rfl)
  | run => exact .inr (.inr rfl)
  | clear => cases h
  | build => rcases buildStage_cases s with ⟨-, he⟩ | ⟨-, he⟩ <;> cases h.symm.trans he
  | extract =>
    rcases extractStage_cases s with ⟨-, he⟩ | ⟨hc, hnone, -⟩ | ⟨-, _, -, ⟨-, he⟩ | ⟨-, he⟩⟩
    · cases h.symm.trans he
    · obtain ⟨_, _, -, -, -, hl, -⟩ := leafDepths_of_treeInv htree hc
      cases hnone.symm.trans hl
    all_goals cases h.symm.trans he
  | assign =>
    rcases assignStage_cases s with ⟨-, he⟩ | ⟨-, -, he⟩ | ⟨-, -, -, he⟩ | ⟨-, -, -, _, _, -, he⟩
    all_goals cases h.symm.trans he

/-- A step faults only where ENGINE performs the pending command, with `rst` low. -/
theorem step_fault {s : State} {f : Fault} (h : step s = .fault f) :
    s.rst = false ∧ s.busy = true ∧ ∃ later, exec s.pending { s with turns := later } = .fault f := by
  obtain ⟨later, hhost | ⟨hbusy, hexec⟩ | ⟨t, hnext⟩⟩ := takeTurn_cases s.heldInReset
  · rcases hostTurn_cases { s.heldInReset with turns := later } with ⟨t, ht⟩ | hr
    · cases h.symm.trans (hhost.trans ht)
    · cases h.symm.trans (hhost.trans hr)
  · obtain ⟨hrst, hbusy⟩ : s.rst = false ∧ s.busy = true := by simpa [heldInReset_busy] using hbusy
    rw [heldInReset_of_released hrst] at hexec
    refine ⟨hrst, hbusy, later, hexec.symm.trans ?_⟩
    rw [← h, step, State.scheduled, heldInReset_of_released hrst]
  · cases h.symm.trans hnext

/-- Settles O8: only the reads of IN fault, and only on an entry never written. -/
theorem unwrittenInputIsTheOnlyFault : Obligations.UnwrittenInputIsTheOnlyFault := by
  refine ⟨fun s j hj hj' => ?_, fun s f htree h => ?_⟩
  · have hfault := fun i => stageOf_unwritten (i := i) (input_eq_none.2 ⟨j, hj, hj'⟩)
    exact ⟨exec_fault_iff.2 (hfault _ (.inl rfl)), exec_fault_iff.2 (hfault _ (.inr (.inl rfl))),
      exec_fault_iff.2 (hfault _ (.inr (.inr rfl)))⟩
  · obtain ⟨hrst, hbusy, later, hexec⟩ := step_fault h
    have htree' : TreeInv { s with turns := later } := ⟨htree.arena_le, htree.built, htree.no_tree⟩
    have hstage := exec_fault_iff.1 hexec
    obtain ⟨hpending, hn⟩ := stageOf_fault htree' hstage
    cases (stageOf_unwritten hn hpending).symm.trans hstage
    exact ⟨rfl, hrst, hbusy, hpending, input_eq_none.1 hn⟩

/-! ### A write to CMD (20_memory R70, 60_exceptions R216) -/

theorem memWrite_cmd {s : State} (hidle : s.busy = false) (v : Word) : s.memWrite 0x018 v = s.submitCommand v :=
  memWrite_reg (r := .cmd) rfl (.inl hidle) v

theorem memWrite_cmd_legal {s : State} {v : Word} {i : Instr} (hidle : s.busy = false) (hv : decode v = .ok i) :
    s.memWrite 0x018 v = s.accept i := by
  rw [memWrite_cmd hidle, State.submitCommand, hv]

theorem memWrite_cmd_illegal {s : State} {v : Word} (hidle : s.busy = false) (hv : ∀ i, decode v ≠ .ok i) :
    s.memWrite 0x018 v = s.rejectCommand v := by
  rw [memWrite_cmd hidle]
  rcases submitCommand_cases s v with ⟨i, hi, -⟩ | ⟨-, he⟩
  · exact absurd hi (hv i)
  · exact he

/-- Settles O20: the words R92 calls legal are those that decode, and the ENGINE turn after acceptance runs them. -/
theorem submitCommandAcceptsOrRejects : Obligations.SubmitCommandAcceptsOrRejects := by
  intro s v
  obtain ⟨hlegal, hopcode⟩ := legalCommandWordsExactly v
  refine ⟨fun hbusy => ?_, fun addr => memWrite_err, fun hidle hbad => ?_, fun hidle hrsv hlo hhi => ?_⟩
  · exact memWrite_dropped (decodeAddr_reg s.params (r := .cmd) rfl) hbusy rfl v
  · refine memWrite_cmd_illegal hidle fun i hi => ?_
    obtain ⟨hrsv, hlo, hhi⟩ := hlegal.1 ⟨i, hi⟩
    rcases hbad with hbad | hbad | hbad
    · exact hbad hrsv
    all_goals omega
  · obtain ⟨i, hi⟩ := hlegal.2 ⟨hrsv, hlo, hhi⟩
    have haccept := memWrite_cmd_legal hidle hi
    refine ⟨i, (hopcode i hi).1, haccept, fun later hrst hturns => ?_⟩
    rw [haccept]
    exact step_of_engine_next hrst rfl hturns

/-! ### The interrupt (60_exceptions R219) -/

/-- Settles O29: each of these events leaves IRQ_EN, or DONE, and says what the other becomes. -/
theorem interruptIsALevel : Obligations.InterruptIsALevel := by
  refine fun s => ⟨rfl, fun i t h => ?_, fun v hidle hv => ?_, fun v i hidle hv => ?_, fun v hv => ?_, fun v => ?_,
    fun line => ?_⟩
  · obtain ⟨hshell, -, hdone⟩ := exec_next h
    exact ⟨hdone, by simp [State.irq, hshell.irqEn, hdone]⟩
  · rw [memWrite_cmd_illegal hidle hv]
    exact ⟨rfl, by simp [State.irq]⟩
  · rw [memWrite_cmd_legal hidle hv]
    exact ⟨rfl, by simp [State.irq]⟩
  · rw [memWrite_reg (r := .status) rfl (.inr rfl), State.writeReg]
    have hdone : (s.writeStatus v).done = false := by simp [hv]
    exact ⟨hdone, by rw [State.irq, hdone, Bool.and_false]⟩
  · rw [memWrite_reg (r := .ctrl) rfl (.inr rfl)]
    exact ⟨rfl, rfl⟩
  · rw [State.irqLine, Bool.and_eq_true, decide_eq_true_eq]

/-! ### The errors of each command (60_exceptions R211, R213) -/

/-- The table of 60_exceptions R213: with the parameters `p`, the command may raise the error at the stage. -/
inductive CanRaise (p : Params) : Instr → ErrCode → BitVec 8 → Prop where
  | countEmpty : CanRaise p .count .emptyAlphabet 0x02
  | buildEmpty : CanRaise p .build .emptyAlphabet 0x03
  | extractNoTree : CanRaise p .extract .noTree 0x04
  | extractLength : p.maxCodeLen < 255 → CanRaise p .extract .lenOverflow 0x04
  | assignEmpty : CanRaise p .assign .emptyAlphabet 0x05
  | assignLength : p.maxCodeLen < 255 → CanRaise p .assign .lenOverflow 0x05
  | assignOversubscribed : CanRaise p .assign .oversubscribed 0x05
  | encodeNoCode : CanRaise p .encode .noCode 0x06
  | encodeOverflow : CanRaise p .encode .outOverflow 0x06
  | runEmpty : CanRaise p .run .emptyAlphabet 0x02
  | runLength : p.maxCodeLen < 255 → CanRaise p .run .lenOverflow 0x04
  | runOverflow : CanRaise p .run .outOverflow 0x06

/-- No depth of BUILD's tree exceeds 255, so only a smaller bound is exceeded. -/
theorem TreeLeaves.bound_lt {freq : Table (BitVec 32)} {leaves : List (Sym × Nat)} (h : TreeLeaves freq leaves)
    {bound : Nat} (hover : ∃ x, bound < (depthTable leaves).get x) : bound < 255 := by
  obtain ⟨x, hx⟩ := hover
  exact hx.trans_le (Machine.depthTable_le h.nodup (fun e he => (h.bounds e he).2) x)

/-- 60_exceptions R213: the errors a pseudocode raises are the listed ones. -/
theorem stageOf_canRaise {i : Instr} {s u : State} {c : ErrCode} {g : BitVec 8} (htree : TreeInv s)
    (h : stageOf i s = .error u c g) : CanRaise s.params i c g := by
  cases i with
  | clear => cases h
  | count =>
    rcases countStage_cases s with ⟨-, he⟩ | ⟨-, -, he⟩ | ⟨-, _, -, he⟩
    all_goals cases he.symm.trans h
    exact .countEmpty
  | build =>
    rcases buildStage_cases s with ⟨-, he⟩ | ⟨-, he⟩
    all_goals cases he.symm.trans h
    exact .buildEmpty
  | extract =>
    rcases extractStage_cases s with ⟨-, he⟩ | ⟨-, -, he⟩ | ⟨hc, leaves, hl, ⟨hover, he⟩ | ⟨-, he⟩⟩
    all_goals cases he.symm.trans h
    · exact .extractNoTree
    · obtain ⟨freq, leaves', htl, hlive, hroot⟩ := htree.treeLeaves hc
      rw [hlive, hroot] at hl
      exact .extractLength (TreeLeaves.bound_lt ⟨htl.counted, hl⟩ hover)
  | assign =>
    rcases assignStage_cases s with ⟨-, he⟩ | ⟨-, ⟨x, hover⟩, he⟩ | ⟨-, -, -, he⟩ | ⟨-, -, -, _, _, -, he⟩
    all_goals cases he.symm.trans h
    · exact .assignEmpty
    · exact .assignLength (hover.trans_le (Nat.le_of_lt_succ (s.len.get x).isLt))
    · exact .assignOversubscribed
  | encode =>
    rcases encodeStage_cases s with ⟨-, he⟩ | ⟨_, -, ⟨-, he⟩ | ⟨-, ⟨-, he⟩ | ⟨-, he⟩⟩⟩
    all_goals cases he.symm.trans h
    · exact .encodeNoCode
    · exact .encodeOverflow
  | run =>
    rcases runStage_cases s with ⟨-, he⟩ | ⟨-, -, he⟩ |
      ⟨-, _, -, hne, hlt, leaves, hl, ⟨hover, he⟩ | ⟨-, _, -, -, ⟨-, he⟩ | ⟨-, he⟩⟩⟩
    all_goals cases he.symm.trans h
    · exact .runEmpty
    · exact .runLength (TreeLeaves.bound_lt ⟨countedSyms_frequencies hlt hne, hl⟩ hover)
    · exact .runOverflow

/-- A command that completes ends without an error, or with one it can raise. -/
theorem exec_code {i : Instr} {s t : State} (htree : TreeInv s) (h : exec i s = .next t) :
    t.errCode = 0 ∧ t.errStage = 0 ∨
      ∃ c g, CanRaise s.params i c g ∧ t.errCode = c.bits ∧ t.errStage = g := by
  rw [exec_eq_complete] at h
  rcases complete_eq_next.1 h with ⟨u, -, rfl⟩ | ⟨u, c, g, hr, rfl⟩
  · exact .inl ⟨rfl, rfl⟩
  · exact .inr ⟨c, g, stageOf_canRaise htree hr, rfl, rfl⟩

/-- Settles O33: the rows of R213's table, command by command. -/
theorem errorCodesByCommand : Obligations.ErrorCodesByCommand := by
  intro s t htree
  have hcode := fun i => exec_code (i := i) (t := t) htree
  refine ⟨fun h => ?clear, fun h => ?count, fun h => ?build, fun h => ?extract, fun h => ?assign, fun h => ?encode,
    fun h => ?run⟩
  all_goals obtain ⟨h0, hg⟩ | ⟨c, g, hr, hc, hg⟩ := hcode _ h
  case run.inl => exact .inl ⟨h0, hg⟩
  case clear.inl => exact h0
  case count.inl | build.inl | extract.inl | assign.inl | encode.inl => exact .inl h0
  all_goals cases hr
  case count.inr.countEmpty | build.inr.buildEmpty => exact .inr hc
  case extract.inr.extractNoTree => exact .inr (.inl hc)
  case extract.inr.extractLength hmax => exact .inr (.inr ⟨hc, hmax⟩)
  case assign.inr.assignEmpty => exact .inr (.inl hc)
  case assign.inr.assignLength hmax => exact .inr (.inr (.inl ⟨hc, hmax⟩))
  case assign.inr.assignOversubscribed => exact .inr (.inr (.inr hc))
  case encode.inr.encodeNoCode => exact .inr (.inl hc)
  case encode.inr.encodeOverflow => exact .inr (.inr hc)
  case run.inr.runEmpty => exact .inr (.inl ⟨hc, hg⟩)
  case run.inr.runLength hmax => exact .inr (.inr (.inl ⟨hc, hg, hmax⟩))
  case run.inr.runOverflow => exact .inr (.inr (.inr ⟨hc, hg⟩))

end Sys2Proof.Machine
end

section
/-! PROOFS of the family 70_reset_and_hazards: what asserting `rst` leaves, and what the block does while it is
asserted. -/

namespace Sys2Proof.Machine

/-! ### The block in its reset state (10_state R42, 70 R240) -/

/-- A state that reset would leave as it is holds the values of 10_state R42. -/
theorem resetValues_of_resetBlock_eq {s : State} (h : s.resetBlock = s) : ResetValues s := by
  have hvalues : ResetValues s.resetBlock := { resetValues_reset with }
  exact h ▸ hvalues

/-- Asserting `rst` ends the same from a state and from the reset state it is held in. -/
theorem assertRst_heldInReset (s : State) (later : List Turn) :
    State.assertRst { s.heldInReset with turns := later } = State.assertRst { s with turns := later } := by
  rcases Bool.eq_false_or_eq_true s.rst with hrst | hrst
  · rw [heldInReset_of_asserted hrst]
    rfl
  · rw [heldInReset_of_released hrst]

theorem step_of_assertRst {s : State} {later : List Turn} (hturns : s.turns = .assertRst :: later) :
    step s = .next (State.assertRst { s with turns := later }) := by
  rw [step, State.scheduled, State.takeTurn, heldInReset_turns, hturns, ← assertRst_heldInReset]

theorem step_of_releaseRst {s : State} {later : List Turn} (hturns : s.turns = .releaseRst :: later) :
    step s = .next (State.releaseRst { s.heldInReset with turns := later }) := by
  rw [step, State.scheduled, State.takeTurn, heldInReset_turns, hturns]

/-- Settles O11: the reset state of `State.assertRst` keeps only the environment of the state before it. -/
theorem resetAbortsPendingCommand : Obligations.ResetAbortsPendingCommand := fun _ _ hturns =>
  ⟨_, step_of_assertRst hturns, resetValues_of_resetBlock_eq rfl, rfl, rfl, rfl, rfl, rfl, rfl⟩

/-! ### Host accesses while `rst` is asserted (70 R240; logs 5, 11) -/

section Asserted

variable {s : State} (hrst : s.rst = true)

include hrst

theorem busRead_asserted (addr : Word) : s.busRead addr = s.drawAny := by
  simp [State.busRead, hrst]

theorem busWrite_asserted (addr v : Word) : s.busWrite addr v = s := by
  simp [State.busWrite, hrst]

theorem performOp_read_asserted (addr : Word) (width : Nat) (rest : List HostOp) :
    s.performOp (.read addr width) rest = s.drawAny.2.respond (Config.anyWord s.draws) rest := by
  rw [State.performOp, busRead_asserted hrst, State.drawAny]

theorem performOp_write_asserted (addr : Word) (width : Nat) (v : Word) (rest : List HostOp) :
    s.performOp (.write addr width v) rest = { s with hostOps := rest } := by
  simp only [State.performOp, busWrite_asserted hrst]

theorem performOp_poll_asserted (addr mask value : Word) (rest : List HostOp) :
    s.performOp (.poll addr mask value) rest = s.drawAny.2.respond (Config.anyWord s.draws)
      (if Config.anyWord s.draws &&& mask = value then rest else .poll addr mask value :: rest) := by
  rw [State.performOp, busRead_asserted hrst, State.drawAny]

/-- No access moves the block out of its reset state. -/
theorem performOp_asserted_resetBlock (hreset : s.resetBlock = s) (op : HostOp) (rest : List HostOp) :
    (s.performOp op rest).resetBlock = s.performOp op rest := by
  rw [← hreset] at hrst ⊢
  cases op with
  | read addr width => rw [performOp_read_asserted hrst]; rfl
  | write addr width v => rw [performOp_write_asserted hrst]; rfl
  | poll addr mask value => rw [performOp_poll_asserted hrst]; rfl

/-- 70 R240, R241: a step under `rst`, its release included, leaves every piece of the block in its reset state. -/
theorem step_asserted_resetBlock {t : State} (h : step s = .next t) : t.resetBlock = t := by
  obtain ⟨later, ht⟩ := step_next h
  rw [heldInReset_of_asserted hrst] at ht
  obtain rfl | ⟨hbusy, -⟩ | ⟨op, rest, -, -, rfl⟩ | rfl | rfl := ht
  · rfl
  · cases hbusy
  · exact performOp_asserted_resetBlock (s := { s.resetBlock with turns := later }) hrst rfl op rest
  · rfl
  · rfl

/-- HOST's turn under `rst` is one access of its first operation, on the reset state. -/
theorem step_of_hostMoves_asserted {later : List Turn} {op : HostOp} {rest : List HostOp} (hmoves : HostMoves s later)
    (hops : s.hostOps = op :: rest) (hw : op.width = 4) :
    step s = .next (State.performOp { s.resetBlock with turns := later } op rest) := by
  rw [step_of_hostMoves_held hmoves, heldInReset_of_asserted hrst]
  exact hostTurn_cons (s := { s.resetBlock with turns := later }) hops hw

end Asserted

/-- Settles O12: every step stays in the reset state, and an access changes only the environment. -/
theorem assertedResetHoldsTheBlock : Obligations.AssertedResetHoldsTheBlock := by
  intro s hrst
  have hheld : ∀ later, ({ s.resetBlock with turns := later } : State).rst = true := fun _ => hrst
  refine ⟨fun t h => ?_, fun later hturns => ?_, fun later addr v rest hmoves hops => ?_,
    fun later addr rest hmoves hops => ?_⟩
  · exact resetValues_of_resetBlock_eq (step_asserted_resetBlock hrst h)
  · exact ⟨_, step_of_releaseRst hturns, rfl⟩
  · refine ⟨_, step_of_hostMoves_asserted hrst hmoves hops rfl, ?_⟩
    rw [performOp_write_asserted (hheld later)]
    exact ⟨hrst, rfl, rfl⟩
  · refine ⟨_, step_of_hostMoves_asserted hrst hmoves hops rfl, ?_⟩
    rw [performOp_read_asserted (hheld later)]
    exact ⟨hrst, rfl, rfl, rfl⟩

end Sys2Proof.Machine
end
